-- ==== Sys2Proof/Word.lean ====
section
/-! DEFINITION. The two word types of the host interface (30_encoding.md R90) and of the data path (00_scope.md R9). -/

namespace Sys2Proof

/-- A command word or a data word: 32 bits, bit 31 the most significant (00_scope.md R8). -/
abbrev Word := BitVec 32

/-- A Num, as its binary32 bit pattern: sign bit 31, exponent bits 30:23, fraction bits 22:0
(00_scope.md R9). -/
abbrev Num := BitVec 32

end Sys2Proof
end

