-- ==== Sys2Proof/Syntax.lean ====
section
/-! DEFINITION. The commands: one constructor per row of spec/opcode_table.json (30_encoding.md R98). -/

namespace Sys2Proof

/-- The direction of a transform (30_encoding.md R94): bit 8 of the word, 0 forward, 1 inverse. -/
inductive Dir where
  | fwd
  | inv
  deriving DecidableEq, Repr

/-- A command with its operands, fields as they stand in the command word (30_encoding.md R97). `wdata`
is the data word of the transaction, an operand of three commands only (R90). -/
inductive Instr where
  | nop
  | reset
  | config (p : BitVec 5)
  | wrreg (reg : BitVec 24) (wdata : Word)
  | rdreg (reg : BitVec 24)
  | wrmem (mem : BitVec 4) (idx : BitVec 24) (wdata : Word)
  | rdmem (mem : BitVec 4) (idx : BitVec 24)
  | fft (p : BitVec 5) (dir : Dir)
  | push (wdata : Word)
  | analyze
  | remap
  | synth
  | ola
  | cycle
  | clrerr
  deriving DecidableEq, Repr

end Sys2Proof
end

