-- ==== Sys2Proof/WellFormed.lean ====
section
/-! DEFINITION. Well-formed commands. Every field value is a legal encoding but one: the memory ids 12 to
15 of format M (30_encoding.md R98, R99). -/

namespace Sys2Proof

/-- The condition of 30_encoding.md R98 that its masks cannot express. -/
def Instr.wf : Instr → Bool
  | .nop => true
  | .reset => true
  | .config _ => true
  | .wrreg _ _ => true
  | .rdreg _ => true
  | .wrmem mem _ _ => decide (mem.toNat ≤ 11)
  | .rdmem mem _ => decide (mem.toNat ≤ 11)
  | .fft _ _ => true
  | .push _ => true
  | .analyze => true
  | .remap => true
  | .synth => true
  | .ola => true
  | .cycle => true
  | .clrerr => true

end Sys2Proof
end

