-- ==== Sys2Proof/Decode.lean ====
section
/-! DEFINITION. The decoder, the encoder and the opcode map (30_encoding.md R91 to R100). -/

namespace Sys2Proof

/-- Why a command word is illegal: one name for each clause of 30_encoding.md R99. -/
inductive DecodeError where
  /-- `OPC = 15` -/
  | reservedOpcode
  /-- format Z with `cmd[27:0] != 0` -/
  | formatZ
  /-- format C with `cmd[27:5] != 0` -/
  | formatC
  /-- format T with a non-zero bit in `cmd[27:9]` or `cmd[7:5]` -/
  | formatT
  /-- format R with `SEL != 0` -/
  | formatR
  /-- format M with `SEL` 12 to 15 -/
  | formatM
  deriving DecidableEq, Repr

/-- `OPC`, bits 31:28 (30_encoding.md R91). -/
def fieldOpc (cmd : Word) : BitVec 4 := cmd.extractLsb' 28 4

/-- `SEL`, bits 27:24 (30_encoding.md R91). -/
def fieldSel (cmd : Word) : BitVec 4 := cmd.extractLsb' 24 4

/-- `IDX`, bits 23:0 (30_encoding.md R91). -/
def fieldIdx (cmd : Word) : BitVec 24 := cmd.extractLsb' 0 24

/-- `P`, bits 4:0 of formats C and T (30_encoding.md R93, R94). -/
def fieldP (cmd : Word) : BitVec 5 := cmd.extractLsb' 0 5

/-- `DIR`, bit 8 of format T (30_encoding.md R94). -/
def fieldDir (cmd : Word) : Dir := if cmd.getLsbD 8 then .inv else .fwd

/-- Format Z (30_encoding.md R92): nothing but the opcode may be set. -/
def decodeZ (cmd : Word) (i : Instr) : Except DecodeError Instr :=
  if cmd.extractLsb' 0 28 = 0#28 then .ok i else .error .formatZ

/-- Format C (30_encoding.md R93). -/
def decodeC (cmd : Word) : Except DecodeError Instr :=
  if cmd.extractLsb' 5 23 = 0#23 then .ok (.config (fieldP cmd)) else .error .formatC

/-- Format T (30_encoding.md R94). -/
def decodeT (cmd : Word) : Except DecodeError Instr :=
  if cmd.extractLsb' 9 19 = 0#19 ∧ cmd.extractLsb' 5 3 = 0#3 then
    .ok (.fft (fieldP cmd) (fieldDir cmd))
  else .error .formatT

/-- Format R (30_encoding.md R95). -/
def decodeR (cmd : Word) (i : Instr) : Except DecodeError Instr :=
  if fieldSel cmd = 0#4 then .ok i else .error .formatR

/-- Format M (30_encoding.md R96, R99). -/
def decodeM (cmd : Word) (i : Instr) : Except DecodeError Instr :=
  if (fieldSel cmd).toNat ≤ 11 then .ok i else .error .formatM

/-- The total decoder (30_encoding.md R98 to R100): a command word and the data word that came with it.
The data word never makes a transaction illegal. -/
def decode (cmd wdata : Word) : Except DecodeError Instr :=
  match (fieldOpc cmd).toNat with
  | 0 => decodeZ cmd .nop
  | 1 => decodeZ cmd .reset
  | 2 => decodeC cmd
  | 3 => decodeR cmd (.wrreg (fieldIdx cmd) wdata)
  | 4 => decodeR cmd (.rdreg (fieldIdx cmd))
  | 5 => decodeM cmd (.wrmem (fieldSel cmd) (fieldIdx cmd) wdata)
  | 6 => decodeM cmd (.rdmem (fieldSel cmd) (fieldIdx cmd))
  | 7 => decodeT cmd
  | 8 => decodeZ cmd (.push wdata)
  | 9 => decodeZ cmd .analyze
  | 10 => decodeZ cmd .remap
  | 11 => decodeZ cmd .synth
  | 12 => decodeZ cmd .ola
  | 13 => decodeZ cmd .cycle
  | 14 => decodeZ cmd .clrerr
  | _ => .error .reservedOpcode

/-- A command word from its three fields (30_encoding.md R91). -/
def commandWord (opc sel : BitVec 4) (idx : BitVec 24) : Word := opc ++ sel ++ idx

/-- `DIR` as the bit of format T (30_encoding.md R94). -/
def Dir.bit : Dir → BitVec 1
  | .fwd => 0#1
  | .inv => 1#1

/-- The command word of a command (30_encoding.md R98, R101). -/
def encodeCmd : Instr → Word
  | .nop => commandWord 0#4 0#4 0#24
  | .reset => commandWord 1#4 0#4 0#24
  | .config p => commandWord 2#4 0#4 (0#19 ++ p)
  | .wrreg reg _ => commandWord 3#4 0#4 reg
  | .rdreg reg => commandWord 4#4 0#4 reg
  | .wrmem mem idx _ => commandWord 5#4 mem idx
  | .rdmem mem idx => commandWord 6#4 mem idx
  | .fft p dir => commandWord 7#4 0#4 (0#15 ++ dir.bit ++ 0#3 ++ p)
  | .push _ => commandWord 8#4 0#4 0#24
  | .analyze => commandWord 9#4 0#4 0#24
  | .remap => commandWord 10#4 0#4 0#24
  | .synth => commandWord 11#4 0#4 0#24
  | .ola => commandWord 12#4 0#4 0#24
  | .cycle => commandWord 13#4 0#4 0#24
  | .clrerr => commandWord 14#4 0#4 0#24

/-- The data word of a command; 0x00000000 where it is ignored, as the assembler emits it
(30_encoding.md R101). -/
def encodeData : Instr → Word
  | .wrreg _ v => v
  | .wrmem _ _ v => v
  | .push v => v
  | .nop => 0#32
  | .reset => 0#32
  | .config _ => 0#32
  | .rdreg _ => 0#32
  | .rdmem _ _ => 0#32
  | .fft _ _ => 0#32
  | .analyze => 0#32
  | .remap => 0#32
  | .synth => 0#32
  | .ola => 0#32
  | .cycle => 0#32
  | .clrerr => 0#32

/-- The request `(cmd, wdata)` of a command (30_encoding.md R90). -/
def encode (i : Instr) : Word × Word := (encodeCmd i, encodeData i)

/-- One row of the opcode map (30_encoding.md R98): `w` selects the row when `w &&& mask = pattern`. -/
structure OpcodeRow where
  mnemonic : String
  pattern : Word
  mask : Word
  deriving DecidableEq, Repr

/-- The opcode map of 30_encoding.md R98, in its order. -/
def opcodeMap : List OpcodeRow :=
  [⟨"NOP", 0x00000000#32, 0xFFFFFFFF#32⟩,
   ⟨"RESET", 0x10000000#32, 0xFFFFFFFF#32⟩,
   ⟨"CONFIG", 0x20000000#32, 0xFFFFFFE0#32⟩,
   ⟨"WRREG", 0x30000000#32, 0xFF000000#32⟩,
   ⟨"RDREG", 0x40000000#32, 0xFF000000#32⟩,
   ⟨"WRMEM", 0x50000000#32, 0xF0000000#32⟩,
   ⟨"RDMEM", 0x60000000#32, 0xF0000000#32⟩,
   ⟨"FFT", 0x70000000#32, 0xFFFFFEE0#32⟩,
   ⟨"PUSH", 0x80000000#32, 0xFFFFFFFF#32⟩,
   ⟨"ANALYZE", 0x90000000#32, 0xFFFFFFFF#32⟩,
   ⟨"REMAP", 0xA0000000#32, 0xFFFFFFFF#32⟩,
   ⟨"SYNTH", 0xB0000000#32, 0xFFFFFFFF#32⟩,
   ⟨"OLA", 0xC0000000#32, 0xFFFFFFFF#32⟩,
   ⟨"CYCLE", 0xD0000000#32, 0xFFFFFFFF#32⟩,
   ⟨"CLRERR", 0xE0000000#32, 0xFFFFFFFF#32⟩]

/-- Does the word select the row (30_encoding.md R98)? -/
def OpcodeRow.selects (r : OpcodeRow) (w : Word) : Bool := w &&& r.mask == r.pattern

/-- The mnemonics of the rows a word selects (30_encoding.md R98). -/
def mnemonicsOf (w : Word) : List String := (opcodeMap.filter (·.selects w)).map (·.mnemonic)

/-- The mnemonic of a command in the opcode map. -/
def Instr.mnemonic : Instr → String
  | .nop => "NOP"
  | .reset => "RESET"
  | .config _ => "CONFIG"
  | .wrreg _ _ => "WRREG"
  | .rdreg _ => "RDREG"
  | .wrmem _ _ _ => "WRMEM"
  | .rdmem _ _ => "RDMEM"
  | .fft _ _ => "FFT"
  | .push _ => "PUSH"
  | .analyze => "ANALYZE"
  | .remap => "REMAP"
  | .synth => "SYNTH"
  | .ola => "OLA"
  | .cycle => "CYCLE"
  | .clrerr => "CLRERR"

/-- The request whose bits are `w`: bits 31:0 the command word, bits 63:32 the data word, every bit from
`nbits` on zero. The opcode table gives the data word no bits, so it is zero there (log 3). -/
def tableRequest (nbits w : Nat) : Word × Word :=
  (BitVec.ofNat 32 (w % 2 ^ nbits), BitVec.ofNat 32 (w % 2 ^ nbits / 2 ^ 32))

/-- The command the decoder reads from an opcode-table word. -/
def decodeTableWord (nbits w : Nat) : Option Instr :=
  (decode (tableRequest nbits w).1 (tableRequest nbits w).2).toOption

end Sys2Proof
end

