-- ==== Sys2Proof/Config.lean ====
section
/-! DEFINITION. What an implementation fixes (00_scope.md R7): the largest frame exponent and the
record NUMERICS. The functions of NUMERICS and the identity of a NaN result are free values:
constants with no body, of which nothing can be proved but what the rules say. -/

namespace Sys2Proof

/-- The operations whose result may be a NaN the spec does not identify (00_scope.md R10;
93_implementation_defined.md U5). -/
inductive NumOp where
  | add | sub | mul | div | sqrt | floor | sin | cos | atan2
  deriving DecidableEq, Repr

/-- The open part of the arithmetic: what the three functions of NUMERICS return before the limits of
00_scope.md R11 are applied, and sign and payload (bit 22, bits 21:0) of the quiet NaN that an
operation returns for its operand bits. -/
structure Numerics where
  sinRaw : Num → Num
  cosRaw : Num → Num
  /-- arguments in the order of `atan2N(y, x)` -/
  atan2Raw : Num → Num → Num
  nanRaw : NumOp → Num → Num → BitVec 23

namespace Config

/-- `LOG2N_MAX`, the largest frame exponent (00_scope.md R7): the spec's default. DESIGN CHOICE, log 5:
any value from 1 to 23 is admissible. Unsafe. -/
def log2nMax : Nat := 13

/-- FREE VALUE (log 6): the sine of NUMERICS, 00_scope.md R10, U6. -/
opaque sinRaw : Num → Num

/-- FREE VALUE (log 6): the cosine of NUMERICS, 00_scope.md R10, U6. -/
opaque cosRaw : Num → Num

/-- FREE VALUE (log 6): the arc tangent of NUMERICS, 00_scope.md R10, U6. -/
opaque atan2Raw : Num → Num → Num

/-- FREE VALUE (log 7): which quiet NaN an operation returns, 00_scope.md R10, U5. -/
opaque nanRaw : NumOp → Num → Num → BitVec 23

/-- The record NUMERICS of this machine. -/
def numerics : Numerics where
  sinRaw := sinRaw
  cosRaw := cosRaw
  atan2Raw := atan2Raw
  nanRaw := nanRaw

end Config

end Sys2Proof
end

