-- ==== Sys2Proof/Machine/Float.lean ====
section
/-! DEFINITION. The Num operations of 00_scope.md R10: IEEE 754 binary32, round to nearest, ties to even.
Every finite Num is an integer multiple of 2^-149, so values and sums are exact integers in that unit and
one function, `roundMag`, does all rounding. -/

namespace Sys2Proof.Machine

/-- The constant `PI` of 00_scope.md R10. -/
def numPi : Num := 0x40490FDB#32

/-- The constant `TWO_PI` of 00_scope.md R10. -/
def numTwoPi : Num := 0x40C90FDB#32

/-- +0.0 -/
def numZero : Num := 0x00000000#32

/-- 1.0 -/
def numOne : Num := 0x3F800000#32

/-- The 31-bit pattern of infinity: exponent field all ones, fraction 0 (00_scope.md R9). -/
def infMag : Nat := 0x7F800000

/-- The sign bit, bit 31 (00_scope.md R9). -/
def numSign (a : Num) : Bool := a.msb

/-- The exponent field, bits 30:23 (00_scope.md R9). -/
def numExp (a : Num) : Nat := a.toNat / 2 ^ 23 % 2 ^ 8

/-- The fraction field, bits 22:0 (00_scope.md R9). -/
def numFrac (a : Num) : Nat := a.toNat % 2 ^ 23

def isNaN (a : Num) : Bool := numExp a == 255 && numFrac a != 0

def isInf (a : Num) : Bool := numExp a == 255 && numFrac a == 0

def isFin (a : Num) : Bool := numExp a != 255

/-- +0.0 or -0.0 -/
def isZero (a : Num) : Bool := numExp a == 0 && numFrac a == 0

/-- The absolute value of a finite Num in units of 2^-149. (On an infinity it is 2^277, above every
finite value.) -/
def numMag (a : Num) : Nat :=
  if numExp a = 0 then numFrac a else (2 ^ 23 + numFrac a) * 2 ^ (numExp a - 1)

/-- The value of a finite Num in units of 2^-149. -/
def numVal (a : Num) : Int := if numSign a then -(numMag a : Int) else (numMag a : Int)

/-- The Num with the given sign and 31-bit pattern. -/
def packNum (neg : Bool) (mag : Nat) : Num := BitVec.ofNat 32 ((if neg then 2 ^ 31 else 0) + mag)

/-- The 31-bit pattern nearest to the non-negative rational `num / den` in units of 2^-149, ties to even,
infinity on overflow (00_scope.md R10). With `s` the number of low-order bits that do not fit into 24
significant bits, the pattern of the significand `m` at that scale is `s * 2^23 + m`, subnormal or not. -/
def roundMag (num den : Nat) : Nat :=
  let s := (num / den).log2 - 23
  let d := den * 2 ^ s
  let q := num / d
  let r := num % d
  let m := if d < 2 * r ∨ (2 * r = d ∧ q % 2 = 1) then q + 1 else q
  min (s * 2 ^ 23 + m) infMag

/-- The largest `r` with `r * r ≤ n`, found bit by bit from bit `k - 1` down. -/
def isqrtFrom (n : Nat) : (k r : Nat) → Nat
  | 0, r => r
  | k + 1, r => isqrtFrom n k (if (r + 2 ^ k) * (r + 2 ^ k) ≤ n then r + 2 ^ k else r)

/-- The integer square root. -/
def isqrt (n : Nat) : Nat := isqrtFrom n (n.log2 / 2 + 1) 0

/-- `neg(a)`: sign-bit flip, exact (00_scope.md R10). -/
def numNeg (a : Num) : Num := a ^^^ 0x80000000#32

/-- `num(i)` for an integer `i ≥ 0`, exact for `i ≤ 2^24` and for powers of two (00_scope.md R10,
44_synth_ola.md R196; log 9). -/
def numOfNat (i : Nat) : Num := packNum false (roundMag (i * 2 ^ 149) 1)

/-- `a ≤N b`: false when either operand is a NaN (00_scope.md R10). -/
def numLe (a b : Num) : Bool := !isNaN a && !isNaN b && decide (numVal a ≤ numVal b)

/-- `a ≥N b` (00_scope.md R10). -/
def numGe (a b : Num) : Bool := numLe b a

/-- The integer `floor(a)` of a finite Num. -/
def numFloorInt (a : Num) : Int := numVal a / 2 ^ 149

/-- A quiet NaN with the given sign (bit 22) and payload (bits 21:0): exponent field all ones, the top
fraction bit set (00_scope.md R10, log 7). -/
def quietNaN (x : BitVec 23) : Num := x.extractLsb' 22 1 ++ 0xFF#8 ++ 1#1 ++ x.extractLsb' 0 22

/-- The NaN an operation returns for its operand bits: some quiet NaN (00_scope.md R10, U5). -/
def nanResult (nm : Numerics) (op : NumOp) (a b : Num) : Num := quietNaN (nm.nanRaw op a b)

/-- Correctly rounded sum, the operation named `op` for the identity of a NaN result. -/
def addAs (nm : Numerics) (op : NumOp) (a b : Num) : Num :=
  if isNaN a || isNaN b then nanResult nm op a b
  else if isInf a then
    if isInf b && (numSign a != numSign b) then nanResult nm op a b else a
  else if isInf b then b
  else
    let v := numVal a + numVal b
    if v = 0 then packNum (numSign a && numSign b) 0
    else packNum (decide (v < 0)) (roundMag v.natAbs 1)

/-- `a ⊕ b` (00_scope.md R10). -/
def numAdd (nm : Numerics) (a b : Num) : Num := addAs nm .add a b

/-- `a ⊖ b`: the sum of `a` and `neg(b)` (00_scope.md R10). -/
def numSub (nm : Numerics) (a b : Num) : Num := addAs nm .sub a (numNeg b)

/-- `a ⊗ b` (00_scope.md R10). -/
def numMul (nm : Numerics) (a b : Num) : Num :=
  let neg := numSign a != numSign b
  if isNaN a || isNaN b then nanResult nm .mul a b
  else if (isInf a && isZero b) || (isZero a && isInf b) then nanResult nm .mul a b
  else if isInf a || isInf b then packNum neg infMag
  else packNum neg (roundMag (numMag a * numMag b) (2 ^ 149))

/-- `a ⊘ b` (00_scope.md R10). -/
def numDiv (nm : Numerics) (a b : Num) : Num :=
  let neg := numSign a != numSign b
  if isNaN a || isNaN b then nanResult nm .div a b
  else if (isInf a && isInf b) || (isZero a && isZero b) then nanResult nm .div a b
  else if isInf a || isZero b then packNum neg infMag
  else if isInf b then packNum neg 0
  else packNum neg (roundMag (numMag a * 2 ^ 149) (numMag b))

/-- `sqrtN(a)` (00_scope.md R10). The square root of `m` units is the square root of `m * 2^149`, in
units; half a unit is added to its integer part when it is not exact, far below the last rounded bit. -/
def numSqrt (nm : Numerics) (a : Num) : Num :=
  if isNaN a then nanResult nm .sqrt a a
  else if isZero a then a
  else if numSign a then nanResult nm .sqrt a a
  else if isInf a then a
  else
    let x := numMag a * 2 ^ 149
    let r := isqrt x
    packNum false (roundMag (2 * r + (if r * r = x then 0 else 1)) 2)

/-- `floorN(a)`: exact; `floorN(±0) = ±0`, `floorN(±∞) = ±∞`, `floorN(NaN) = NaN` (00_scope.md R10). -/
def numFloor (nm : Numerics) (a : Num) : Num :=
  if isNaN a then nanResult nm .floor a a
  else if isInf a || isZero a then a
  else
    let k := numFloorInt a
    packNum (decide (k < 0)) (roundMag (k.natAbs * 2 ^ 149) 1)

end Sys2Proof.Machine
end

