-- ==== Sys2Proof/Machine/Elementary.lean ====
section
/-! DEFINITION. The functions of NUMERICS within the limits of 00_scope.md R11, and the ROM constants of
10_state.md R37 and R38. The exact real value of a function is computed as an integer in units of 2^-640,
with an error below `fxError` (log 6, log 10): P-ACC compares what NUMERICS returns with it, and the ROMs
round it. So fine a unit is needed because the cosine of the smallest Num is below 1 by 2^-299 and its
sine below it by less than 2^-449. -/

namespace Sys2Proof.Machine

/-- 1 in units of 2^-640. (A power with an exponent above 256 Lean evaluates in the kernel only.) -/
def fxOne : Nat := (2 ^ 160) ^ 4

/-- 2^-149, the smallest positive Num, in units of 2^-640. -/
def fxLeast : Nat := 2 ^ 240 * 2 ^ 251

/-- π in units of 2^-800, rounded down. PRESUMED (log 11). -/
def fxPiWide : Nat :=
  0x3243f6a8885a308d313198a2e03707344a4093822299f31d0082efa98ec4e6c89452821e638d01377be5466cf34e90c6cc0ac29b7c97c50dd3f84d5b5b54709179216d5d98979fb1bd1310ba698dfb5ac2ffd72dbd01adfb7b8e1afed6a267e96ba7c9045

/-- π in units of 2^-640, rounded down. -/
def fxPi : Nat := fxPiWide / 2 ^ 160

/-- The alternating series `1 - z/d(j) * (1 - z/d(j+1) * (1 - ...))` in units of 2^-640, cut off after
`fuel` terms; at most 1. -/
def fxSeries (z : Nat) (d : Nat → Nat) : (fuel j : Nat) → Nat
  | 0, _ => fxOne
  | fuel + 1, j => fxOne - z * fxSeries z d fuel (j + 1) / (d j * fxOne)

/-- Cosine of `x` in `[0, π/4]` (Taylor series). -/
def fxCos (x : Nat) : Nat := fxSeries (x * x / fxOne) (fun j => (2 * j + 1) * (2 * j + 2)) 64 0

/-- Sine of `x` in `[0, π/4]` (Taylor series). -/
def fxSin (x : Nat) : Nat :=
  x * fxSeries (x * x / fxOne) (fun j => (2 * j + 2) * (2 * j + 3)) 64 0 / fxOne

/-- The series `1/(2j+1) - z * (1/(2j+3) - z * ...)` of the arc tangent. -/
def fxAtanSeries (z : Nat) : (fuel j : Nat) → Nat
  | 0, j => fxOne / (2 * j + 1)
  | fuel + 1, j => fxOne / (2 * j + 1) - z * fxAtanSeries z fuel (j + 1) / fxOne

/-- `tan(θ/2)` from `t = tan(θ)`: `t / (1 + sqrt(1 + t²))`. -/
def fxHalfAngle (t : Nat) : Nat := t * fxOne / (fxOne + isqrt (fxOne * fxOne + t * t))

/-- Arc tangent of `t` in `[0, 1]`: the angle is halved four times before the series is used. -/
def fxAtan (t : Nat) : Nat :=
  let u := fxHalfAngle (fxHalfAngle (fxHalfAngle (fxHalfAngle t)))
  min (fxPi / 4) (16 * u * fxAtanSeries (u * u / fxOne) 80 0 / fxOne)

/-- Sine of an angle in `[-π/4, π/4]` given in units of 2^-800. -/
def fxSinSigned (r : Int) : Int :=
  if r < 0 then -(fxSin (r.natAbs / 2 ^ 160) : Int) else fxSin (r.natAbs / 2 ^ 160)

/-- Cosine of an angle in `[-π/4, π/4]` given in units of 2^-800. -/
def fxCosSigned (r : Int) : Int := fxCos (r.natAbs / 2 ^ 160)

/-- The quarter turn nearest to the angle of `m` units of 2^-149 radians. -/
def fxQuadrant (m : Nat) : Nat := (m * (fxLeast * 2 ^ 160) + fxPiWide / 4) / (fxPiWide / 2)

/-- What remains of the angle beyond that quarter turn, in units of 2^-800. -/
def fxRest (m : Nat) : Int := (m * (fxLeast * 2 ^ 160) : Nat) - (fxQuadrant m * (fxPiWide / 2) : Nat)

/-- The sine of a finite Num, in units of 2^-640. -/
def sinExact (a : Num) : Int :=
  let r := fxRest (numMag a)
  let q := fxQuadrant (numMag a) % 4
  let v := if q = 0 then fxSinSigned r else if q = 1 then fxCosSigned r
    else if q = 2 then -fxSinSigned r else -fxCosSigned r
  if numSign a then -v else v

/-- The cosine of a finite Num, in units of 2^-640. -/
def cosExact (a : Num) : Int :=
  let r := fxRest (numMag a)
  let q := fxQuadrant (numMag a) % 4
  if q = 0 then fxCosSigned r else if q = 1 then -fxSinSigned r
  else if q = 2 then -fxCosSigned r else fxSinSigned r

/-- The angle in `[0, π]` of the point `(x, y)` with `|x|`, `|y|` given as integers and `xneg` the sign of
`x`; the origin counts as lying on the x axis. -/
def fxAngle (xneg : Bool) (x y : Nat) : Nat :=
  let a := if y ≤ x then fxAtan (y * fxOne / x) else fxPi / 2 - fxAtan (x * fxOne / y)
  if xneg then fxPi - a else a

/-- The absolute value of an operand of `atan2N`, with the infinities reduced to the directions IEEE 754
recommends (92_eei_decisions.md D26; log 8). -/
def atan2Mag (a other : Num) : Nat :=
  if isInf a then 1 else if isInf other then 0 else numMag a

/-- The absolute value of `atan2(y, x)`, neither operand a NaN, in units of 2^-640. -/
def atan2Exact (y x : Num) : Nat := fxAngle (numSign x) (atan2Mag x y) (atan2Mag y x)

/-- `|v|` in units of 2^-640 rounded to the nearest Num, ties to even, the sign of `v`, or `zneg` for
`v = 0`. -/
def fxRound (zneg : Bool) (v : Int) : Num :=
  packNum (if v = 0 then zneg else decide (v < 0)) (roundMag v.natAbs fxLeast)

/-- A bound on the error of `sinExact`, `cosExact` and `atan2Exact`, in units of 2^-640: none where they
give 0, the exact value of an exact zero (log 6). -/
def fxError (v : Int) : Nat := if v = 0 then 0 else 2 ^ 32

/-- One unit in the last place of the binary32 numbers around a value of absolute value `m` units of
2^-640, in units of 2^-149. -/
def fxUlp (m : Nat) : Nat := 2 ^ ((m / fxLeast).log2 - 23)

/-- P-ACC of 00_scope.md R11: `raw` is within 1 unit in the last place of the exact value, wherever that
lies within `fxError v` of `v`; and its absolute value is at most `bound` units of 2^-149 (P-RANGE). The
unit is that of the least absolute value the exact value can have: just below a power of two it is half of
what it is at the power itself. -/
def admissible (raw : Num) (v : Int) (bound : Nat) : Bool :=
  isFin raw &&
    decide ((numVal raw * fxLeast - v).natAbs + fxError v ≤ fxUlp (v.natAbs - fxError v) * fxLeast) &&
    decide (numMag raw ≤ bound)

/-- The value of NUMERICS if it is admissible, the exact value rounded to nearest if it is not: no value
outside the limits of 00_scope.md R11 is returned, and each value inside them by some `raw` (log 6). -/
def withinLimits (raw : Num) (zneg : Bool) (v : Int) (bound : Nat) : Num :=
  if admissible raw v bound then raw else fxRound zneg v

/-- `sinN(a)` (00_scope.md R10, R11). -/
def numSin (nm : Numerics) (a : Num) : Num :=
  if isNaN a || isInf a then nanResult nm .sin a a
  else if a = numZero then numZero
  else withinLimits (nm.sinRaw a) (numSign a) (sinExact a) (numMag numOne)

/-- `cosN(a)` (00_scope.md R10, R11). -/
def numCos (nm : Numerics) (a : Num) : Num :=
  if isNaN a || isInf a then nanResult nm .cos a a
  else if isZero a then numOne
  else withinLimits (nm.cosRaw a) false (cosExact a) (numMag numOne)

/-- `atan2N(y, x)` (00_scope.md R10, R11; signed zeros and infinities by D26, log 8). `PI_UP`, the
smallest Num not below π, is `PI`. -/
def numAtan2 (nm : Numerics) (y x : Num) : Num :=
  if isNaN y || isNaN x then nanResult nm .atan2 y x
  else if atan2Mag y x = 0 ∧ numSign x = false then packNum (numSign y) 0
  else withinLimits (nm.atan2Raw y x) (numSign y)
    (if numSign y then -(atan2Exact y x : Int) else atan2Exact y x) (numMag numPi)

/-- `cos(2π·k/n)` for `4k ≤ n`, in units of 2^-640. -/
def fxCosQuarter (k n : Nat) : Nat :=
  if 8 * k ≤ n then fxCos (2 * fxPi * k / n) else fxSin (2 * fxPi * (n - 4 * k) / (4 * n))

/-- `cos(2π·k/n)` for `2k ≤ n`. -/
def fxCosHalf (k n : Nat) : Int :=
  if 4 * k ≤ n then (fxCosQuarter k n : Int) else -(fxCosQuarter (n - 2 * k) (2 * n) : Int)

/-- `cos(2π·k/n)` for `k ≤ n`. -/
def fxCosTurn (k n : Nat) : Int := if 2 * k ≤ n then fxCosHalf k n else fxCosHalf (n - k) n

/-- `sin(2π·k/n)` for `2k ≤ n`: the cosine of the angle less a quarter turn. -/
def fxSinTurn (k n : Nat) : Int := fxCosTurn (4 * k - n + (n - 4 * k)) (4 * n)

/-- `WIN[k]` for the frame size `n`: `0.5 - 0.5·cos(2π·k/n)` rounded to nearest (10_state.md R37). -/
def winConst (n k : Nat) : Num := fxRound false (((fxOne : Int) - fxCosTurn k n) / 2)

/-- `TW[i]` for the frame size `n`: pairs (cos, sin) of `2π·j/n` rounded to nearest (10_state.md R38). -/
def twConst (n i : Nat) : Num :=
  if i % 2 = 0 then fxRound false (fxCosTurn (i / 2) n) else fxRound false (fxSinTurn (i / 2) n)

end Sys2Proof.Machine
end

