-- ==== Sys2Proof/Machine/State.lean ====
section
/-! DEFINITION. The state of one engine (10_state.md), the reasons a step can stop, and the state after
reset. State is plain data. -/

namespace Sys2Proof.Machine

/-- The contents of one memory: the elements that are not +0.0, as pairs (index, element) in strictly
rising index order. An index that is not listed reads +0.0, the value CONFIG gives every RAM element
(10_state.md R41). The unit of storage is one element of 32 bits (20_memory.md R62; log 4). -/
abbrev Memory := List (Nat × Num)

/-- The twelve memories, in the order of their ids (10_state.md R30). -/
inductive MemId where
  | ws | infifo | outfifo | acc | lastph | sumph | anamag | anafrq | synmag | synfrq | win | tw
  deriving DecidableEq, Repr

/-- The six error codes (60_exceptions.md R241). -/
inductive Err where
  | illegal | unconf | range | ro | param | cfg
  deriving DecidableEq, Repr

/-- What the engine answers to a request (30_encoding.md R90). -/
structure Response where
  code : BitVec 4
  rdata : Word
  deriving DecidableEq, Repr

/-- What the host can do to the engine between two transactions. -/
inductive HostEvent where
  /-- one transaction: a command word and a data word (30_encoding.md R90) -/
  | request (cmd wdata : Word)
  /-- hardware reset (70_reset_and_hazards.md R270) -/
  | hardReset
  /-- overlapping requests, a second host, or reset while a command executes: the model has no move
  (70_reset_and_hazards.md R277; 93_implementation_defined.md U15) -/
  | violation
  deriving DecidableEq, Repr

/-- The reasons a step stops with a fault. -/
inductive Fault where
  /-- Raised by the step when the next host event is a protocol violation: the spec's `stuck`
  (93_implementation_defined.md U15). No command raises it. Safe (log 13). -/
  | hostProtocolViolation
  deriving DecidableEq, Repr

/-- The reasons an instruction is refused. -/
inductive Refusal where
  /-- The instruction has no meaning in this model yet: raised by `exec` alone; no arm raises it now.
  Safe. -/
  | notModelled (mnemonic : String)
  deriving DecidableEq, Repr

/-- The state of one engine instance: one configured bit, seven flags, the registers that are storage,
ten RAMs and two ROMs (10_state.md), and two fields of the model's own, `host` (log 1) and `resp`
(log 2). -/
structure State where
  /-- `CFGD` (10_state.md R23) -/
  cfgd : Bool
  /-- `CYC` (10_state.md R23) -/
  cyc : Bool
  /-- the sticky error flags (10_state.md R23) -/
  fIllegal : Bool
  fUnconf : Bool
  fRange : Bool
  fRo : Bool
  fParam : Bool
  fCfg : Bool
  /-- register `LOG2N`, bits 4:0 (10_state.md R26) -/
  log2n : BitVec 5
  /-- register `OSAMP`, bits 5:0 (10_state.md R26) -/
  osamp : BitVec 6
  /-- register `SRATE` (10_state.md R26) -/
  srate : Num
  /-- register `RATIO` (10_state.md R26) -/
  ratio : Num
  /-- register `ROVER` (10_state.md R27) -/
  rover : BitVec 32
  /-- the twelve memories (10_state.md R30) -/
  ws : Memory
  infifo : Memory
  outfifo : Memory
  acc : Memory
  lastph : Memory
  sumph : Memory
  anamag : Memory
  anafrq : Memory
  synmag : Memory
  synfrq : Memory
  win : Memory
  tw : Memory
  /-- the model's own: what the host does from here on, first event first (log 1) -/
  host : List HostEvent
  /-- the model's own: the response to the last transaction, if there was one (log 2) -/
  resp : Option Response
  deriving DecidableEq, Repr

/-- The state after hardware reset (10_state.md R40; 70_reset_and_hazards.md R270): unconfigured, every
register at its reset value, no memories. -/
def State.reset : State where
  cfgd := false
  cyc := false
  fIllegal := false
  fUnconf := false
  fRange := false
  fRo := false
  fParam := false
  fCfg := false
  log2n := 0#5
  osamp := 0#6
  srate := 0x00000000#32
  ratio := 0x3F800000#32
  rover := 0#32
  ws := []
  infifo := []
  outfifo := []
  acc := []
  lastph := []
  sumph := []
  anamag := []
  anafrq := []
  synmag := []
  synfrq := []
  win := []
  tw := []
  host := []
  resp := none

/-- The three outcomes of a step of this machine. -/
abbrev Result := Host.Outcome State Fault Refusal

end Sys2Proof.Machine
end

