-- ==== Sys2Proof/Machine/Flags.lean ====
section
/-! DEFINITION. The flags, the STATUS word and the error codes (10_state.md R23, R25; 60_exceptions.md R241). -/

namespace Sys2Proof.Machine

/-- The code of a command that completed (60_exceptions.md R241). -/
def okCode : BitVec 4 := 0#4

/-- The response code of an error (60_exceptions.md R241). -/
def errCode : Err → BitVec 4
  | .illegal => 1#4
  | .unconf => 2#4
  | .range => 3#4
  | .ro => 4#4
  | .param => 5#4
  | .cfg => 6#4

/-- The sticky flag of an error (60_exceptions.md R241). -/
def stickyFlag (e : Err) (s : State) : Bool :=
  match e with
  | .illegal => s.fIllegal
  | .unconf => s.fUnconf
  | .range => s.fRange
  | .ro => s.fRo
  | .param => s.fParam
  | .cfg => s.fCfg

/-- Set the sticky flag of an error (60_exceptions.md R244). -/
def setSticky (e : Err) (s : State) : State :=
  match e with
  | .illegal => { s with fIllegal := true }
  | .unconf => { s with fUnconf := true }
  | .range => { s with fRange := true }
  | .ro => { s with fRo := true }
  | .param => { s with fParam := true }
  | .cfg => { s with fCfg := true }

/-- Clear the six sticky flags (45_system.md R212). -/
def clearSticky (s : State) : State :=
  { s with fIllegal := false, fUnconf := false, fRange := false, fRo := false, fParam := false,
           fCfg := false }

/-- One bit as a 1-bit word. -/
def flagBit (b : Bool) : BitVec 1 := BitVec.ofBool b

/-- The STATUS word (10_state.md R25): bit 0 CFGD, bit 1 CYC, bits 8 to 13 the sticky flags, all other
bits zero. -/
def statusWord (s : State) : Word :=
  0#18 ++ flagBit s.fCfg ++ flagBit s.fParam ++ flagBit s.fRo ++ flagBit s.fRange ++
    flagBit s.fUnconf ++ flagBit s.fIllegal ++ 0#6 ++ flagBit s.cyc ++ flagBit s.cfgd

end Sys2Proof.Machine
end

