-- ==== Sys2Proof/Machine/Operands.lean ====
section
/-! DEFINITION. Operands: the derived quantities (41_stream_driver.md R140), the memory ids and depths
(20_memory.md R61), the register values (45_system.md R214) and the legality predicates (45_system.md
R218). -/

namespace Sys2Proof.Machine

/-- `N = 2^LOG2N` (00_scope.md R6). -/
def frameSize (s : State) : Nat := 2 ^ s.log2n.toNat

/-- `step = N / osamp` (41_stream_driver.md R140; log 16). -/
def hopSize (s : State) : Nat := frameSize s / s.osamp.toNat

/-- `L = N - step` (41_stream_driver.md R140). -/
def latency (s : State) : Nat := frameSize s - hopSize s

/-- The memory a SEL field names; none for the reserved ids 12 to 15 (10_state.md R30). -/
def memOfSel (sel : BitVec 4) : Option MemId :=
  match sel.toNat with
  | 0 => some .ws
  | 1 => some .infifo
  | 2 => some .outfifo
  | 3 => some .acc
  | 4 => some .lastph
  | 5 => some .sumph
  | 6 => some .anamag
  | 7 => some .anafrq
  | 8 => some .synmag
  | 9 => some .synfrq
  | 10 => some .win
  | 11 => some .tw
  | _ => none

/-- The memories that cannot be written (10_state.md R30). -/
def isRom : MemId → Bool
  | .win => true
  | .tw => true
  | .ws => false
  | .infifo => false
  | .outfifo => false
  | .acc => false
  | .lastph => false
  | .sumph => false
  | .anamag => false
  | .anafrq => false
  | .synmag => false
  | .synfrq => false

/-- The depth of a memory for the frame size `n` (20_memory.md R61). -/
def depthFor (n : Nat) : MemId → Nat
  | .ws => 2 * n
  | .infifo => n
  | .outfifo => n
  | .acc => 2 * n
  | .lastph => n / 2 + 1
  | .sumph => n / 2 + 1
  | .anamag => n
  | .anafrq => n
  | .synmag => n
  | .synfrq => n
  | .win => n
  | .tw => n

/-- The depth of a memory: 0 while `CFGD = 0` (20_memory.md R61). -/
def depth (s : State) (m : MemId) : Nat := if s.cfgd then depthFor (frameSize s) m else 0

/-- `legalPos(v)`: finite and greater than zero (45_system.md R218). -/
def legalPos (v : Word) : Bool := decide (1 ≤ v.toNat) && decide (v.toNat ≤ 0x7F7FFFFF)

/-- `legalOsamp(v, p)`: one of 1, 2, 4, 8, 16, 32 and at most `2^p` (45_system.md R218). -/
def legalOsamp (v p : Nat) : Bool := [1, 2, 4, 8, 16, 32].contains v && decide (v ≤ 2 ^ p)

/-- The largest exponent an OSAMP write is checked against: no bound from N before CONFIG
(45_system.md R215). -/
def osampExponent (s : State) : Nat := if s.cfgd then s.log2n.toNat else 31

/-- `value(REG)` for the register numbers 0 to 7 (45_system.md R214; 10_state.md R24, R28). -/
def regValue (s : State) (reg : Nat) : Word :=
  match reg with
  | 0 => statusWord s
  | 1 => s.log2n.setWidth 32
  | 2 => s.osamp.setWidth 32
  | 3 => s.srate
  | 4 => s.ratio
  | 5 => s.rover
  | 6 => if s.cfgd then BitVec.ofNat 32 (hopSize s) else 0#32
  | 7 => if s.cfgd then BitVec.ofNat 32 (latency s) else 0#32
  | _ => 0#32

end Sys2Proof.Machine
end

