-- ==== Sys2Proof/Machine/Ops.lean ====
section
/-! DEFINITION. The named operations over memories and registers, the loop of the rules' pseudocode, the
response, the error (the one exception this machine has), and what the host does between commands. -/

namespace Sys2Proof.Machine

/-! ### The loop `for k in lo .. lo + count - 1`, ascending (00_scope.md R12) -/

/-- Run `f lo`, `f (lo + 1)`, … , `count` times. -/
def loop {α : Type} (f : Nat → α → α) : (lo count : Nat) → α → α
  | _, 0, x => x
  | lo, count + 1, x => loop f (lo + 1) count (f lo x)

/-! ### One memory -/

/-- `M[i]`: the element at index `i`; +0.0 where nothing is listed (00_scope.md R12). -/
def Memory.read (m : Memory) (i : Nat) : Num := (m.lookup i).getD 0#32

/-- Put an element into its place in the rising order. -/
def insertCell (i : Nat) (v : Num) : Memory → Memory
  | [] => [(i, v)]
  | (k, a) :: rest => if i < k then (i, v) :: (k, a) :: rest else (k, a) :: insertCell i v rest

/-- `M[i] <- v` (00_scope.md R12). Writing +0.0 removes the entry. -/
def Memory.write (m : Memory) (i : Nat) (v : Num) : Memory :=
  let rest := m.filter (fun c => c.1 != i)
  if v = 0#32 then rest else insertCell i v rest

/-- The indices rise strictly, starting at `lo` or above, and no listed element is +0.0. -/
def wfFrom (lo : Nat) : Memory → Bool
  | [] => true
  | (k, a) :: rest => decide (lo ≤ k) && decide (a ≠ 0#32) && wfFrom (k + 1) rest

/-- The canonical form of a memory: strictly rising indices, no entry +0.0. -/
def Memory.wf (m : Memory) : Bool := wfFrom 0 m

/-- No element is listed at index `d` or above. -/
def Memory.within (m : Memory) (d : Nat) : Bool := m.all (fun c => decide (c.1 < d))

/-- The memory with `f k` at each index `k` of `lo .. lo + count - 1`. -/
def tabulateFrom (f : Nat → Num) : (lo count : Nat) → Memory
  | _, 0 => []
  | lo, count + 1 =>
    if f lo = 0#32 then tabulateFrom f (lo + 1) count
    else (lo, f lo) :: tabulateFrom f (lo + 1) count

/-- The memory of depth `n` with `f k` at index `k`: a ROM. -/
def tabulate (f : Nat → Num) (n : Nat) : Memory := tabulateFrom f 0 n

/-! ### The memories of a state -/

/-- The memory with a given id (10_state.md R30). -/
def State.mem (s : State) : MemId → Memory
  | .ws => s.ws
  | .infifo => s.infifo
  | .outfifo => s.outfifo
  | .acc => s.acc
  | .lastph => s.lastph
  | .sumph => s.sumph
  | .anamag => s.anamag
  | .anafrq => s.anafrq
  | .synmag => s.synmag
  | .synfrq => s.synfrq
  | .win => s.win
  | .tw => s.tw

/-- The state with one memory replaced. -/
def State.setMem (s : State) (m : MemId) (x : Memory) : State :=
  match m with
  | .ws => { s with ws := x }
  | .infifo => { s with infifo := x }
  | .outfifo => { s with outfifo := x }
  | .acc => { s with acc := x }
  | .lastph => { s with lastph := x }
  | .sumph => { s with sumph := x }
  | .anamag => { s with anamag := x }
  | .anafrq => { s with anafrq := x }
  | .synmag => { s with synmag := x }
  | .synfrq => { s with synfrq := x }
  | .win => { s with win := x }
  | .tw => { s with tw := x }

/-- `MemRead(m, i)` (20_memory.md R66). -/
def memRead (s : State) (m : MemId) (i : Nat) : Num := (s.mem m).read i

/-- `MemWrite(m, i, v)` (20_memory.md R66). -/
def memWrite (s : State) (m : MemId) (i : Nat) (v : Num) : State := s.setMem m ((s.mem m).write i v)

/-! ### The end of a command -/

/-- `respond(v)`: code OK and read data `v` (00_scope.md R12). -/
def respond (v : Word) (s : State) : Result := .next { s with resp := some ⟨okCode, v⟩ }

/-- `raise E_X`: the whole effect of an error. The response carries the code and read data 0, the sticky
flag of the code is set, nothing else changes (60_exceptions.md R244). There is no trap entry, no saved
state and no return (R248, R249). -/
def raise (e : Err) (s : State) : Result :=
  .next { setSticky e s with resp := some ⟨errCode e, 0#32⟩ }

/-- `if CFGD = 0 : raise E_UNCONF`, then the rest of the command. -/
def ifConfigured (s : State) (r : Result) : Result := if s.cfgd then r else raise .unconf s

/-! ### The host -/

/-- The reset state, the host's future unchanged (10_state.md R40). -/
def resetKeepingHost (s : State) : State := { State.reset with host := s.host }

/-- Hardware reset between two transactions (70_reset_and_hazards.md R270; log 14). -/
def hardReset (s : State) : Result := .next (resetKeepingHost s)

/-- The next thing the host does, and the state with it taken off the list (log 1). -/
def takeEvent (s : State) : Option (HostEvent × State) :=
  match s.host with
  | [] => none
  | e :: rest => some (e, { s with host := rest })

/-- The state in which the host's next act is the given request. -/
def withRequest (s : State) (cmd wdata : Word) : State :=
  { s with host := .request cmd wdata :: s.host }

end Sys2Proof.Machine
end

