-- ==== Sys2Proof/Machine/Transform.lean ====
section
/-! DEFINITION. The transform family (40_transform.md): the internal procedure `Transform` and the command
FFT. The butterfly network is written once over an arithmetic and a store, so that it can be run on Num in
a memory, as the engine does, and on exact real numbers, as 00_scope.md R11 admits. -/

namespace Sys2Proof.Machine

/-- The four operations a butterfly uses. -/
structure Arith (α : Type) where
  add : α → α → α
  sub : α → α → α
  mul : α → α → α
  neg : α → α

/-- A store of elements addressed by index. -/
structure Store (σ α : Type) where
  read : σ → Nat → α
  write : σ → Nat → α → σ

/-- binary32 arithmetic (00_scope.md R10). -/
def numArith (nm : Numerics) : Arith Num where
  add := numAdd nm
  sub := numSub nm
  mul := numMul nm
  neg := numNeg

/-- A memory of the engine as a store. -/
def memStore : Store Memory Num where
  read := Memory.read
  write := Memory.write

/-- `bitrev_p(i)` (00_scope.md R8). -/
def bitrev : (p i : Nat) → Nat
  | 0, _ => 0
  | p + 1, i => i % 2 * 2 ^ p + bitrev p (i / 2)

/-- `swap WS[a] with WS[b]`, bit patterns unchanged (40_transform.md R120). -/
def swapElems {σ α : Type} (S : Store σ α) (a b : Nat) (ws : σ) : σ :=
  S.write (S.write ws a (S.read ws b)) b (S.read ws a)

/-- Phase 1 of `Transform(p, _)`: the bit-reversal permutation of pairs (40_transform.md R120). -/
def bitReversePairs {σ α : Type} (S : Store σ α) (p : Nat) (ws : σ) : σ :=
  loop (fun i ws =>
      let j := bitrev p i
      if i < j then swapElems S (2 * i + 1) (2 * j + 1) (swapElems S (2 * i) (2 * j) ws) else ws)
    1 (2 ^ p - 2) ws

/-- One butterfly on the pairs `a` and `d` with twiddle `(wr, wi)` (40_transform.md R120): four reads,
then four writes. -/
def butterfly {σ α : Type} (A : Arith α) (S : Store σ α) (wr wi : α) (a d : Nat) (ws : σ) : σ :=
  let ar := S.read ws (2 * a)
  let ai := S.read ws (2 * a + 1)
  let dr := S.read ws (2 * d)
  let di := S.read ws (2 * d + 1)
  let tr := A.sub (A.mul dr wr) (A.mul di wi)
  let ti := A.add (A.mul dr wi) (A.mul di wr)
  let ws := S.write ws (2 * d) (A.sub ar tr)
  let ws := S.write ws (2 * d + 1) (A.sub ai ti)
  let ws := S.write ws (2 * a) (A.add ar tr)
  S.write ws (2 * a + 1) (A.add ai ti)

/-- The imaginary part of the twiddle: negated in the forward direction (40_transform.md R120). -/
def twiddleIm {α : Type} (A : Arith α) (dir : Dir) (x : α) : α :=
  match dir with
  | .fwd => A.neg x
  | .inv => x

/-- Stage `t` of phase 2, span `m = 2^t`, in a transform of `2^p` pairs with the ROM of frame size
`2^log2n` (40_transform.md R120). -/
def butterflyStage {σ α : Type} (A : Arith α) (S : Store σ α) (tw : Nat → α) (log2n p : Nat) (dir : Dir)
    (t : Nat) (ws : σ) : σ :=
  let m := 2 ^ t
  let h := m / 2
  loop (fun j ws =>
      let q := j * (2 ^ log2n / m)
      let wr := tw (2 * q)
      let wi := twiddleIm A dir (tw (2 * q + 1))
      loop (fun c ws => butterfly A S wr wi (c * m + j) (c * m + j + h) ws) 0 (2 ^ p / m) ws)
    0 h ws

/-- `Transform(p, dir)` over any arithmetic and store (40_transform.md R120). -/
def network {σ α : Type} (A : Arith α) (S : Store σ α) (tw : Nat → α) (log2n p : Nat) (dir : Dir)
    (ws : σ) : σ :=
  loop (butterflyStage A S tw log2n p dir) 1 p (bitReversePairs S p ws)

/-- `Transform(p, dir)` of the engine: on the workspace, with the ROM (40_transform.md R120). -/
def transform (nm : Numerics) (p : Nat) (dir : Dir) (s : State) : State :=
  { s with ws := network (numArith nm) memStore s.tw.read s.log2n.toNat p dir s.ws }

/-- FFT p, dir (40_transform.md R121). -/
def execFft (p : BitVec 5) (dir : Dir) (s : State) : Result :=
  ifConfigured s
    (if p.toNat > s.log2n.toNat then raise .range s
     else respond 0#32 (transform Config.numerics p.toNat dir s))

end Sys2Proof.Machine
end

