-- ==== Sys2Proof/Machine/Analyzer.lean ====
section
/-! DEFINITION. The analyzer family (42_analyzer.md): the procedure `Analyze`, the fold, and the command
ANALYZE. -/

namespace Sys2Proof.Machine

/-- `expct`, the expected phase advance per hop of bin 1 (42_analyzer.md R164). -/
def hopPhase (nm : Numerics) (s : State) : Num :=
  numDiv nm (numMul nm numTwoPi (numOfNat (hopSize s))) (numOfNat (frameSize s))

/-- `fpb`, the frequency per bin (42_analyzer.md R164). -/
def freqPerBin (nm : Numerics) (s : State) : Num := numDiv nm s.srate (numOfNat (frameSize s))

/-- `par`: 1 if `q` is finite and an odd integer, else 0 (42_analyzer.md R166). -/
def foldParity (q : Num) : Nat := if isFin q && decide (numFloorInt q % 2 = 1) then 1 else 0

/-- `Fold(t)`, the phase-difference fold (42_analyzer.md R166; 90_conflicts.md C1). -/
def fold (nm : Numerics) (t : Num) : Num :=
  let q := numFloor nm (numDiv nm t numPi)
  let par := numOfNat (foldParity q)
  let q2 := if numGe q (numOfNat 0) then numAdd nm q par else numSub nm q par
  numSub nm t (numMul nm numPi q2)

/-- `magn` of a bin (42_analyzer.md R165). -/
def binMagnitude (nm : Numerics) (re im : Num) : Num :=
  numMul nm (numOfNat 2) (numSqrt nm (numAdd nm (numMul nm re re) (numMul nm im im)))

/-- The true frequency of bin `k` from its phase and the phase of the previous cycle
(42_analyzer.md R165). -/
def binFrequency (nm : Numerics) (s : State) (k : Nat) (phase last : Num) : Num :=
  let tmp := numSub nm phase last
  let tmp := numSub nm tmp (numMul nm (numOfNat k) (hopPhase nm s))
  let tmp := fold nm tmp
  let tmp := numDiv nm (numMul nm (numOfNat s.osamp.toNat) tmp) numTwoPi
  numAdd nm (numMul nm (numOfNat k) (freqPerBin nm s)) (numMul nm tmp (freqPerBin nm s))

/-- Step 1 of `Analyze`: window the frame into the workspace, imaginary parts +0.0 (42_analyzer.md R162). -/
def windowFrame (nm : Numerics) (s : State) : State :=
  loop (fun k s =>
      { s with ws := (s.ws.write (2 * k) (numMul nm (s.infifo.read k) (s.win.read k))).write
                  (2 * k + 1) numZero })
    0 (frameSize s) s

/-- Step 4 of `Analyze`, bin `k` (42_analyzer.md R165). -/
def analyzeBin (nm : Numerics) (k : Nat) (s : State) : State :=
  let re := s.ws.read (2 * k)
  let im := s.ws.read (2 * k + 1)
  let phase := numAtan2 nm im re
  { s with
    lastph := s.lastph.write k phase
    anamag := s.anamag.write k (binMagnitude nm re im)
    anafrq := s.anafrq.write k (binFrequency nm s k phase (s.lastph.read k)) }

/-- Step 4 of `Analyze` for every bin `0 .. N/2`, ascending (42_analyzer.md R165). -/
def analyzeBins (nm : Numerics) (s : State) : State :=
  loop (analyzeBin nm) 0 (frameSize s / 2 + 1) s

/-- `Analyze()` (42_analyzer.md R162 to R166). -/
def analyze (nm : Numerics) (s : State) : State :=
  analyzeBins nm (transform nm s.log2n.toNat .fwd (windowFrame nm s))

/-- ANALYZE (42_analyzer.md R161). -/
def execAnalyze (s : State) : Result := ifConfigured s (respond 0#32 (analyze Config.numerics s))

end Sys2Proof.Machine
end

