-- ==== Sys2Proof/Machine/Remapper.lean ====
section
/-! DEFINITION. The remapper family (43_remapper.md): the procedure `Remap` and the command REMAP. -/

namespace Sys2Proof.Machine

/-- `d = floorN(num(k) ⊗ RATIO)`, the destination of source bin `k` as a Num (43_remapper.md R182). -/
def destNum (nm : Numerics) (ratio : Num) (k : Nat) : Num :=
  numFloor nm (numMul nm (numOfNat k) ratio)

/-- The destination bin of source bin `k`, if it is not discarded: `half` is `N/2`
(43_remapper.md R182). -/
def destBin (nm : Numerics) (ratio : Num) (half k : Nat) : Option Nat :=
  if numLe (destNum nm ratio k) (numOfNat half) then some (numFloorInt (destNum nm ratio k)).toNat
  else none

/-- Clear SYNMAG and SYNFRQ, all N entries (43_remapper.md R182). -/
def clearSynthesis (s : State) : State :=
  loop (fun i s => { s with synmag := s.synmag.write i numZero, synfrq := s.synfrq.write i numZero })
    0 (frameSize s) s

/-- Source bin `k`: the magnitude is added, the frequency overwritten (43_remapper.md R182). -/
def remapBin (nm : Numerics) (k : Nat) (s : State) : State :=
  (destBin nm s.ratio (frameSize s / 2) k).elim s fun d =>
    { s with
      synmag := s.synmag.write d (numAdd nm (s.synmag.read d) (s.anamag.read k))
      synfrq := s.synfrq.write d (numMul nm (s.anafrq.read k) s.ratio) }

/-- `Remap()` (43_remapper.md R182): source bins in ascending order. -/
def remap (nm : Numerics) (s : State) : State :=
  loop (remapBin nm) 0 (frameSize s / 2 + 1) (clearSynthesis s)

/-- REMAP (43_remapper.md R181). -/
def execRemap (s : State) : Result := ifConfigured s (respond 0#32 (remap Config.numerics s))

end Sys2Proof.Machine
end

