-- ==== Sys2Proof/Machine/SynthOla.lean ====
section
/-! DEFINITION. The synthesizer and overlap-add family (44_synth_ola.md): the procedures `Synth` and `Ola`
and the commands SYNTH and OLA. -/

namespace Sys2Proof.Machine

/-- What one cycle adds to the phase accumulator of bin `k` (44_synth_ola.md R191). -/
def phaseIncrement (nm : Numerics) (s : State) (k : Nat) : Num :=
  let tmp := numSub nm (s.synfrq.read k) (numMul nm (numOfNat k) (freqPerBin nm s))
  let tmp := numDiv nm tmp (freqPerBin nm s)
  let tmp := numDiv nm (numMul nm numTwoPi tmp) (numOfNat s.osamp.toNat)
  numAdd nm tmp (numMul nm (numOfNat k) (hopPhase nm s))

/-- Step 1 of `Synth`, bin `k` (44_synth_ola.md R191). -/
def synthBin (nm : Numerics) (k : Nat) (s : State) : State :=
  let magn := s.synmag.read k
  let phase := numAdd nm (s.sumph.read k) (phaseIncrement nm s k)
  { s with
    sumph := s.sumph.write k phase
    ws := (s.ws.write (2 * k) (numMul nm magn (numCos nm phase))).write (2 * k + 1)
      (numMul nm magn (numSin nm phase)) }

/-- Step 2 of `Synth`: zero the mirror region, elements `N+2 .. 2N-1` (44_synth_ola.md R192). -/
def zeroMirror (s : State) : State :=
  loop (fun i s => { s with ws := s.ws.write i numZero }) (frameSize s + 2)
    (2 * frameSize s - (frameSize s + 2)) s

/-- `Synth()` (44_synth_ola.md R191 to R193). -/
def synthesize (nm : Numerics) (s : State) : State :=
  transform nm s.log2n.toNat .inv
    (zeroMirror (loop (synthBin nm) 0 (frameSize s / 2 + 1) s))

/-- SYNTH (44_synth_ola.md R190). -/
def execSynth (s : State) : Result := ifConfigured s (respond 0#32 (synthesize Config.numerics s))

/-- What the frame adds to `ACC[k]`: windowed and scaled real part of sample `k`, with
`den = num((N/2)·osamp)` (44_synth_ola.md R196). -/
def olaContribution (nm : Numerics) (s : State) (k : Nat) : Num :=
  numDiv nm (numMul nm (numMul nm (numOfNat 2) (s.win.read k)) (s.ws.read (2 * k)))
    (numOfNat (frameSize s / 2 * s.osamp.toNat))

/-- Step 1 of `Ola`: accumulation into `ACC[0 .. N-1]` (44_synth_ola.md R196). -/
def olaAccumulate (nm : Numerics) (s : State) : State :=
  loop (fun k s => { s with acc := s.acc.write k (numAdd nm (s.acc.read k) (olaContribution nm s k)) })
    0 (frameSize s) s

/-- Step 2 of `Ola`: emission of the first `step` elements (44_synth_ola.md R197). -/
def olaEmit (s : State) : State :=
  loop (fun k s => { s with outfifo := s.outfifo.write k (s.acc.read k) }) 0 (hopSize s) s

/-- Step 3 of `Ola`: shift the accumulator left by `step` and zero the top (44_synth_ola.md R198). -/
def olaShiftAcc (s : State) : State :=
  let moved := loop (fun i t => { t with acc := t.acc.write i (t.acc.read (i + hopSize s)) })
    0 (2 * frameSize s - hopSize s) s
  loop (fun i t => { t with acc := t.acc.write i numZero }) (2 * frameSize s - hopSize s) (hopSize s)
    moved

/-- Step 4 of `Ola`: shift the input buffer left by `step` (44_synth_ola.md R199). -/
def olaShiftInput (s : State) : State :=
  loop (fun k t => { t with infifo := t.infifo.write k (t.infifo.read (k + hopSize s)) }) 0 (latency s) s

/-- `Ola()` (44_synth_ola.md R196 to R199). -/
def overlapAdd (nm : Numerics) (s : State) : State :=
  olaShiftInput (olaShiftAcc (olaEmit (olaAccumulate nm s)))

/-- OLA (44_synth_ola.md R195). -/
def execOla (s : State) : Result := ifConfigured s (respond 0#32 (overlapAdd Config.numerics s))

end Sys2Proof.Machine
end

