-- ==== Sys2Proof/Machine/Stream.lean ====
section
/-! DEFINITION. The stream-driver family (41_stream_driver.md): the cycle and the commands PUSH and
CYCLE. -/

namespace Sys2Proof.Machine

/-- `Cycle()`: the four stage procedures back to back (41_stream_driver.md R141). -/
def cycle (nm : Numerics) (s : State) : State := overlapAdd nm (synthesize nm (remap nm (analyze nm s)))

/-- The element of OUTFIFO that a PUSH returns: `(r - L) mod N`, Euclidean (41_stream_driver.md R143;
00_scope.md R8). -/
def outIndex (s : State) : Nat := (((s.rover.toNat : Int) - (latency s : Int)) % (frameSize s : Int)).toNat

/-- PUSH on a configured engine, but for the response (41_stream_driver.md R143): store the sample,
advance the cursor, and at the end of a hop run a cycle. -/
def pushSample (nm : Numerics) (v : Word) (s : State) : State :=
  let r := s.rover.toNat
  let t := { s with infifo := s.infifo.write r v }
  if r + 1 ≥ frameSize s then
    { cycle nm { t with rover := BitVec.ofNat 32 (latency s) } with cyc := true }
  else { t with rover := BitVec.ofNat 32 (r + 1), cyc := false }

/-- PUSH value (41_stream_driver.md R143). The response is read before any cycle of this command runs. -/
def execPush (wdata : Word) (s : State) : Result :=
  ifConfigured s (respond (s.outfifo.read (outIndex s)) (pushSample Config.numerics wdata s))

/-- CYCLE (41_stream_driver.md R145). -/
def execCycle (s : State) : Result :=
  ifConfigured s (respond 0#32 { cycle Config.numerics s with cyc := true })

end Sys2Proof.Machine
end

