-- ==== Sys2Proof/Machine/System.lean ====
section
/-! DEFINITION. The system family (45_system.md): NOP, RESET, CLRERR, CONFIG, RDREG, WRREG, RDMEM, WRMEM. -/

namespace Sys2Proof.Machine

/-- NOP (45_system.md R210). -/
def execNop (s : State) : Result := respond 0#32 s

/-- RESET (45_system.md R211). -/
def execReset (s : State) : Result := respond 0#32 (resetKeepingHost s)

/-- CLRERR (45_system.md R212). -/
def execClrerr (s : State) : Result := respond 0#32 (clearSticky s)

/-- The window ROM of frame size `n` (10_state.md R37). -/
def winRom (n : Nat) : Memory := tabulate (winConst n) n

/-- The twiddle ROM of frame size `n` (10_state.md R38). -/
def twRom (n : Nat) : Memory := tabulate (twConst n) n

/-- May CONFIG accept the exponent `p` in an instance whose largest exponent is `pmax`
(45_system.md R213)? -/
def configLegal (pmax p : Nat) (s : State) : Bool :=
  legalOsamp s.osamp.toNat p && legalPos s.srate && decide (1 ≤ p) && decide (p ≤ pmax)

/-- The effect of a successful CONFIG (45_system.md R213; 10_state.md R41): every RAM all +0.0 at its new
depth, the ROMs built, ROVER primed. -/
def configure (p : BitVec 5) (s : State) : State :=
  { s with
    log2n := p
    ws := []
    infifo := []
    outfifo := []
    acc := []
    lastph := []
    sumph := []
    anamag := []
    anafrq := []
    synmag := []
    synfrq := []
    win := winRom (2 ^ p.toNat)
    tw := twRom (2 ^ p.toNat)
    rover := BitVec.ofNat 32 (2 ^ p.toNat - 2 ^ p.toNat / s.osamp.toNat)
    cfgd := true
    cyc := false }

/-- CONFIG p in an instance whose largest exponent is `pmax` (45_system.md R213). -/
def configCommand (pmax : Nat) (p : BitVec 5) (s : State) : Result :=
  if configLegal pmax p.toNat s then respond 0#32 (configure p s) else raise .cfg s

/-- CONFIG p (45_system.md R213). -/
def execConfig (p : BitVec 5) (s : State) : Result := configCommand Config.log2nMax p s

/-- RDREG reg (45_system.md R214). -/
def execRdreg (reg : BitVec 24) (s : State) : Result :=
  if reg.toNat > 7 then raise .range s else respond (regValue s reg.toNat) s

/-- WRREG to OSAMP (45_system.md R215). -/
def writeOsamp (wdata : Word) (s : State) : Result :=
  if legalOsamp wdata.toNat (osampExponent s) then
    respond 0#32 { s with osamp := wdata.extractLsb' 0 6 }
  else raise .param s

/-- WRREG to SRATE (45_system.md R215). -/
def writeSrate (wdata : Word) (s : State) : Result :=
  if legalPos wdata then respond 0#32 { s with srate := wdata } else raise .param s

/-- WRREG to RATIO (45_system.md R215). -/
def writeRatio (wdata : Word) (s : State) : Result :=
  if legalPos wdata then respond 0#32 { s with ratio := wdata } else raise .param s

/-- WRREG reg, value (45_system.md R215): range, then read-only, then the value. -/
def execWrreg (reg : BitVec 24) (wdata : Word) (s : State) : Result :=
  match reg.toNat with
  | 0 => raise .ro s
  | 1 => raise .ro s
  | 2 => writeOsamp wdata s
  | 3 => writeSrate wdata s
  | 4 => writeRatio wdata s
  | 5 => raise .ro s
  | 6 => raise .ro s
  | 7 => raise .ro s
  | _ => raise .range s

/-- RDMEM mem[i] (45_system.md R216), the failures in the order of 60_exceptions.md R246. -/
def execRdmem (mem : BitVec 4) (idx : BitVec 24) (s : State) : Result :=
  match memOfSel mem with
  | none => raise .illegal s
  | some m =>
    ifConfigured s
      (if idx.toNat ≥ depth s m then raise .range s else respond (memRead s m idx.toNat) s)

/-- WRMEM mem[i], value (45_system.md R217), the failures in the order of 60_exceptions.md R246. -/
def execWrmem (mem : BitVec 4) (idx : BitVec 24) (wdata : Word) (s : State) : Result :=
  match memOfSel mem with
  | none => raise .illegal s
  | some m =>
    ifConfigured s
      (if idx.toNat ≥ depth s m then raise .range s
       else if isRom m then raise .ro s
       else respond 0#32 (memWrite s m idx.toNat wdata))

end Sys2Proof.Machine
end

