-- ==== Sys2Proof/Machine/Dispatch.lean ====
section
/-! DEFINITION. One arm per constructor of Instr: each command's meaning. -/

namespace Sys2Proof.Machine

def exec (i : Instr) (s : State) : Host.Outcome State Fault Refusal :=
  match i with
  | .nop => Sys2Proof.Machine.execNop s
  | .reset => Sys2Proof.Machine.execReset s
  | .config p => Sys2Proof.Machine.execConfig p s
  | .wrreg reg wdata => Sys2Proof.Machine.execWrreg reg wdata s
  | .rdreg reg => Sys2Proof.Machine.execRdreg reg s
  | .wrmem mem idx wdata => Sys2Proof.Machine.execWrmem mem idx wdata s
  | .rdmem mem idx => Sys2Proof.Machine.execRdmem mem idx s
  | .fft p dir => Sys2Proof.Machine.execFft p dir s
  | .push wdata => Sys2Proof.Machine.execPush wdata s
  | .analyze => Sys2Proof.Machine.execAnalyze s
  | .remap => Sys2Proof.Machine.execRemap s
  | .synth => Sys2Proof.Machine.execSynth s
  | .ola => Sys2Proof.Machine.execOla s
  | .cycle => Sys2Proof.Machine.execCycle s
  | .clrerr => Sys2Proof.Machine.execClrerr s

end Sys2Proof.Machine
end

