-- ==== Sys2Proof/Machine/Step.lean ====
section
/-! DEFINITION. One step of the machine: the next thing the host does (00_scope.md R5; log 1). -/

namespace Sys2Proof.Machine

/-- One step. A request is decoded and executed; an illegal word answers E_ILLEGAL (30_encoding.md R99).
With nothing left for the host to do the engine holds its state (60_exceptions.md R258). -/
def step (s : State) : Host.Outcome State Fault Refusal :=
  match takeEvent s with
  | none => .next s
  | some (.request cmd wdata, t) =>
    match decode cmd wdata with
    | .ok i => exec i t
    | .error _ => raise .illegal t
  | some (.hardReset, t) => hardReset t
  | some (.violation, _) => .fault .hostProtocolViolation

/-- The state whose next step takes the command with bits `w` (data word above bit 31): the host's next
act is that request (log 1, log 3). -/
def State.withFetchWord (s : State) (nbits w : Nat) : State :=
  withRequest s (tableRequest nbits w).1 (tableRequest nbits w).2

end Sys2Proof.Machine
end

