-- ==== Sys2Proof/Machine/Assembler.lean ====
section
/-! DEFINITION. The textual form of commands and the pseudo-instructions (30_encoding.md R101, R102). A line
of text becomes the commands it stands for, in order; `runCommands` issues them. -/

namespace Sys2Proof.Machine

/-! ### Pseudo-instructions (30_encoding.md R102) -/

/-- `SETUP p, osamp, srate` -/
def setupCommands (p : BitVec 5) (osamp srate : Word) : List Instr :=
  [.wrreg 2#24 osamp, .wrreg 3#24 srate, .config p]

/-- `SETRATIO r` -/
def setratioCommands (r : Word) : List Instr := [.wrreg 4#24 r]

/-- `CHUNK v0, v1, ...` -/
def chunkCommands (vs : List Word) : List Instr := vs.map .push

/-- `LOADC j, re, im`. DESIGN CHOICE (log 18): the spec does not say what a pair `j ≥ 2^23` becomes, whose
indices the 24 bits of IDX cannot hold. Here they are taken modulo 2^24; no line of text gives such a pair. -/
def loadcCommands (j : Nat) (re im : Word) : List Instr :=
  [.wrmem 0#4 (BitVec.ofNat 24 (2 * j)) re, .wrmem 0#4 (BitVec.ofNat 24 (2 * j + 1)) im]

/-- `READC j`, with indices modulo 2^24 as in `loadcCommands` (log 18) -/
def readcCommands (j : Nat) : List Instr :=
  [.rdmem 0#4 (BitVec.ofNat 24 (2 * j)), .rdmem 0#4 (BitVec.ofNat 24 (2 * j + 1))]

/-- `LOADC` for the pairs `j`, `j + 1`, … in index order -/
def loadPairs (j : Nat) : List (Word × Word) → List Instr
  | [] => []
  | (re, im) :: rest => loadcCommands j re im ++ loadPairs (j + 1) rest

/-- `TRANSFORM p, dir, (re0, im0), ...` with as many pairs as are listed. DESIGN CHOICE (log 18): with more
than 2^23 pairs, `p ≥ 24`, the later indices do not fit IDX and are taken modulo 2^24, of which the spec says
nothing. In a reachable state `runCommands` issues none of them: an earlier index beyond WS is refused. -/
def transformCommands (p : BitVec 5) (dir : Dir) (pairs : List (Word × Word)) : List Instr :=
  loadPairs 0 pairs ++ [.fft p dir] ++ ((List.range pairs.length).map readcCommands).flatten

/-- Issue commands one after another, stopping after the first response that is not OK
(30_encoding.md R102): the state reached and the responses in order. A stop of the machine itself, which
no command causes, ends the list with no response. -/
def runCommands : List Instr → State → State × List Response
  | [], s => (s, [])
  | i :: rest, s =>
    match exec i s with
    | .next t =>
      match t.resp with
      | some r =>
        if r.code = okCode then ((runCommands rest t).1, r :: (runCommands rest t).2) else (t, [r])
      | none => (t, [])
    | .fault _ => (s, [])
    | .refused _ => (s, [])

/-! ### Words of a line -/

/-- The tokens of a line. -/
inductive Token where
  | word (w : String)
  | comma
  | openBracket
  | closeBracket
  | openParen
  | closeParen
  | arrow
  deriving DecidableEq, Repr

/-- The tokens of a line, with any white space between them (log 17), `w` being the characters of the word read so far, last first. `;` starts a
comment (30_encoding.md R101). -/
def tokens (w : List Char) : List Char → List Token
  | [] => endWord w []
  | '-' :: '>' :: rest => endWord w (.arrow :: tokens [] rest)
  | c :: rest =>
    if c = ';' then endWord w []
    else if c = ',' then endWord w (.comma :: tokens [] rest)
    else if c = '[' then endWord w (.openBracket :: tokens [] rest)
    else if c = ']' then endWord w (.closeBracket :: tokens [] rest)
    else if c = '(' then endWord w (.openParen :: tokens [] rest)
    else if c = ')' then endWord w (.closeParen :: tokens [] rest)
    else if c.isWhitespace then endWord w (tokens [] rest)
    else tokens (c :: w) rest
where
  /-- Put the word read so far, if there is one, before the tokens that follow. -/
  endWord (w : List Char) (rest : List Token) : List Token :=
    if w.isEmpty then rest else .word (String.ofList w.reverse) :: rest

/-! ### Literals (30_encoding.md R101) -/

/-- The value of one digit in the given base, 10 or 16. -/
def digitValue (base : Nat) (c : Char) : Option Nat :=
  let v := if c.isDigit then some (c.toNat - '0'.toNat)
    else if 'a' ≤ c ∧ c ≤ 'f' then some (c.toNat - 'a'.toNat + 10)
    else if 'A' ≤ c ∧ c ≤ 'F' then some (c.toNat - 'A'.toNat + 10)
    else none
  v.filter (· < base)

/-- The digits of a number, most significant first, continuing from `acc`. -/
def digitsFrom (base acc : Nat) : List Char → Option Nat
  | [] => some acc
  | c :: rest => (digitValue base c).bind fun d => digitsFrom base (acc * base + d) rest

/-- A number of at least one digit. -/
def digits (base : Nat) (cs : List Char) : Option Nat := if cs.isEmpty then none else digitsFrom base 0 cs

/-- An integer literal: decimal or `0x` hexadecimal. -/
def integerLiteral (w : String) : Option Nat :=
  match w.toList with
  | '0' :: 'x' :: rest => digits 16 rest
  | cs => digits 10 cs

/-- The digits before and after the decimal point, and how many stand after it. -/
def decimalParts (cs : List Char) : Option (Nat × Nat) :=
  let whole := cs.takeWhile (· ≠ '.')
  let frac := (cs.dropWhile (· ≠ '.')).drop 1
  (digits 10 whole).bind fun a => (digitsFrom 10 a frac).map fun v => (v, frac.length)

/-- A decimal real, rounded to the nearest binary32, ties to even. -/
def decimalLiteral (neg : Bool) (cs : List Char) : Option Word :=
  (decimalParts cs).map fun (v, k) => packNum neg (roundMag (v * 2 ^ 149) (10 ^ k))

/-- A Num literal: a decimal real, `0x` and eight hex digits, `nan`, `inf` or `-inf`. -/
def numLiteral (w : String) : Option Word :=
  if w = "nan" then some 0x7FC00000#32
  else if w = "inf" then some 0x7F800000#32
  else if w = "-inf" then some 0xFF800000#32
  else
    match w.toList with
    | '0' :: 'x' :: rest => if rest.length = 8 then (digits 16 rest).map (BitVec.ofNat 32) else none
    | '-' :: rest => decimalLiteral true rest
    | cs => decimalLiteral false cs

/-- An integer that fits into a field of `n` bits. -/
def fieldLiteral (n : Nat) (w : String) : Option (BitVec n) :=
  ((integerLiteral w).filter (· < 2 ^ n)).map (BitVec.ofNat n)

/-- A register: its name (10_state.md R24) or its number. -/
def registerOperand (w : String) : Option (BitVec 24) :=
  match ["STATUS", "LOG2N", "OSAMP", "SRATE", "RATIO", "ROVER", "STEP", "LATENCY"].idxOf? w with
  | some n => some (BitVec.ofNat 24 n)
  | none => fieldLiteral 24 w

/-- A memory: its name (10_state.md R30) or its id. DESIGN CHOICE (log 17): a reserved id, 12 to 15, may
stand here too, and the line then has the illegal word of that id (R99). The spec does not say whether an
id that names no memory may be written. -/
def memoryOperand (w : String) : Option (BitVec 4) :=
  match ["WS", "INFIFO", "OUTFIFO", "ACC", "LASTPH", "SUMPH", "ANAMAG", "ANAFRQ", "SYNMAG", "SYNFRQ",
      "WIN", "TW"].idxOf? w with
  | some n => some (BitVec.ofNat 4 n)
  | none => fieldLiteral 4 w

/-- The value of a WRREG: a Num literal for SRATE and RATIO, an integer for OSAMP; for a register that
refuses every write, either (log 17). -/
def registerValue (reg : BitVec 24) (w : String) : Option Word :=
  if reg = 3#24 ∨ reg = 4#24 then numLiteral w
  else if reg = 2#24 then fieldLiteral 32 w
  else (fieldLiteral 32 w).orElse fun _ => numLiteral w

def directionOperand (w : String) : Option Dir :=
  if w = "FWD" then some .fwd else if w = "INV" then some .inv else none

/-! ### Lines -/

/-- `v0, v1, ..., vm-1`, at least one value (log 17) -/
def valueList : List Token → Option (List Word)
  | [.word v] => (numLiteral v).map ([·])
  | .word v :: .comma :: rest => (numLiteral v).bind fun x => (valueList rest).map (x :: ·)
  | _ => none

/-- `, (re0, im0), ..., (re(n-1), im(n-1))` -/
def pairList : List Token → Option (List (Word × Word))
  | [] => some []
  | .comma :: .openParen :: .word a :: .comma :: .word b :: .closeParen :: rest =>
    (numLiteral a).bind fun x => (numLiteral b).bind fun y => (pairList rest).map ((x, y) :: ·)
  | _ => none

/-- The commands of a line whose mnemonic, in capitals, is `m` and whose operands are `ops`. An operand that
does not fit its field makes it no line (log 17), nor is a LOADC, READC or TRANSFORM line one that needs an
index of WS beyond the 24 bits of IDX (log 18). -/
def lineCommands (m : String) (ops : List Token) : Option (List Instr) :=
  match m, ops with
  | "NOP", [] => some [.nop]
  | "RESET", [] => some [.reset]
  | "CONFIG", [.word p] => (fieldLiteral 5 p).map fun p => [.config p]
  | "WRREG", [.word r, .comma, .word v] =>
    (registerOperand r).bind fun r => (registerValue r v).map fun v => [.wrreg r v]
  | "RDREG", [.word r] => (registerOperand r).map fun r => [.rdreg r]
  | "WRMEM", [.word m, .openBracket, .word i, .closeBracket, .comma, .word v] =>
    (memoryOperand m).bind fun m => (fieldLiteral 24 i).bind fun i =>
      (numLiteral v).map fun v => [.wrmem m i v]
  | "RDMEM", [.word m, .openBracket, .word i, .closeBracket] =>
    (memoryOperand m).bind fun m => (fieldLiteral 24 i).map fun i => [.rdmem m i]
  | "FFT", [.word p, .comma, .word d] =>
    (fieldLiteral 5 p).bind fun p => (directionOperand d).map fun d => [.fft p d]
  | "PUSH", [.word v] => (numLiteral v).map fun v => [.push v]
  | "ANALYZE", [] => some [.analyze]
  | "REMAP", [] => some [.remap]
  | "SYNTH", [] => some [.synth]
  | "OLA", [] => some [.ola]
  | "CYCLE", [] => some [.cycle]
  | "CLRERR", [] => some [.clrerr]
  | "SETUP", [.word p, .comma, .word o, .comma, .word r] =>
    (fieldLiteral 5 p).bind fun p => (fieldLiteral 32 o).bind fun o =>
      (numLiteral r).map fun r => setupCommands p o r
  | "SETRATIO", [.word r] => (numLiteral r).map setratioCommands
  | "CHUNK", ops => (valueList ops).map chunkCommands
  | "LOADC", [.word j, .comma, .word a, .comma, .word b] =>
    ((integerLiteral j).filter (· < 2 ^ 23)).bind fun j => (numLiteral a).bind fun a =>
      (numLiteral b).map fun b => loadcCommands j a b
  | "READC", [.word j] => ((integerLiteral j).filter (· < 2 ^ 23)).map readcCommands
  | "TRANSFORM", .word p :: .comma :: .word d :: rest =>
    ((fieldLiteral 5 p).filter (·.toNat < 24)).bind fun p => (directionOperand d).bind fun d =>
      ((pairList rest).filter (·.length = 2 ^ p.toNat)).map fun ps => transformCommands p d ps
  | _, _ => none

/-- The response code with a given name (60_exceptions.md R241), written in capitals as there (log 17). -/
def codeNamed (w : String) : Option (BitVec 4) :=
  (["OK", "E_ILLEGAL", "E_UNCONF", "E_RANGE", "E_RO", "E_PARAM", "E_CFG"].idxOf? w).map (BitVec.ofNat 4)

/-- What a line says: its commands, and the response it expects where it states one. -/
structure Line where
  commands : List Instr
  expected : Option Response
  deriving DecidableEq, Repr

/-- The response after `->` (30_encoding.md R101). DESIGN CHOICE (log 17): the code is written by its name
and the read data as an integer. The spec does not say whether a code number or a Num literal may stand
there, and here neither does. -/
def expectedResponse : List Token → Option (Option Response)
  | [] => some none
  | [.arrow, .word c, .comma, .word r] =>
    (codeNamed c).bind fun c => (fieldLiteral 32 r).map fun r => some ⟨c, r⟩
  | _ => none

/-- Read one line of text (30_encoding.md R101); none where it is no line of the assembler. DESIGN CHOICE
(log 17): an empty line, a line of a comment alone and a line of `-> code, rdata` alone are lines with no
commands. The spec says nothing of a line without a command. -/
def assembleLine (line : String) : Option Line :=
  let ts := tokens [] line.toList
  let body := ts.takeWhile (· ≠ .arrow)
  (expectedResponse (ts.dropWhile (· ≠ .arrow))).bind fun e =>
    match body with
    | [] => some ⟨[], e⟩
    | .word m :: ops => (lineCommands m.toUpper ops).map fun cs => ⟨cs, e⟩
    | _ :: _ => none

/-- The transactions of a line: command word and data word of each command (30_encoding.md R101). -/
def assembledWords (line : String) : Option (List (Word × Word)) :=
  (assembleLine line).map fun l => l.commands.map encode

end Sys2Proof.Machine
end

