-- ==== Sys2Proof/Machine/Instances.lean ====
section
/-! DEFINITION. Several engines (60_exceptions.md R256): independent copies of the model that share
nothing. -/

namespace Sys2Proof.Machine

/-- A system of several engines, one state each (60_exceptions.md R256; 92_eei_decisions.md D33). -/
abbrev EngineSystem := List State

/-- Engine `k` of a system takes a step, no other engine moves; nothing happens where there is no engine
`k`. A stop of that engine is a stop of the system's step. -/
def stepEngine (k : Nat) (sys : EngineSystem) : Host.Outcome EngineSystem Fault Refusal :=
  match sys[k]? with
  | none => .next sys
  | some s =>
    match step s with
    | .next t => .next (sys.set k t)
    | .fault f => .fault f
    | .refused r => .refused r

end Sys2Proof.Machine
end

