-- ==== Sys2Proof/Safety.lean ====
section
/-! DEFINITION. What the claims speak of: how a command ends, the invariant of the machine, which commands
may write what (10_state.md R30), which errors a command can end with (60_exceptions.md R242), runs of
several commands, and the exact real numbers that binary32 arithmetic is measured against. -/

namespace Sys2Proof.Machine

/-- The state after a command that changed nothing and answered `OK` with the word `v`. -/
def okState (v : Word) (s : State) : State := { s with resp := some ⟨0#4, v⟩ }

/-- The state after a command that ended with an error: the response and the one sticky flag
(60_exceptions.md R241, R244). -/
def errorState (e : Err) (s : State) : State :=
  match e with
  | .illegal => { s with fIllegal := true, resp := some ⟨1#4, 0#32⟩ }
  | .unconf => { s with fUnconf := true, resp := some ⟨2#4, 0#32⟩ }
  | .range => { s with fRange := true, resp := some ⟨3#4, 0#32⟩ }
  | .ro => { s with fRo := true, resp := some ⟨4#4, 0#32⟩ }
  | .param => { s with fParam := true, resp := some ⟨5#4, 0#32⟩ }
  | .cfg => { s with fCfg := true, resp := some ⟨6#4, 0#32⟩ }

/-- A state without its memories and its last response: the flags, the registers, the host's future. -/
def registersOf (s : State) : State :=
  { s with ws := [], infifo := [], outfifo := [], acc := [], lastph := [], sumph := [], anamag := [],
           anafrq := [], synmag := [], synfrq := [], win := [], tw := [], resp := none }

/-- A state without its transient memories (10_state.md R30). -/
def persistentPart (s : State) : State :=
  { s with ws := [], anamag := [], anafrq := [], synmag := [], synfrq := [] }

/-- The illegal command words, clause by clause (30_encoding.md R99): the opcode is `cmd / 2^28`, `SEL` is
`cmd / 2^24 mod 16`. -/
def illegalWord (cmd : Word) : Prop :=
  cmd.toNat / 0x10000000 = 15 ∨
    (cmd.toNat / 0x10000000 ∈ [0, 1, 8, 9, 10, 11, 12, 13, 14] ∧ cmd.toNat % 0x10000000 ≠ 0) ∨
    (cmd.toNat / 0x10000000 = 2 ∧ cmd.toNat % 0x10000000 / 0x20 ≠ 0) ∨
    (cmd.toNat / 0x10000000 = 7 ∧ (cmd.toNat % 0x10000000 / 0x200 ≠ 0 ∨ cmd.toNat / 0x20 % 8 ≠ 0)) ∨
    (cmd.toNat / 0x10000000 ∈ [3, 4] ∧ cmd.toNat / 0x1000000 % 16 ≠ 0) ∨
    (cmd.toNat / 0x10000000 ∈ [5, 6] ∧ 12 ≤ cmd.toNat / 0x1000000 % 16)

/-- The invariant of an engine: what 10_state.md and 20_memory.md say of every state a run reaches. -/
structure Inv (s : State) : Prop where
  /-- every memory is in canonical form and lies below its depth, which is 0 while unconfigured
  (20_memory.md R61; 10_state.md R40) -/
  mems : ∀ m : MemId, (s.mem m).wf = true ∧ (s.mem m).within (depth s m) = true
  /-- an unconfigured engine (10_state.md R26, R27, R23) -/
  unconf : s.cfgd = false → s.log2n = 0#5 ∧ s.rover = 0#32 ∧ s.cyc = false
  /-- a configured engine: legal exponent, legal oversampling factor, legal sample rate, cursor inside
  the frame (10_state.md R26, R27) -/
  frame : s.cfgd = true → 1 ≤ s.log2n.toNat ∧ s.log2n.toNat ≤ Config.log2nMax ∧
    legalOsamp s.osamp.toNat s.log2n.toNat = true ∧ legalPos s.srate = true ∧
    s.rover.toNat < frameSize s
  /-- the ROMs hold their constants (10_state.md R41) -/
  roms : s.cfgd = true → s.win = winRom (frameSize s) ∧ s.tw = twRom (frameSize s)
  /-- OSAMP holds its reset value or a legal value (10_state.md R26) -/
  osampLegal : s.osamp = 0#6 ∨ legalOsamp s.osamp.toNat 31 = true
  /-- SRATE holds its reset value or a legal value (10_state.md R26) -/
  srateLegal : s.srate = 0x00000000#32 ∨ legalPos s.srate = true
  /-- RATIO always holds a legal value (10_state.md R26, R40) -/
  ratioLegal : legalPos s.ratio = true
  /-- only the codes 0 to 6 are produced, and a failed command returns 0 (60_exceptions.md R240, R241) -/
  respLegal : ∀ r : Response, s.resp = some r → r.code.toNat ≤ 6 ∧ (r.code ≠ okCode → r.rdata = 0#32)

/-- Does a command write the memory `m` (10_state.md R30; PUSH and CYCLE write what their stages write;
RESET and CONFIG replace every memory, 10_state.md R40, R41)? -/
def mayWrite (i : Instr) (m : MemId) : Bool :=
  match i with
  | .nop => false
  | .reset => true
  | .config _ => true
  | .wrreg _ _ => false
  | .rdreg _ => false
  | .wrmem mem _ _ => memOfSel mem == some m && !isRom m
  | .rdmem _ _ => false
  | .fft _ _ => m == .ws
  | .push _ => !isRom m
  | .analyze => m == .ws || m == .lastph || m == .anamag || m == .anafrq
  | .remap => m == .synmag || m == .synfrq
  | .synth => m == .ws || m == .sumph
  | .ola => m == .acc || m == .outfifo || m == .infifo
  | .cycle => !isRom m
  | .clrerr => false

/-- The errors a decoded command can end with (60_exceptions.md R242). E_ILLEGAL is in no row: a decoded
command is a legal word. -/
def possibleErrors : Instr → List Err
  | .nop => []
  | .reset => []
  | .clrerr => []
  | .config _ => [.cfg]
  | .rdreg _ => [.range]
  | .wrreg _ _ => [.range, .ro, .param]
  | .rdmem _ _ => [.unconf, .range]
  | .wrmem _ _ _ => [.unconf, .range, .ro]
  | .fft _ _ => [.unconf, .range]
  | .push _ => [.unconf]
  | .analyze => [.unconf]
  | .remap => [.unconf]
  | .synth => [.unconf]
  | .ola => [.unconf]
  | .cycle => [.unconf]

/-- Two states that agree in everything but CYC, the six sticky flags and the host's future. -/
def sameButFlags (s t : State) : Prop :=
  { clearSticky s with cyc := false, host := [] } = { clearSticky t with cyc := false, host := [] }

/-- The samples pushed one after another from a state: the state after them and the responses, in
order; none if a command stops. -/
def pushAll : List Word → State → Option (State × List Response)
  | [], s => some (s, [])
  | v :: rest, s =>
    match exec (.push v) s with
    | .next t =>
      match t.resp, pushAll rest t with
      | some r, some (u, rs) => some (u, r :: rs)
      | _, _ => none
    | .fault _ => none
    | .refused _ => none

/-! ### Exact real numbers -/

/-- The real value of a finite Num (00_scope.md R9). -/
noncomputable def numReal (a : Num) : ℝ := (numVal a : ℝ) / 2 ^ 149

/-- The least absolute value that rounds to infinity: half a unit in the last place above the largest
finite Num. -/
noncomputable def overflowBound : ℝ := (2 ^ 25 - 1) * 2 ^ 103

/-- `r` is the real number `x ≠ 0` correctly rounded to nearest, ties to even (00_scope.md R10): an
infinity on overflow, otherwise a finite Num than which none is nearer, with an even pattern if another
is as near; and `r` has the sign of `x`. -/
def roundsTo (r : Num) (x : ℝ) : Prop :=
  (overflowBound ≤ |x| → isInf r = true) ∧
  (|x| < overflowBound → isFin r = true ∧ ∀ c : Num, isFin c = true →
    |numReal r - x| ≤ |numReal c - x| ∧
    (numReal c ≠ numReal r → |numReal c - x| = |numReal r - x| → r.toNat % 2 = 0)) ∧
  (x < 0 → numSign r = true) ∧ (0 < x → numSign r = false)

/-- Exact real arithmetic, as 00_scope.md R11 admits it for proofs. -/
noncomputable def realArith : Arith ℝ where
  add := fun a b => a + b
  sub := fun a b => a - b
  mul := fun a b => a * b
  neg := fun a => -a

/-- A workspace of real numbers. -/
noncomputable def realStore : Store (Nat → ℝ) ℝ where
  read := fun w i => w i
  write := fun w i v => Function.update w i v

/-- `tw` is the exact twiddle ROM of the frame size `2^log2n` (10_state.md R38, before rounding). -/
def exactTwiddles (log2n : Nat) (tw : Nat → ℝ) : Prop :=
  ∀ j : Nat, j < 2 ^ log2n / 2 →
    tw (2 * j) = Real.cos (2 * Real.pi * j / 2 ^ log2n) ∧
    tw (2 * j + 1) = Real.sin (2 * Real.pi * j / 2 ^ log2n)

/-- The sign of the exponent of the transform kernel (40_transform.md R122, R123). -/
def kernelSign : Dir → ℂ
  | .fwd => -1
  | .inv => 1

/-- Pair `j` of a real workspace as a complex number (20_memory.md R63). -/
noncomputable def realPair (w : Nat → ℝ) (j : Nat) : ℂ := (w (2 * j) : ℂ) + (w (2 * j + 1) : ℂ) * Complex.I

end Sys2Proof.Machine
end

