-- ==== Sys2Proof/Certificates/Slice0/Obligations.lean ====
section
/-! DEFINITION. The statements about this model, in the order of OBLIGATIONS.json. -/

section

open Sys2Proof Sys2Proof.Machine

/-! ### Encoding and the step -/

/-- One listed word of each command decodes to the command it stands for (30_encoding.md R101). -/
def Obligations.ListedWordsDecode : Prop :=
  ∀ d : Word,
    decode 0x00000000#32 d = .ok .nop ∧
    decode 0x10000000#32 d = .ok .reset ∧
    decode 0x2000000B#32 d = .ok (.config 11#5) ∧
    decode 0x30000004#32 d = .ok (.wrreg 4#24 d) ∧
    decode 0x40000007#32 d = .ok (.rdreg 7#24) ∧
    decode 0x55000002#32 d = .ok (.wrmem 5#4 2#24 d) ∧
    decode 0x6B000008#32 d = .ok (.rdmem 11#4 8#24) ∧
    decode 0x70000003#32 d = .ok (.fft 3#5 .fwd) ∧
    decode 0x70000102#32 d = .ok (.fft 2#5 .inv) ∧
    decode 0x80000000#32 d = .ok (.push d) ∧
    decode 0x90000000#32 d = .ok .analyze ∧
    decode 0xA0000000#32 d = .ok .remap ∧
    decode 0xB0000000#32 d = .ok .synth ∧
    decode 0xC0000000#32 d = .ok .ola ∧
    decode 0xD0000000#32 d = .ok .cycle ∧
    decode 0xE0000000#32 d = .ok .clrerr

/-- The word of every command, operands at every value, as the assembler's table adds it up
(30_encoding.md R101). -/
def Obligations.CommandWordsAddUp : Prop :=
  (encodeCmd .nop).toNat = 0 ∧ (encodeCmd .reset).toNat = 0x10000000 ∧
  (∀ p : BitVec 5, (encodeCmd (.config p)).toNat = 0x20000000 + p.toNat) ∧
  (∀ (r : BitVec 24) (v : Word), (encodeCmd (.wrreg r v)).toNat = 0x30000000 + r.toNat) ∧
  (∀ r : BitVec 24, (encodeCmd (.rdreg r)).toNat = 0x40000000 + r.toNat) ∧
  (∀ (m : BitVec 4) (i : BitVec 24) (v : Word),
    (encodeCmd (.wrmem m i v)).toNat = 0x50000000 + m.toNat * 2 ^ 24 + i.toNat) ∧
  (∀ (m : BitVec 4) (i : BitVec 24),
    (encodeCmd (.rdmem m i)).toNat = 0x60000000 + m.toNat * 2 ^ 24 + i.toNat) ∧
  (∀ p : BitVec 5, (encodeCmd (.fft p .fwd)).toNat = 0x70000000 + p.toNat) ∧
  (∀ p : BitVec 5, (encodeCmd (.fft p .inv)).toNat = 0x70000100 + p.toNat) ∧
  (∀ v : Word, (encodeCmd (.push v)).toNat = 0x80000000) ∧
  (encodeCmd .analyze).toNat = 0x90000000 ∧ (encodeCmd .remap).toNat = 0xA0000000 ∧
  (encodeCmd .synth).toNat = 0xB0000000 ∧ (encodeCmd .ola).toNat = 0xC0000000 ∧
  (encodeCmd .cycle).toNat = 0xD0000000 ∧ (encodeCmd .clrerr).toNat = 0xE0000000

/-- Decoding the encoding of a well-formed command gives the command back, for every operand value
(30_encoding.md R97, R98). -/
def Obligations.DecodeEncodeRoundTrip : Prop :=
  ∀ i : Instr, i.wf = true → decode (encodeCmd i) (encodeData i) = .ok i

/-- A command word is illegal exactly when a clause of 30_encoding.md R99 holds; then the transaction ends
with E_ILLEGAL and no other effect, and otherwise the word is the encoding of the command it decodes to,
so that no encoding executes as another. -/
def Obligations.IllegalWordsAreRefused : Prop :=
  ∀ (cmd d : Word) (s : State) (rest : List HostEvent), s.host = .request cmd d :: rest →
    (illegalWord cmd → step s = .next (errorState .illegal { s with host := rest })) ∧
    ((∃ e, decode cmd d = .error e) ↔ illegalWord cmd) ∧
    (¬ illegalWord cmd → ∃ i : Instr, decode cmd d = .ok i ∧ i.wf = true ∧ encodeCmd i = cmd)

/-- The decoder is total: a word decodes if and only if it selects exactly one row of the opcode map with
`SEL <= 11` on the two format-M rows, and then to a command of that row; the data word never decides
whether a transaction is legal (30_encoding.md R100). -/
def Obligations.DecoderIsTotal : Prop :=
  ∀ cmd d : Word,
    ((∃ i, decode cmd d = .ok i) ↔
      ∃ n, mnemonicsOf cmd = [n] ∧ (n = "WRMEM" ∨ n = "RDMEM" → cmd.toNat / 2 ^ 24 % 2 ^ 4 ≤ 11)) ∧
    (∀ i, decode cmd d = .ok i → mnemonicsOf cmd = [i.mnemonic] ∧
      ∀ d' : Word, ∃ j, decode cmd d' = .ok j ∧ j.mnemonic = i.mnemonic)

/-- A step takes the host's next request and runs the command its word decodes to. -/
def Obligations.StepRunsDecodedRequest : Prop :=
  ∀ (s : State) (cmd d : Word) (rest : List HostEvent) (i : Instr),
    s.host = .request cmd d :: rest → decode cmd d = .ok i →
    step s = exec i { s with host := rest }

/-- The other things a step can meet. The state is held between commands (60_exceptions.md R258); hardware
reset (70_reset_and_hazards.md R270); a violation of the host's duties stops the model. That the host's
acts are a list in State is the model's choice (log 1), so are the entries 13 and 14. -/
def Obligations.StepOnOtherHostEvents : Prop :=
  ∀ (s : State) (rest : List HostEvent),
    (s.host = [] → step s = .next s) ∧
    (s.host = .hardReset :: rest → step s = .next { State.reset with host := rest }) ∧
    (s.host = .violation :: rest → step s = .fault .hostProtocolViolation)

/-! ### Reset, flags, registers -/

/-- What hardware reset and RESET leave; every command that needs memories then ends with E_UNCONF
(10_state.md R40). -/
def Obligations.ResetState : Prop :=
  (∀ (s : State) (rest : List HostEvent), ∃ h c : State,
    step { s with host := .hardReset :: rest } = .next h ∧ exec .reset s = .next c ∧
    ∀ t ∈ [State.reset, h, c],
      t.cfgd = false ∧ t.cyc = false ∧ t.fIllegal = false ∧ t.fUnconf = false ∧ t.fRange = false ∧
      t.fRo = false ∧ t.fParam = false ∧ t.fCfg = false ∧ t.log2n = 0#5 ∧ t.osamp = 0#6 ∧
      t.srate = 0x00000000#32 ∧ t.ratio = 0x3F800000#32 ∧ t.rover = 0#32 ∧
      ∀ m : MemId, depth t m = 0 ∧ t.mem m = []) ∧
  (∀ (t : State) (i : Instr), t.cfgd = false → i.wf = true →
    i.mnemonic ∈ ["RDMEM", "WRMEM", "FFT", "PUSH", "ANALYZE", "REMAP", "SYNTH", "OLA", "CYCLE"] →
    exec i t = .next (errorState .unconf t))

/-- NOP and CLRERR in every state: NOP changes nothing, CLRERR clears the six sticky flags and nothing
else (45_system.md R210, R212). -/
def Obligations.NopAndClrerr : Prop :=
  ∀ s : State,
    exec .nop s = .next { s with resp := some ⟨0#4, 0#32⟩ } ∧
    exec .clrerr s = .next { s with
      fIllegal := false, fUnconf := false, fRange := false, fRo := false, fParam := false, fCfg := false,
      resp := some ⟨0#4, 0#32⟩ }

/-- RESET puts every field at its reset value, whatever the state, and answers OK, 0; directly after reset
it changes nothing. What the host does next is not part of the engine (log 1). -/
def Obligations.ResetCommand : Prop :=
  (∀ s : State, exec .reset s =
    .next { State.reset with host := s.host, resp := some ⟨0#4, 0#32⟩ }) ∧
  (∀ s t : State, exec .reset s = .next t → exec .reset t = .next t)

/-- The legality predicates on every data word: `legalPos` is finite and greater than zero, `legalOsamp`
is one of six values, at most `2^p` (45_system.md R218). -/
def Obligations.LegalityPredicates : Prop :=
  ∀ v : Word,
    (legalPos v = true ↔ isFin v = true ∧ 0 < numReal v) ∧
    (legalPos v = true ↔ 1 ≤ v.toNat ∧ v.toNat ≤ 0x7F7FFFFF) ∧
    ∀ p : Nat, legalOsamp v.toNat p = true ↔
      (v.toNat = 1 ∨ v.toNat = 2 ∨ v.toNat = 4 ∨ v.toNat = 8 ∨ v.toNat = 16 ∨ v.toNat = 32) ∧
        v.toNat ≤ 2 ^ p

/-- RDREG of every register number, in every state: the value, zero-extended, and no side effect; E_RANGE
above 7 (45_system.md R214; 10_state.md R24, R28). -/
def Obligations.RdregValues : Prop :=
  ∀ s : State,
    exec (.rdreg 0#24) s = .next (okState (statusWord s) s) ∧
    exec (.rdreg 1#24) s = .next (okState (BitVec.ofNat 32 s.log2n.toNat) s) ∧
    exec (.rdreg 2#24) s = .next (okState (BitVec.ofNat 32 s.osamp.toNat) s) ∧
    exec (.rdreg 3#24) s = .next (okState s.srate s) ∧
    exec (.rdreg 4#24) s = .next (okState s.ratio s) ∧
    exec (.rdreg 5#24) s = .next (okState s.rover s) ∧
    exec (.rdreg 6#24) s = .next (okState
      (if s.cfgd then BitVec.ofNat 32 (2 ^ s.log2n.toNat / s.osamp.toNat) else 0#32) s) ∧
    exec (.rdreg 7#24) s = .next (okState
      (if s.cfgd then BitVec.ofNat 32 (2 ^ s.log2n.toNat - 2 ^ s.log2n.toNat / s.osamp.toNat)
       else 0#32) s) ∧
    ∀ reg : BitVec 24, 7 < reg.toNat → exec (.rdreg reg) s = .next (errorState .range s)

/-- The STATUS word bit by bit; reading it has no side effect; a RDREG that is itself in error sets its
flag for the next read to see (10_state.md R25). -/
def Obligations.StatusBits : Prop :=
  ∀ s : State,
    (∃ v : Word, exec (.rdreg 0#24) s = .next (okState v s) ∧
      v.getLsbD 0 = s.cfgd ∧ v.getLsbD 1 = s.cyc ∧ v.getLsbD 8 = s.fIllegal ∧ v.getLsbD 9 = s.fUnconf ∧
      v.getLsbD 10 = s.fRange ∧ v.getLsbD 11 = s.fRo ∧ v.getLsbD 12 = s.fParam ∧ v.getLsbD 13 = s.fCfg ∧
      ∀ i : Nat, (2 ≤ i ∧ i ≤ 7) ∨ 14 ≤ i → v.getLsbD i = false) ∧
    (∀ reg : BitVec 24, 7 < reg.toNat → ∃ (t : State) (v : Word), exec (.rdreg reg) s = .next t ∧
      exec (.rdreg 0#24) t = .next (okState v t) ∧ v.getLsbD 10 = true)

/-- WRREG on every register, every value, every state: range, then read-only, then the value; a legal write
changes that register alone, a refused one only its sticky flag (45_system.md R215). -/
def Obligations.WrregResults : Prop :=
  ∀ (s : State) (v : Word),
    (∀ reg : BitVec 24, 7 < reg.toNat → exec (.wrreg reg v) s = .next (errorState .range s)) ∧
    (∀ reg : BitVec 24, reg.toNat ∈ [0, 1, 5, 6, 7] →
      exec (.wrreg reg v) s = .next (errorState .ro s)) ∧
    (v.toNat ∈ [1, 2, 4, 8, 16, 32] ∧ v.toNat ≤ 2 ^ (if s.cfgd then s.log2n.toNat else 31) →
      exec (.wrreg 2#24 v) s = .next (okState 0#32 { s with osamp := BitVec.ofNat 6 v.toNat })) ∧
    (¬ (v.toNat ∈ [1, 2, 4, 8, 16, 32] ∧ v.toNat ≤ 2 ^ (if s.cfgd then s.log2n.toNat else 31)) →
      exec (.wrreg 2#24 v) s = .next (errorState .param s)) ∧
    (1 ≤ v.toNat ∧ v.toNat ≤ 0x7F7FFFFF →
      exec (.wrreg 3#24 v) s = .next (okState 0#32 { s with srate := v }) ∧
      exec (.wrreg 4#24 v) s = .next (okState 0#32 { s with ratio := v })) ∧
    (¬ (1 ≤ v.toNat ∧ v.toNat ≤ 0x7F7FFFFF) →
      exec (.wrreg 3#24 v) s = .next (errorState .param s) ∧
      exec (.wrreg 4#24 v) s = .next (errorState .param s))

/-! ### CONFIG and the memories -/

/-- What a successful CONFIG leaves: registers, flags, every RAM element of its depth +0.0, the ROMs;
OSAMP, SRATE, RATIO and the sticky flags keep their values (45_system.md R213; 10_state.md R41). The bound
13 on the exponent is the model's choice of LOG2N_MAX (log 5). -/
def Obligations.ConfigAccepts : Prop :=
  ∀ (s : State) (p : BitVec 5), 1 ≤ p.toNat → p.toNat ≤ 13 →
    s.osamp.toNat ∈ [1, 2, 4, 8, 16, 32] → s.osamp.toNat ≤ 2 ^ p.toNat →
    1 ≤ s.srate.toNat → s.srate.toNat ≤ 0x7F7FFFFF →
    ∃ t : State, exec (.config p) s = .next t ∧ t.resp = some ⟨0#4, 0#32⟩ ∧
      registersOf t = registersOf { s with
        cfgd := true, cyc := false, log2n := p,
        rover := BitVec.ofNat 32 (2 ^ p.toNat - 2 ^ p.toNat / s.osamp.toNat) } ∧
      (∀ m : MemId, depth t m = depthFor (2 ^ p.toNat) m) ∧
      (∀ m : MemId, isRom m = false → ∀ i : Nat, memRead t m i = 0x00000000#32) ∧
      (∀ k : Nat, k < 2 ^ p.toNat →
        memRead t .win k = winConst (2 ^ p.toNat) k ∧ memRead t .tw k = twConst (2 ^ p.toNat) k)

/-- When CONFIG is refused, for an instance with any largest exponent `pmax`: E_CFG and no other effect
(45_system.md R213). -/
def Obligations.ConfigRefuses : Prop :=
  (∀ (s : State) (p : BitVec 5) (pmax : Nat),
    (p.toNat < 1 ∨ pmax < p.toNat ∨
      ¬ (s.osamp.toNat ∈ [1, 2, 4, 8, 16, 32] ∧ s.osamp.toNat ≤ 2 ^ p.toNat) ∨
      ¬ (1 ≤ s.srate.toNat ∧ s.srate.toNat ≤ 0x7F7FFFFF)) →
    configCommand pmax p s = .next (errorState .cfg s)) ∧
  (∀ (s : State) (p : BitVec 5), exec (.config p) s = configCommand 13 p s)

/-- The depths of the twelve memories; 0 while unconfigured and for the reserved ids; every index fits the
24-bit field (20_memory.md R61). Which memory each id names, and which field of the state each memory is, by
the memory map of 10_state.md R30. -/
def Obligations.MemoryDepths : Prop :=
  (∀ s : State, s.cfgd = true →
    depth s .ws = 2 * 2 ^ s.log2n.toNat ∧ depth s .acc = 2 * 2 ^ s.log2n.toNat ∧
    (∀ m ∈ [MemId.infifo, .outfifo, .anamag, .anafrq, .synmag, .synfrq, .win, .tw],
      depth s m = 2 ^ s.log2n.toNat) ∧
    depth s .lastph = 2 ^ s.log2n.toNat / 2 + 1 ∧ depth s .sumph = 2 ^ s.log2n.toNat / 2 + 1) ∧
  (∀ (s : State) (m : MemId), s.cfgd = false → depth s m = 0) ∧
  (∀ sel : BitVec 4, 12 ≤ sel.toNat ↔ memOfSel sel = none) ∧
  (∀ (s : State) (m : MemId), s.log2n.toNat ≤ 23 → depth s m ≤ 2 ^ 24) ∧
  (memOfSel 0#4 = some .ws ∧ memOfSel 1#4 = some .infifo ∧ memOfSel 2#4 = some .outfifo ∧
    memOfSel 3#4 = some .acc ∧ memOfSel 4#4 = some .lastph ∧ memOfSel 5#4 = some .sumph ∧
    memOfSel 6#4 = some .anamag ∧ memOfSel 7#4 = some .anafrq ∧ memOfSel 8#4 = some .synmag ∧
    memOfSel 9#4 = some .synfrq ∧ memOfSel 10#4 = some .win ∧ memOfSel 11#4 = some .tw) ∧
  (∀ (s : State) (i : Nat),
    memRead s .ws i = s.ws.read i ∧ memRead s .infifo i = s.infifo.read i ∧
    memRead s .outfifo i = s.outfifo.read i ∧ memRead s .acc i = s.acc.read i ∧
    memRead s .lastph i = s.lastph.read i ∧ memRead s .sumph i = s.sumph.read i ∧
    memRead s .anamag i = s.anamag.read i ∧ memRead s .anafrq i = s.anafrq.read i ∧
    memRead s .synmag i = s.synmag.read i ∧ memRead s .synfrq i = s.synfrq.read i ∧
    memRead s .win i = s.win.read i ∧ memRead s .tw i = s.tw.read i)

/-- The failure order of the access port, and the access it performs otherwise (60_exceptions.md R246;
45_system.md R216). -/
def Obligations.AccessPortOrder : Prop :=
  ∀ (s : State) (mem : BitVec 4) (idx : BitVec 24) (v : Word),
    (memOfSel mem = none → exec (.rdmem mem idx) s = .next (errorState .illegal s) ∧
      exec (.wrmem mem idx v) s = .next (errorState .illegal s)) ∧
    ∀ m : MemId, memOfSel mem = some m →
      (s.cfgd = false → exec (.rdmem mem idx) s = .next (errorState .unconf s) ∧
        exec (.wrmem mem idx v) s = .next (errorState .unconf s)) ∧
      (s.cfgd = true → depth s m ≤ idx.toNat → exec (.rdmem mem idx) s = .next (errorState .range s) ∧
        exec (.wrmem mem idx v) s = .next (errorState .range s)) ∧
      (s.cfgd = true → idx.toNat < depth s m →
        exec (.rdmem mem idx) s = .next (okState (memRead s m idx.toNat) s) ∧
        (m = .win ∨ m = .tw → exec (.wrmem mem idx v) s = .next (errorState .ro s)) ∧
        (m ≠ .win → m ≠ .tw →
          exec (.wrmem mem idx v) s = .next (okState 0#32 (memWrite s m idx.toNat v))))

/-- WRMEM stores any pattern unchanged in its element; every other element of every memory, every register
and every flag is unchanged, and the next RDMEM of the element returns the pattern (45_system.md R217;
20_memory.md R65, R66, R72). -/
def Obligations.WrmemStores : Prop :=
  ∀ (s : State) (mem : BitVec 4) (idx : BitVec 24) (v : Word) (m : MemId),
    memOfSel mem = some m → s.cfgd = true → idx.toNat < depth s m → m ≠ .win → m ≠ .tw →
    ∃ t : State, exec (.wrmem mem idx v) s = .next t ∧ t.resp = some ⟨0#4, 0#32⟩ ∧
      registersOf t = registersOf s ∧
      (∀ (m' : MemId) (i : Nat),
        memRead t m' i = if m' = m ∧ i = idx.toNat then v else memRead s m' i) ∧
      exec (.rdmem mem idx) t = .next (okState v t)

/-- Equal memories are equal data: two memories in canonical form that read the same at every index are
the same list. The form is the model's choice (log 4). -/
def Obligations.CanonicalMemoryIsExtensional : Prop :=
  ∀ (m n : Memory) (v : Sys2Proof.Num) (i : Nat), m.wf = true → n.wf = true →
    ((∀ k : Nat, m.read k = n.read k) ↔ m = n) ∧ (m.write i v).wf = true ∧
      (m.write i (m.read i)) = m

/-! ### The transform -/

/-- FFT: when it completes, what it writes and what it leaves; when it is refused (40_transform.md R121). -/
def Obligations.FftCommand : Prop :=
  ∀ (s : State) (p : BitVec 5) (dir : Dir),
    (s.cfgd = false → exec (.fft p dir) s = .next (errorState .unconf s)) ∧
    (s.cfgd = true → s.log2n.toNat < p.toNat → exec (.fft p dir) s = .next (errorState .range s)) ∧
    (s.cfgd = true → p.toNat ≤ s.log2n.toNat → ∃ t : State, exec (.fft p dir) s = .next t ∧
      t = { s with ws := t.ws, resp := some ⟨0#4, 0#32⟩ } ∧
      t.ws = network (numArith Config.numerics) memStore s.tw.read s.log2n.toNat p.toNat dir s.ws ∧
      (∀ i : Nat, 2 * 2 ^ p.toNat ≤ i → t.ws.read i = s.ws.read i) ∧
      (p.toNat = 0 → t.ws = s.ws))

/-- Phase 1 of the transform: pair `i` receives the bit patterns of pair `bitrev_p(i)`, nothing else moves;
and `bitrev_p` reverses `p` bits (40_transform.md R120; 00_scope.md R8). -/
def Obligations.BitReversalPermutes : Prop :=
  (∀ (p : Nat) (ws : Memory) (i : Nat),
    (i < 2 ^ p → (bitReversePairs memStore p ws).read (2 * i) = ws.read (2 * bitrev p i) ∧
      (bitReversePairs memStore p ws).read (2 * i + 1) = ws.read (2 * bitrev p i + 1)) ∧
    (2 * 2 ^ p ≤ i → (bitReversePairs memStore p ws).read i = ws.read i)) ∧
  (∀ p i : Nat, bitrev p i < 2 ^ p ∧ ∀ b : Nat, b < p → (bitrev p i).testBit b = i.testBit (p - 1 - b))

/-- Phase 2 of the transform: what stage `t` leaves in the two pairs of each of its butterflies, and
nowhere else, for any arithmetic parameters and any workspace (40_transform.md R120). -/
def Obligations.ButterflyStageResult : Prop :=
  ∀ (nm : Numerics) (tw : Nat → Sys2Proof.Num) (log2n p t : Nat) (dir : Dir) (ws : Memory),
    1 ≤ t → t ≤ p → p ≤ log2n →
    (∀ c j : Nat, c < 2 ^ (p - t) → j < 2 ^ (t - 1) →
      let out := butterflyStage (numArith nm) memStore tw log2n p dir t ws
      let a := c * 2 ^ t + j
      let d := a + 2 ^ (t - 1)
      let q := j * 2 ^ (log2n - t)
      let wr := tw (2 * q)
      let wi := if dir = .fwd then numNeg (tw (2 * q + 1)) else tw (2 * q + 1)
      let tr := numSub nm (numMul nm (ws.read (2 * d)) wr) (numMul nm (ws.read (2 * d + 1)) wi)
      let ti := numAdd nm (numMul nm (ws.read (2 * d)) wi) (numMul nm (ws.read (2 * d + 1)) wr)
      out.read (2 * d) = numSub nm (ws.read (2 * a)) tr ∧
      out.read (2 * d + 1) = numSub nm (ws.read (2 * a + 1)) ti ∧
      out.read (2 * a) = numAdd nm (ws.read (2 * a)) tr ∧
      out.read (2 * a + 1) = numAdd nm (ws.read (2 * a + 1)) ti) ∧
    (∀ i : Nat, 2 * 2 ^ p ≤ i →
      (butterflyStage (numArith nm) memStore tw log2n p dir t ws).read i = ws.read i)

/-- Purity: what FFT leaves in the first `2n` elements of the workspace depends on those elements, on the
twiddle ROM and on LOG2N only (40_transform.md R124). -/
def Obligations.FftReadsOnlyItsPairs : Prop :=
  ∀ (s s' t t' : State) (p : BitVec 5) (dir : Dir),
    s.cfgd = true → s'.cfgd = true → s.log2n = s'.log2n → p.toNat ≤ s.log2n.toNat →
    (∀ i : Nat, i < 2 ^ s.log2n.toNat → s.tw.read i = s'.tw.read i) →
    (∀ i : Nat, i < 2 * 2 ^ p.toNat → s.ws.read i = s'.ws.read i) →
    exec (.fft p dir) s = .next t → exec (.fft p dir) s' = .next t' →
    ∀ i : Nat, i < 2 * 2 ^ p.toNat → t.ws.read i = t'.ws.read i

/-- Over the real numbers with exact twiddles the engine's own network computes the discrete Fourier
transform, with the negative exponent forward, unnormalised (40_transform.md R122, R123). -/
def Obligations.NetworkIsFourierTransform : Prop :=
  ∀ (log2n p : Nat) (dir : Dir) (tw x : Nat → ℝ), p ≤ log2n → exactTwiddles log2n tw →
    ∀ k : Nat, k < 2 ^ p →
      realPair (network realArith realStore tw log2n p dir x) k =
        ∑ j ∈ Finset.range (2 ^ p), realPair x j *
          Complex.exp (kernelSign dir * (2 * Real.pi * Complex.I * (j * k) / 2 ^ p))

/-- Over the real numbers the inverse transform after the forward one multiplies every element by exactly
`n` (40_transform.md R122). -/
def Obligations.TransformRoundTrip : Prop :=
  ∀ (log2n p : Nat) (tw x : Nat → ℝ), p ≤ log2n → exactTwiddles log2n tw →
    ∀ i : Nat, i < 2 * 2 ^ p →
      network realArith realStore tw log2n p .inv (network realArith realStore tw log2n p .fwd x) i =
        2 ^ p * x i

/-! ### The analyzer and the remapper -/

/-- ANALYZE, element by element: the windowed frame, its forward transform, and magnitude, phase and true
frequency of every bin `0 .. N/2`; nothing else changes (42_analyzer.md R161 to R165). -/
def Obligations.AnalyzeResult : Prop :=
  ∀ s : State, s.cfgd = true → ∃ (t : State) (w : Memory), exec .analyze s = .next t ∧
    t = { s with ws := t.ws, lastph := t.lastph, anamag := t.anamag, anafrq := t.anafrq,
                 resp := some ⟨0#4, 0#32⟩ } ∧
    (∀ k : Nat, k < 2 ^ s.log2n.toNat →
      w.read (2 * k) = numMul Config.numerics (s.infifo.read k) (s.win.read k) ∧
      w.read (2 * k + 1) = 0x00000000#32) ∧
    (∀ i : Nat, 2 * 2 ^ s.log2n.toNat ≤ i → w.read i = s.ws.read i) ∧
    t.ws = network (numArith Config.numerics) memStore s.tw.read s.log2n.toNat s.log2n.toNat .fwd w ∧
    ∀ k : Nat,
      let nm := Config.numerics
      let re := t.ws.read (2 * k)
      let im := t.ws.read (2 * k + 1)
      let num := fun i : Nat => numOfNat i
      let expct := numDiv nm (numMul nm 0x40C90FDB#32 (num (2 ^ s.log2n.toNat / s.osamp.toNat)))
        (num (2 ^ s.log2n.toNat))
      let fpb := numDiv nm s.srate (num (2 ^ s.log2n.toNat))
      let phase := numAtan2 nm im re
      let deviation := fold nm
        (numSub nm (numSub nm phase (s.lastph.read k)) (numMul nm (num k) expct))
      let bins := numDiv nm (numMul nm (num s.osamp.toNat) deviation) 0x40C90FDB#32
      (k ≤ 2 ^ s.log2n.toNat / 2 →
        t.lastph.read k = phase ∧
        t.anamag.read k =
          numMul nm (num 2) (numSqrt nm (numAdd nm (numMul nm re re) (numMul nm im im))) ∧
        t.anafrq.read k = numAdd nm (numMul nm (num k) fpb) (numMul nm bins fpb)) ∧
      (2 ^ s.log2n.toNat / 2 < k →
        t.lastph.read k = s.lastph.read k ∧ t.anamag.read k = s.anamag.read k ∧
        t.anafrq.read k = s.anafrq.read k)

/-- The fold takes away `π` times the even integer that `q = floor(t/π)` reaches by moving away from zero
(42_analyzer.md R166). -/
def Obligations.FoldSubtractsEvenMultiple : Prop :=
  ∀ (nm : Numerics) (t : Sys2Proof.Num), isFin (numFloor nm (numDiv nm t numPi)) = true →
    ∃ (q2 : Sys2Proof.Num) (e : Int),
      fold nm t = numSub nm t (numMul nm numPi q2) ∧ isFin q2 = true ∧ numReal q2 = e ∧ e % 2 = 0 ∧
      (let q := numFloorInt (numFloor nm (numDiv nm t numPi))
       (q % 2 = 0 → e = q) ∧ (q % 2 = 1 → 0 ≤ q → e = q + 1) ∧ (q % 2 = 1 → q < 0 → e = q - 1))

/-- Over a frame whose hop divides it exactly, the expected phase advance is `2π/osamp`
(42_analyzer.md R164). -/
def Obligations.HopPhaseIsExact : Prop :=
  ∀ (nm : Numerics) (s : State), Inv s → s.cfgd = true →
    numReal (hopPhase nm s) = numReal numTwoPi / s.osamp.toNat

/-- Destinations of the remapper: source bin `k` goes to the floor of the product `num(k) ⊗ RATIO`, rounded
once, if that is at most `N/2`, and is discarded otherwise, on overflow too. So destinations lie inside
`[0, N/2]`, bin 0 goes to bin 0, they do not decrease in the source bin, and once a source bin is discarded
so is every later one (43_remapper.md R182, R184). -/
def Obligations.RemapDestinations : Prop :=
  ∀ (nm : Numerics) (ratio : Sys2Proof.Num) (p : Nat), legalPos ratio = true → p ≤ 23 →
    (∀ k : Nat, k ≤ 2 ^ p / 2 → numReal (numOfNat k) = k ∧
      ∀ d : Nat, destBin nm ratio (2 ^ p / 2) k = some d ↔
        isFin (numMul nm (numOfNat k) ratio) = true ∧
        (d : Int) = ⌊numReal (numMul nm (numOfNat k) ratio)⌋ ∧ d ≤ 2 ^ p / 2) ∧
    destBin nm ratio (2 ^ p / 2) 0 = some 0 ∧
    (∀ k d : Nat, destBin nm ratio (2 ^ p / 2) k = some d → d ≤ 2 ^ p / 2) ∧
    (∀ k k' d d' : Nat, k ≤ k' → k' ≤ 2 ^ p / 2 → destBin nm ratio (2 ^ p / 2) k = some d →
      destBin nm ratio (2 ^ p / 2) k' = some d' → d ≤ d') ∧
    (∀ k k' : Nat, k ≤ k' → k' ≤ 2 ^ p / 2 → destBin nm ratio (2 ^ p / 2) k = none →
      destBin nm ratio (2 ^ p / 2) k' = none)

/-- REMAP, element by element: a destination bin carries the sum, in ascending source order, of the
magnitudes of the source bins that map to it, and the scaled frequency of the last of them; without a
source both are +0.0. Nothing else changes (43_remapper.md R181 to R183). -/
def Obligations.RemapResult : Prop :=
  ∀ s : State, s.cfgd = true → ∃ t : State, exec .remap s = .next t ∧
    t = { s with synmag := t.synmag, synfrq := t.synfrq, resp := some ⟨0#4, 0#32⟩ } ∧
    (∀ d : Nat, d < 2 ^ s.log2n.toNat →
      let sources := (List.range (2 ^ s.log2n.toNat / 2 + 1)).filter fun k =>
        destBin Config.numerics s.ratio (2 ^ s.log2n.toNat / 2) k = some d
      t.synmag.read d =
        sources.foldl (fun sum k => numAdd Config.numerics sum (s.anamag.read k)) 0x00000000#32 ∧
      t.synfrq.read d =
        (sources.getLast?.map fun k => numMul Config.numerics (s.anafrq.read k) s.ratio).getD
          0x00000000#32) ∧
    (∀ i : Nat, 2 ^ s.log2n.toNat ≤ i →
      t.synmag.read i = s.synmag.read i ∧ t.synfrq.read i = s.synfrq.read i)

/-- REMAP is idempotent: a second run leaves every element as the first did (43_remapper.md R181). -/
def Obligations.RemapIsIdempotent : Prop :=
  ∀ s t u : State, s.cfgd = true → exec .remap s = .next t → exec .remap t = .next u →
    ∀ (m : MemId) (i : Nat), memRead u m i = memRead t m i

/-- At `RATIO = 1.0` the remapper copies every bin whose magnitude and frequency are numbers, the magnitude
not the negative zero (43_remapper.md R184). -/
def Obligations.RemapIdentityCopies : Prop :=
  ∀ s t : State, s.cfgd = true → s.log2n.toNat ≤ 23 → s.ratio = 0x3F800000#32 →
    exec .remap s = .next t → ∀ k : Nat, k ≤ 2 ^ s.log2n.toNat / 2 →
      (isNaN (s.anamag.read k) = false → s.anamag.read k ≠ 0x80000000#32 →
        t.synmag.read k = s.anamag.read k) ∧
      (isNaN (s.anafrq.read k) = false → t.synfrq.read k = s.anafrq.read k)

/-! ### The synthesizer and the overlap-add stage -/

/-- SYNTH, element by element: the phase accumulator of every bin `0 .. N/2`, the spectrum built from it
with the mirror region zeroed, and its inverse transform; nothing else changes (44_synth_ola.md R190 to
R193). -/
def Obligations.SynthResult : Prop :=
  ∀ s : State, s.cfgd = true → 1 ≤ s.log2n.toNat → ∃ (t : State) (w : Memory),
    exec .synth s = .next t ∧
    t = { s with ws := t.ws, sumph := t.sumph, resp := some ⟨0#4, 0#32⟩ } ∧
    (∀ k : Nat,
      let nm := Config.numerics
      let num := fun i : Nat => numOfNat i
      let expct := numDiv nm (numMul nm 0x40C90FDB#32 (num (2 ^ s.log2n.toNat / s.osamp.toNat)))
        (num (2 ^ s.log2n.toNat))
      let fpb := numDiv nm s.srate (num (2 ^ s.log2n.toNat))
      let offset := numDiv nm (numSub nm (s.synfrq.read k) (numMul nm (num k) fpb)) fpb
      let advance := numAdd nm (numDiv nm (numMul nm 0x40C90FDB#32 offset) (num s.osamp.toNat))
        (numMul nm (num k) expct)
      let phase := numAdd nm (s.sumph.read k) advance
      (k ≤ 2 ^ s.log2n.toNat / 2 →
        t.sumph.read k = phase ∧
        w.read (2 * k) = numMul nm (s.synmag.read k) (numCos nm phase) ∧
        w.read (2 * k + 1) = numMul nm (s.synmag.read k) (numSin nm phase)) ∧
      (2 ^ s.log2n.toNat / 2 < k → t.sumph.read k = s.sumph.read k)) ∧
    (∀ i : Nat, 2 ^ s.log2n.toNat + 2 ≤ i → i < 2 * 2 ^ s.log2n.toNat → w.read i = 0x00000000#32) ∧
    (∀ i : Nat, 2 * 2 ^ s.log2n.toNat ≤ i → w.read i = s.ws.read i) ∧
    t.ws = network (numArith Config.numerics) memStore s.tw.read s.log2n.toNat s.log2n.toNat .inv w

/-- OLA, element by element: the windowed frame is added into the live half of the accumulator, the first
`step` sums are emitted, accumulator and input buffer move left by `step`; nothing else changes
(44_synth_ola.md R195 to R199). -/
def Obligations.OlaResult : Prop :=
  ∀ s : State, s.cfgd = true → ∃ t : State, exec .ola s = .next t ∧
    t = { s with acc := t.acc, outfifo := t.outfifo, infifo := t.infifo, resp := some ⟨0#4, 0#32⟩ } ∧
    (let nm := Config.numerics
     let n := 2 ^ s.log2n.toNat
     let hop := n / s.osamp.toNat
     let den := numOfNat (n / 2 * s.osamp.toNat)
     let sum := fun k : Nat =>
       if k < n then
         numAdd nm (s.acc.read k)
           (numDiv nm (numMul nm (numMul nm (numOfNat 2) (s.win.read k)) (s.ws.read (2 * k))) den)
       else s.acc.read k
     (∀ k : Nat, t.outfifo.read k = if k < hop then sum k else s.outfifo.read k) ∧
     (∀ i : Nat, t.acc.read i =
       if i < 2 * n - hop then sum (i + hop) else if i < 2 * n then 0x00000000#32 else s.acc.read i) ∧
     (∀ k : Nat, t.infifo.read k = if k < n - hop then s.infifo.read (k + hop) else s.infifo.read k))

/-- The upper half of the accumulator stays +0.0 from CONFIG on, whatever commands run, a WRMEM into
`ACC[0 .. N-1]` among them, unless the host writes `ACC[N .. 2N-1]` itself (10_state.md R34). -/
def Obligations.UpperAccumulatorStaysZero : Prop :=
  ∀ (s t : State) (i : Instr),
    (∀ (idx : BitVec 24) (v : Word), i = .wrmem 3#4 idx v → idx.toNat < 2 ^ s.log2n.toNat) →
    (s.cfgd = true → ∀ k : Nat, 2 ^ s.log2n.toNat ≤ k → k < 2 * 2 ^ s.log2n.toNat → s.acc.read k = 0#32) →
    exec i s = .next t →
    (t.cfgd = true → ∀ k : Nat, 2 ^ t.log2n.toNat ≤ k → k < 2 * 2 ^ t.log2n.toNat → t.acc.read k = 0#32)

/-- After `osamp` runs of OLA the upper half of the accumulator is +0.0 again, whatever stood there
(70_reset_and_hazards.md R285). -/
def Obligations.UpperAccumulatorIsRestored : Prop :=
  ∀ s : State, Inv s → s.cfgd = true →
    ∀ k : Nat, 2 ^ s.log2n.toNat ≤ k → k < 2 * 2 ^ s.log2n.toNat →
      (runCommands (List.replicate s.osamp.toNat .ola) s).1.acc.read k = 0#32

/-! ### The stream driver -/

/-- CYCLE completes, and is the four stage commands back to back, with CYC set at the end
(41_stream_driver.md R141, R145; 60_exceptions.md R257). -/
def Obligations.CycleIsFourStages : Prop :=
  ∀ s : State, s.cfgd = true → ∃ a b c d : State,
    exec .analyze s = .next a ∧ exec .remap a = .next b ∧ exec .synth b = .next c ∧
    exec .ola c = .next d ∧ exec .cycle s = .next { d with cyc := true } ∧
    d = { s with ws := d.ws, infifo := d.infifo, outfifo := d.outfifo, acc := d.acc, lastph := d.lastph,
                 sumph := d.sumph, anamag := d.anamag, anafrq := d.anafrq, synmag := d.synmag,
                 synfrq := d.synfrq, resp := some ⟨0#4, 0#32⟩ }

/-- PUSH: the sample is stored bit for bit at the cursor, the response is `OUTFIFO[(r - L) mod N]` as it
was before the command; inside a hop the cursor advances and CYC is cleared, at its end the cursor goes
back to `L`, a cycle runs and CYC is set (41_stream_driver.md R143). -/
def Obligations.PushResult : Prop :=
  ∀ (s : State) (v : Word), s.cfgd = true →
    let n := 2 ^ s.log2n.toNat
    let lat := n - n / s.osamp.toNat
    let y := s.outfifo.read (((s.rover.toNat : Int) - (lat : Int)) % (n : Int)).toNat
    ∃ u : State, u = { s with infifo := u.infifo } ∧
      (∀ i : Nat, u.infifo.read i = if i = s.rover.toNat then v else s.infifo.read i) ∧
      (s.rover.toNat + 1 < n → exec (.push v) s =
        .next { u with rover := BitVec.ofNat 32 (s.rover.toNat + 1), cyc := false,
                       resp := some ⟨0#4, y⟩ }) ∧
      (n ≤ s.rover.toNat + 1 → ∃ c : State,
        exec .cycle { u with rover := BitVec.ofNat 32 lat } = .next c ∧
        exec (.push v) s = .next { c with resp := some ⟨0#4, y⟩ })

/-- One hop: from a cursor at `L`, `step` pushes answer the block `OUTFIFO[0 .. step-1]` in order, and the
last of them fires the cycle (41_stream_driver.md R143, R147). -/
def Obligations.HopOfPushes : Prop :=
  ∀ (s : State) (vs : List Word), Inv s → s.cfgd = true → s.rover.toNat = latency s →
    vs.length = hopSize s → ∃ (t : State) (rs : List Response), pushAll vs s = some (t, rs) ∧
      t.rover.toNat = latency s ∧ t.cyc = true ∧ t.cfgd = true ∧ t.log2n = s.log2n ∧ t.osamp = s.osamp ∧
      t.srate = s.srate ∧ t.ratio = s.ratio ∧ rs.length = hopSize s ∧
      ∀ j : Nat, j < hopSize s → rs[j]? = some ⟨0#4, s.outfifo.read j⟩

/-- The cadence of the stream, for samples of any values: after any number of pushes the cursor stands at
`L` plus the pushes of the unfinished hop, CYC tells whether the last push ended a hop, and the input
buffer below the cursor holds the most recent samples, oldest first (41_stream_driver.md R147, R150;
10_state.md R32). -/
def Obligations.StreamCadence : Prop :=
  ∀ (s : State) (vs : List Word), Inv s → s.cfgd = true → s.rover.toNat = latency s →
    ∃ (t : State) (rs : List Response), pushAll vs s = some (t, rs) ∧ rs.length = vs.length ∧
      t.rover.toNat = latency s + vs.length % hopSize s ∧
      (vs ≠ [] → t.cyc = decide (vs.length % hopSize s = 0)) ∧
      (∀ r ∈ rs, r.code = 0#4) ∧
      ∀ k : Nat, k < t.rover.toNat →
        let i := vs.length + latency s - t.rover.toNat + k
        t.infifo.read k = if i < latency s then s.infifo.read i else vs.getD (i - latency s) 0#32

/-- Silence: a cycle that starts with an all-zero input buffer and accumulator and ends with a finite
phase accumulator puts out zeros and leaves the accumulator zero (44_synth_ola.md R202). -/
def Obligations.SilentCycle : Prop :=
  ∀ s t : State, Inv s → s.cfgd = true →
    (∀ k : Nat, k < frameSize s → s.infifo.read k = 0x00000000#32) →
    (∀ k : Nat, k < 2 * frameSize s → isZero (s.acc.read k) = true) →
    exec .cycle s = .next t →
    (∀ k : Nat, k ≤ frameSize s / 2 → isFin (t.sumph.read k) = true) →
    (∀ k : Nat, k < hopSize s → isZero (t.outfifo.read k) = true) ∧
    (∀ k : Nat, k < 2 * frameSize s → isZero (t.acc.read k) = true) ∧
    (∀ k : Nat, k ≤ frameSize s / 2 →
      t.anamag.read k = 0x00000000#32 ∧ t.lastph.read k = 0x00000000#32)

/-- The transient memories never reach a later output: two engines that differ only in WS, ANAMAG, ANAFRQ,
SYNMAG and SYNFRQ agree in every response of PUSH and in every persistent memory and register after it,
and after CYCLE (10_state.md R30; 70_reset_and_hazards.md R285, R286). -/
def Obligations.TransientMemoriesAreDead : Prop :=
  ∀ (s s' t t' : State) (v : Word), persistentPart s = persistentPart s' →
    (exec (.push v) s = .next t → exec (.push v) s' = .next t' → persistentPart t = persistentPart t') ∧
    (exec .cycle s = .next t → exec .cycle s' = .next t' → persistentPart t = persistentPart t')

/-- While OSAMP is not written, `L <= ROVER < N` holds after every command (10_state.md R27). -/
def Obligations.RoverStaysInHop : Prop :=
  ∀ (s t : State) (i : Instr), Inv s → (s.cfgd = true → latency s ≤ s.rover.toNat) →
    (∀ v : Word, i ≠ .wrreg 2#24 v) → exec i s = .next t → t.cfgd = true →
    latency t ≤ t.rover.toNat ∧ t.rover.toNat < frameSize t

/-! ### The whole machine -/

/-- The invariant holds after reset. -/
def Obligations.InvAtReset : Prop := Inv State.reset

/-- Every step from every state that meets the invariant gives a state that meets it. -/
def Obligations.InvKeptByStep : Prop :=
  ∀ s t : State, Inv s → step s = .next t → Inv t

/-- Every command runs to completion in every state and answers: the engine never stops by itself
(00_scope.md R5; 70_reset_and_hazards.md R275). -/
def Obligations.EveryCommandAnswers : Prop :=
  ∀ (i : Instr) (s : State), ∃ (t : State) (r : Response), exec i s = .next t ∧ t.resp = some r ∧
    r.code.toNat ≤ 6 ∧ t.host = s.host

/-- Errors are precise: after an error the state is exactly the state before the command, except for the
one sticky flag and the response with read data 0 (60_exceptions.md R244). -/
def Obligations.ErrorsArePrecise : Prop :=
  ∀ (i : Instr) (s t : State) (r : Response), exec i s = .next t → t.resp = some r → r.code ≠ 0#4 →
    ∃ e : Err, t = errorState e s

/-- The errors a well-formed command can end with are those of its row in the table of 60_exceptions.md
R242, and each of them occurs. -/
def Obligations.PossibleErrorCodes : Prop :=
  (∀ (i : Instr) (s t : State) (r : Response), i.wf = true → exec i s = .next t → t.resp = some r →
    r.code = 0#4 ∨ ∃ e ∈ possibleErrors i, t = errorState e s) ∧
  (∀ (i : Instr) (e : Err), e ∈ possibleErrors i → ∃ (j : Instr) (s : State),
    j.wf = true ∧ j.mnemonic = i.mnemonic ∧ exec j s = .next (errorState e s))

/-- No flag is read by any command but RDREG STATUS: two states that differ only in CYC and the sticky
flags give the same response and states that again differ only there (10_state.md R23). -/
def Obligations.FlagsAreNotRead : Prop :=
  ∀ (i : Instr) (s s' t t' : State), i ≠ .rdreg 0#24 → sameButFlags s s' →
    exec i s = .next t → exec i s' = .next t' → sameButFlags t t'

/-- Each memory is written only by the commands 10_state.md R30 lists for it (and replaced by RESET and
CONFIG). -/
def Obligations.MemoryWriters : Prop :=
  ∀ (i : Instr) (m : MemId) (s t : State), mayWrite i m = false → exec i s = .next t → t.mem m = s.mem m

/-- Who writes which register and flag: LOG2N and CFGD only CONFIG and RESET, ROVER those and PUSH, CYC
those, PUSH and CYCLE, the parameter registers only WRREG to them and RESET, and a sticky flag is cleared
only by CLRERR and RESET (10_state.md R23, R26, R27). -/
def Obligations.RegisterWriters : Prop :=
  ∀ (i : Instr) (s t : State), exec i s = .next t → i ≠ .reset →
    ((∀ p, i ≠ .config p) → t.log2n = s.log2n ∧ t.cfgd = s.cfgd) ∧
    ((∀ p, i ≠ .config p) → (∀ v, i ≠ .push v) → t.rover = s.rover) ∧
    ((∀ p, i ≠ .config p) → (∀ v, i ≠ .push v) → i ≠ .cycle → t.cyc = s.cyc) ∧
    ((∀ v, i ≠ .wrreg 2#24 v) → t.osamp = s.osamp) ∧
    ((∀ v, i ≠ .wrreg 3#24 v) → t.srate = s.srate) ∧
    ((∀ v, i ≠ .wrreg 4#24 v) → t.ratio = s.ratio) ∧
    (i ≠ .clrerr → ∀ e : Err, stickyFlag e s = true → stickyFlag e t = true)

/-- SETUP from an unconfigured engine: the three commands answer OK and leave the engine configured
(30_encoding.md R102; 70_reset_and_hazards.md R273). The bound 13 is the model's LOG2N_MAX (log 5). -/
def Obligations.SetupConfigures : Prop :=
  ∀ (s : State) (p : BitVec 5) (osamp srate : Word), s.cfgd = false → 1 ≤ p.toNat → p.toNat ≤ 13 →
    osamp.toNat ∈ [1, 2, 4, 8, 16, 32] → osamp.toNat ≤ 2 ^ p.toNat →
    1 ≤ srate.toNat → srate.toNat ≤ 0x7F7FFFFF →
    ∃ t : State, runCommands (setupCommands p osamp srate) s =
        (t, [⟨0#4, 0#32⟩, ⟨0#4, 0#32⟩, ⟨0#4, 0#32⟩]) ∧
      t.cfgd = true ∧ t.log2n = p ∧ t.osamp.toNat = osamp.toNat ∧ t.srate = srate ∧ t.ratio = s.ratio ∧
      t.rover.toNat = 2 ^ p.toNat - 2 ^ p.toNat / osamp.toNat

/-- Several engines share nothing: a step of one moves that one and leaves every other as it was
(60_exceptions.md R256). -/
def Obligations.EnginesShareNothing : Prop :=
  ∀ (sys : EngineSystem) (k : Nat) (s t : State), sys[k]? = some s → step s = .next t →
    ∃ sys' : EngineSystem, stepEngine k sys = .next sys' ∧ sys'[k]? = some t ∧
      ∀ j : Nat, j ≠ k → sys'[j]? = sys[j]?

/-! ### Arithmetic -/

/-- The four operations on finite operands are the exact real results, rounded once to nearest, ties to
even (00_scope.md R10). The sign of an exact zero sum, and that a result which underflows to zero keeps the
sign of the exact one, are the model's reading of IEEE 754 (log 9, DEDUCED). -/
def Obligations.ArithmeticIsCorrectlyRounded : Prop :=
  ∀ (nm : Numerics) (a b : Sys2Proof.Num), isFin a = true → isFin b = true →
    (numReal a + numReal b ≠ 0 → roundsTo (numAdd nm a b) (numReal a + numReal b)) ∧
    (numReal a + numReal b = 0 →
      isZero (numAdd nm a b) = true ∧ numSign (numAdd nm a b) = (numSign a && numSign b)) ∧
    (numReal a - numReal b ≠ 0 → roundsTo (numSub nm a b) (numReal a - numReal b)) ∧
    (numReal a - numReal b = 0 →
      isZero (numSub nm a b) = true ∧ numSign (numSub nm a b) = (numSign a && !numSign b)) ∧
    (numReal a * numReal b ≠ 0 → roundsTo (numMul nm a b) (numReal a * numReal b)) ∧
    (numReal a * numReal b = 0 →
      isZero (numMul nm a b) = true ∧ numSign (numMul nm a b) = (numSign a != numSign b)) ∧
    (numReal b ≠ 0 → numReal a ≠ 0 → roundsTo (numDiv nm a b) (numReal a / numReal b)) ∧
    (numReal b ≠ 0 → numReal a = 0 →
      isZero (numDiv nm a b) = true ∧ numSign (numDiv nm a b) = (numSign a != numSign b))

/-- Square root and floor of finite operands: the root correctly rounded, the floor exact
(00_scope.md R10). That the root of -0.0 is -0.0 is deduced from 93_implementation_defined.md G1 (log 9,
DEDUCED). -/
def Obligations.RootAndFloorAreExact : Prop :=
  ∀ (nm : Numerics) (a : Sys2Proof.Num), isFin a = true →
    (0 < numReal a → roundsTo (numSqrt nm a) (Real.sqrt (numReal a))) ∧
    (isZero a = true → numSqrt nm a = a ∧ numFloor nm a = a) ∧
    isFin (numFloor nm a) = true ∧ numReal (numFloor nm a) = (⌊numReal a⌋ : ℝ)

/-- Zeros, infinities and NaNs: the IEEE 754 results and comparisons, an infinity on either side of a
finite operand and beside another infinity (00_scope.md R10; 93_implementation_defined.md G1). -/
def Obligations.IeeeSpecialValues : Prop :=
  ∀ (nm : Numerics) (a b : Sys2Proof.Num),
    (isNaN a = true ∨ isNaN b = true →
      isNaN (numAdd nm a b) = true ∧ isNaN (numSub nm a b) = true ∧ isNaN (numMul nm a b) = true ∧
      isNaN (numDiv nm a b) = true ∧ numLe a b = false ∧ numGe a b = false) ∧
    (isNaN a = true → isNaN (numSqrt nm a) = true ∧ isNaN (numFloor nm a) = true) ∧
    (isInf a = true → isInf b = true → isNaN (numDiv nm a b) = true ∧
      isInf (numMul nm a b) = true ∧ numSign (numMul nm a b) = (numSign a != numSign b) ∧
      (numSign a ≠ numSign b → isNaN (numAdd nm a b) = true ∧ numSub nm a b = a) ∧
      (numSign a = numSign b → isNaN (numSub nm a b) = true ∧ numAdd nm a b = a)) ∧
    (isInf a = true → isFin b = true →
      numAdd nm a b = a ∧ numAdd nm b a = a ∧ numSub nm a b = a ∧ numSub nm b a = numNeg a ∧
      isInf (numDiv nm a b) = true ∧ numSign (numDiv nm a b) = (numSign a != numSign b) ∧
      isZero (numDiv nm b a) = true ∧ numSign (numDiv nm b a) = (numSign b != numSign a)) ∧
    (isInf a = true → isZero b = true →
      isNaN (numMul nm a b) = true ∧ isNaN (numMul nm b a) = true) ∧
    (isInf a = true → isFin b = true → isZero b = false →
      isInf (numMul nm a b) = true ∧ numSign (numMul nm a b) = (numSign a != numSign b) ∧
      isInf (numMul nm b a) = true ∧ numSign (numMul nm b a) = (numSign b != numSign a)) ∧
    (isInf a = true → numFloor nm a = a ∧ (numSign a = false → numSqrt nm a = a)) ∧
    (isInf a = true → isNaN b = false →
      (numLe a b = true ↔ numSign a = true ∨ b = a) ∧ (numGe a b = true ↔ numSign a = false ∨ b = a) ∧
      (numLe b a = true ↔ numSign a = false ∨ b = a) ∧ (numGe b a = true ↔ numSign a = true ∨ b = a)) ∧
    (isZero a = true → isZero b = true → isNaN (numDiv nm a b) = true) ∧
    (isFin a = true → isZero a = false → isZero b = true → isInf (numDiv nm a b) = true ∧
      numSign (numDiv nm a b) = (numSign a != numSign b)) ∧
    (numSign a = true → isNaN a = false → isZero a = false → isNaN (numSqrt nm a) = true) ∧
    (isFin a = true → isFin b = true → (numLe a b = true ↔ numReal a ≤ numReal b) ∧
      (numGe a b = true ↔ numReal b ≤ numReal a))

/-- The limits of NUMERICS hold for every choice of its functions: P-NAN, P-ZERO, P-RANGE, and `PI` is the
smallest Num not below π (00_scope.md R11). How the open functions are kept within the limits is the
model's choice (log 6). -/
def Obligations.NumericsWithinLimits : Prop :=
  ∀ (nm : Numerics) (a b : Sys2Proof.Num),
    (isNaN a = true ∨ isInf a = true → isNaN (numSin nm a) = true ∧ isNaN (numCos nm a) = true) ∧
    (isNaN a = true ∨ isNaN b = true → isNaN (numAtan2 nm a b) = true) ∧
    (isZero a = true → numCos nm a = 0x3F800000#32) ∧
    numSin nm 0x00000000#32 = 0x00000000#32 ∧
    (isNaN a = false → numSign a = false → numAtan2 nm 0x00000000#32 a = 0x00000000#32) ∧
    (isFin a = true → isFin (numSin nm a) = true ∧ |numReal (numSin nm a)| ≤ 1 ∧
      isFin (numCos nm a) = true ∧ |numReal (numCos nm a)| ≤ 1) ∧
    (isFin a = true → isFin b = true →
      isFin (numAtan2 nm a b) = true ∧ |numReal (numAtan2 nm a b)| ≤ numReal numPi) ∧
    Real.pi ≤ numReal numPi ∧
    ∀ c : Sys2Proof.Num, isFin c = true → Real.pi ≤ numReal c → numReal numPi ≤ numReal c

/-- The landmarks of the ROMs for every frame size: ends, middle, quarters, symmetry and range of the
window, and the pairs of no turn and of a quarter turn (10_state.md R37, R38). -/
def Obligations.RomLandmarks : Prop :=
  ∀ p : Nat, 1 ≤ p → p ≤ 23 →
    winConst (2 ^ p) 0 = 0x00000000#32 ∧
    winConst (2 ^ p) (2 ^ p / 2) = 0x3F800000#32 ∧
    (2 ≤ p → winConst (2 ^ p) (2 ^ p / 4) = 0x3F000000#32 ∧
      winConst (2 ^ p) (3 * (2 ^ p / 4)) = 0x3F000000#32) ∧
    (∀ k : Nat, 1 ≤ k → k < 2 ^ p → winConst (2 ^ p) k = winConst (2 ^ p) (2 ^ p - k)) ∧
    (∀ k : Nat, k < 2 ^ p → isFin (winConst (2 ^ p) k) = true ∧
      0 ≤ numReal (winConst (2 ^ p) k) ∧ numReal (winConst (2 ^ p) k) ≤ 1) ∧
    twConst (2 ^ p) 0 = 0x3F800000#32 ∧ twConst (2 ^ p) 1 = 0x00000000#32 ∧
    (2 ≤ p → twConst (2 ^ p) (2 ^ p / 2) = 0x00000000#32 ∧
      twConst (2 ^ p) (2 ^ p / 2 + 1) = 0x3F800000#32)

/-- Every element of the ROMs, for every frame size, is a finite Num within 2^-24 of the real number the
spec defines it by: the window, and cosine and sine of the angle of each twiddle pair (10_state.md R37, R38).
The spec asks for the nearest Num. This statement says less, because it is the model's computation that
makes it the nearest (log 10). -/
def Obligations.RomElementsAreAccurate : Prop :=
  ∀ p : Nat, 1 ≤ p → p ≤ 23 →
    (∀ k : Nat, k < 2 ^ p → isFin (winConst (2 ^ p) k) = true ∧
      |numReal (winConst (2 ^ p) k) - (1 / 2 - Real.cos (2 * Real.pi * k / 2 ^ p) / 2)| ≤ 1 / 2 ^ 24) ∧
    (∀ j : Nat, j < 2 ^ p / 2 →
      isFin (twConst (2 ^ p) (2 * j)) = true ∧ isFin (twConst (2 ^ p) (2 * j + 1)) = true ∧
      |numReal (twConst (2 ^ p) (2 * j)) - Real.cos (2 * Real.pi * j / 2 ^ p)| ≤ 1 / 2 ^ 24 ∧
      |numReal (twConst (2 ^ p) (2 * j + 1)) - Real.sin (2 * Real.pi * j / 2 ^ p)| ≤ 1 / 2 ^ 24)

end
end

