-- ==== Sys2Proof/Laws/Elementary.lean ====
section
/-! SUPPORT. What keeping a function of NUMERICS within the limits of 00_scope.md R11 can answer. -/

namespace Sys2Proof.Machine

/-- `admissible` says: finite, within one unit in the last place wherever the exact value lies, and within
the range. -/
theorem admissible_iff {raw : Num} {v : Int} {bound : Nat} :
    admissible raw v bound = true ↔ isFin raw = true ∧
      (numVal raw * fxLeast - v).natAbs + fxError v ≤ fxUlp (v.natAbs - fxError v) * fxLeast ∧
      numMag raw ≤ bound := by
  unfold admissible
  rw [Bool.and_eq_true, Bool.and_eq_true, decide_eq_true_iff, decide_eq_true_iff, and_assoc]

/-- All that `withinLimits` can answer: the admissible value itself, or the exact value rounded. -/
theorem withinLimits_cases (raw : Num) (zneg : Bool) (v : Int) (bound : Nat) :
    (admissible raw v bound = true ∧ withinLimits raw zneg v bound = raw) ∨
      (admissible raw v bound = false ∧ withinLimits raw zneg v bound = fxRound zneg v) := by
  unfold withinLimits
  cases admissible raw v bound
  · exact .inr ⟨rfl, rfl⟩
  · exact .inl ⟨rfl, rfl⟩

@[simp] theorem withinLimits_of_admissible {raw : Num} {zneg : Bool} {v : Int} {bound : Nat}
    (h : admissible raw v bound = true) : withinLimits raw zneg v bound = raw := by
  rw [withinLimits, if_pos h]

end Sys2Proof.Machine
end

