-- ==== Sys2Proof/Laws/Float.lean ====
section
/-! SUPPORT. The binary32 patterns and the rounding function. -/

namespace Sys2Proof.Machine

/-- The absolute value of the 31-bit pattern `b`, in units of 2^-149. -/
def magOf (b : Nat) : Nat :=
  if b / 2 ^ 23 = 0 then b % 2 ^ 23 else (2 ^ 23 + b % 2 ^ 23) * 2 ^ (b / 2 ^ 23 - 1)

theorem packNum_toNat (neg : Bool) {b : Nat} (h : b < 2 ^ 31) :
    (packNum neg b).toNat = (if neg then 2 ^ 31 else 0) + b := by
  unfold packNum
  rw [BitVec.toNat_ofNat, Nat.mod_eq_of_lt]
  cases neg <;> simp <;> omega

theorem numSign_eq (a : Num) : numSign a = decide (2 ^ 31 ≤ a.toNat) := by
  unfold numSign
  rw [BitVec.msb_eq_decide]

@[simp] theorem numSign_packNum (neg : Bool) {b : Nat} (h : b < 2 ^ 31) :
    numSign (packNum neg b) = neg := by
  rw [numSign_eq, packNum_toNat neg h]
  cases neg <;> simp <;> omega

theorem numExp_packNum (neg : Bool) {b : Nat} (h : b < 2 ^ 31) :
    numExp (packNum neg b) = b / 2 ^ 23 := by
  unfold numExp
  rw [packNum_toNat neg h]
  cases neg <;> simp <;> omega

theorem numFrac_packNum (neg : Bool) {b : Nat} (h : b < 2 ^ 31) :
    numFrac (packNum neg b) = b % 2 ^ 23 := by
  unfold numFrac
  rw [packNum_toNat neg h]
  cases neg <;> simp <;> omega

theorem numMag_packNum (neg : Bool) {b : Nat} (h : b < 2 ^ 31) :
    numMag (packNum neg b) = magOf b := by
  unfold numMag magOf
  rw [numExp_packNum neg h, numFrac_packNum neg h]

theorem numMag_eq_magOf (a : Num) : numMag a = magOf (a.toNat % 2 ^ 31) := by
  have h1 : numExp a = a.toNat % 2 ^ 31 / 2 ^ 23 := by unfold numExp; omega
  have h2 : numFrac a = a.toNat % 2 ^ 31 % 2 ^ 23 := by unfold numFrac; omega
  unfold numMag magOf
  rw [h1, h2]

/-- A Num is its sign and its 31-bit pattern. -/
theorem packNum_self (a : Num) : packNum (numSign a) (a.toNat % 2 ^ 31) = a := by
  apply BitVec.eq_of_toNat_eq
  rw [packNum_toNat _ (Nat.mod_lt _ (by decide)), numSign_eq]
  have := a.isLt
  by_cases h : 2 ^ 31 ≤ a.toNat
  · simp only [h, decide_true, if_true]; omega
  · simp only [h, decide_false, Bool.false_eq_true, if_false]; omega

theorem isNaN_packNum (neg : Bool) {b : Nat} (h : b ≤ infMag) : isNaN (packNum neg b) = false := by
  have hb : b < 2 ^ 31 := by unfold infMag at h; omega
  unfold isNaN
  rw [numExp_packNum neg hb, numFrac_packNum neg hb]
  unfold infMag at h
  by_cases h1 : b / 2 ^ 23 = 255
  · have h2 : b % 2 ^ 23 = 0 := by omega
    rw [h2, bne_self_eq_false, Bool.and_false]
  · rw [beq_false_of_ne h1, Bool.false_and]

theorem isFin_packNum (neg : Bool) {b : Nat} (h : b < infMag) : isFin (packNum neg b) = true := by
  have hb : b < 2 ^ 31 := by unfold infMag at h; omega
  unfold isFin
  rw [numExp_packNum neg hb]
  unfold infMag at h
  have : b / 2 ^ 23 ≠ 255 := by omega
  simpa using this

theorem isFin_iff (a : Num) : isFin a = true ↔ a.toNat % 2 ^ 31 < infMag := by
  have h1 : numExp a = a.toNat % 2 ^ 31 / 2 ^ 23 := by unfold numExp; omega
  unfold isFin infMag
  rw [h1]
  simp only [bne_iff_ne, ne_eq]
  omega

theorem isNaN_of_isFin {a : Num} (h : isFin a = true) : isNaN a = false := by
  unfold isFin at h
  unfold isNaN
  have : numExp a ≠ 255 := by simpa using h
  simp [this]

theorem isInf_of_isFin {a : Num} (h : isFin a = true) : isInf a = false := by
  unfold isFin at h
  unfold isInf
  have : numExp a ≠ 255 := by simpa using h
  simp [this]

/-- A Num is a NaN, an infinity or finite, exactly one of the three. -/
theorem num_cases (a : Num) :
    (isNaN a = true ∧ isInf a = false ∧ isFin a = false) ∨
      (isNaN a = false ∧ isInf a = true ∧ isFin a = false) ∨
      (isNaN a = false ∧ isInf a = false ∧ isFin a = true) := by
  unfold isNaN isInf isFin
  by_cases h1 : numExp a = 255 <;> by_cases h2 : numFrac a = 0 <;> simp [h1, h2]

theorem roundMag_le (num den : Nat) : roundMag num den ≤ infMag := Nat.min_le_right _ _

theorem roundMag_lt (num den : Nat) : roundMag num den < 2 ^ 31 :=
  Nat.lt_of_le_of_lt (roundMag_le _ _) (by decide)

/-- A result of rounding is never a NaN. -/
@[simp] theorem isNaN_packNum_roundMag (neg : Bool) (num den : Nat) :
    isNaN (packNum neg (roundMag num den)) = false := isNaN_packNum neg (roundMag_le _ _)

/-- Rounding a value that fits is exact: `m * 2^s` with `m` of at most 24 bits. -/
theorem roundMag_exact {m s den : Nat} (hd : 0 < den) (hm : m < 2 ^ 24)
    (hs : s = 0 ∨ 2 ^ 23 ≤ m) : roundMag (m * 2 ^ s * den) den = min (s * 2 ^ 23 + m) infMag := by
  have hq : m * 2 ^ s * den / den = m * 2 ^ s := Nat.mul_div_cancel _ hd
  have hlog : (m * 2 ^ s).log2 - 23 = s := by
    rcases hs with hs | hs
    · subst hs
      rw [Nat.pow_zero, Nat.mul_one]
      by_cases h0 : m = 0
      · subst h0; decide
      · have : m.log2 < 24 := (Nat.log2_lt h0).mpr hm
        omega
    · have h1 : 23 ≤ m.log2 := (Nat.le_log2 (by omega)).mpr hs
      have h2 : m.log2 < 24 := (Nat.log2_lt (by omega)).mpr hm
      have h3 : 23 + s ≤ (m * 2 ^ s).log2 :=
        (Nat.le_log2 (Nat.mul_ne_zero (by omega) (Nat.two_pow_pos _).ne')).mpr
          (by rw [Nat.pow_add]; exact Nat.mul_le_mul_right _ hs)
      have h4 : (m * 2 ^ s).log2 < 24 + s :=
        (Nat.log2_lt (Nat.mul_ne_zero (by omega) (Nat.two_pow_pos _).ne')).mpr
          (by rw [Nat.pow_add]; exact Nat.mul_lt_mul_of_pos_right hm (Nat.two_pow_pos _))
      omega
  unfold roundMag
  simp only [hq, hlog]
  have hds : 0 < den * 2 ^ s := Nat.mul_pos hd (Nat.two_pow_pos _)
  have he : m * 2 ^ s * den = m * (den * 2 ^ s) := by
    rw [Nat.mul_assoc, Nat.mul_comm (2 ^ s) den]
  rw [he, Nat.mul_div_cancel _ hds, Nat.mul_mod_left]
  rw [if_neg]
  simp only [Nat.mul_zero, Nat.not_lt_zero, false_or, not_and]
  omega

/-- The 31-bit pattern of a finite number is what its value rounds to. -/
theorem roundMag_magOf {b den : Nat} (hd : 0 < den) (hb : b < infMag) :
    roundMag (magOf b * den) den = b := by
  unfold magOf
  unfold infMag at hb
  split
  · next h =>
    have h1 := roundMag_exact (m := b % 2 ^ 23) (s := 0) hd (by omega) (.inl rfl)
    rw [Nat.pow_zero, Nat.mul_one] at h1
    rw [h1]
    unfold infMag
    omega
  · next h =>
    rw [roundMag_exact hd (by omega) (.inr (by omega))]
    unfold infMag
    omega

@[simp] theorem roundMag_zero (den : Nat) : roundMag 0 den = 0 := by
  unfold roundMag
  simp [infMag, show Nat.log2 0 = 0 from rfl]

theorem magOf_pos {b : Nat} (h : 0 < b) : 0 < magOf b := by
  unfold magOf
  split
  · omega
  · exact Nat.mul_pos (by omega) (Nat.two_pow_pos _)

/-- The value of a pattern `s * 2^23 + m` with a normalised or subnormal significand `m`. -/
theorem magOf_scale {m s : Nat} (hm : m < 2 ^ 24) (hs : s = 0 ∨ 2 ^ 23 ≤ m) :
    magOf (s * 2 ^ 23 + m) = m * 2 ^ s := by
  unfold magOf
  by_cases h : m < 2 ^ 23
  · have hs0 : s = 0 := by omega
    subst hs0
    rw [if_pos (by omega)]
    simp only [Nat.zero_mul, Nat.zero_add, Nat.pow_zero, Nat.mul_one]
    omega
  · have h1 : (s * 2 ^ 23 + m) / 2 ^ 23 = s + 1 := by omega
    have h2 : (s * 2 ^ 23 + m) % 2 ^ 23 = m - 2 ^ 23 := by omega
    rw [h1, h2, if_neg (by omega), Nat.add_sub_cancel, Nat.add_sub_cancel' (by omega)]

/-- A representable magnitude below overflow is kept by rounding. -/
theorem magOf_roundMag_exact {m s den : Nat} (hd : 0 < den) (hm : m < 2 ^ 24)
    (hs : s = 0 ∨ 2 ^ 23 ≤ m) (hov : s * 2 ^ 23 + m < infMag) :
    magOf (roundMag (m * 2 ^ s * den) den) = m * 2 ^ s := by
  rw [roundMag_exact hd hm hs, Nat.min_eq_left (by omega), magOf_scale hm hs]

/-- A finite Num has a pattern below infinity, and rounding its value gives it back. -/
theorem packNum_roundMag_self {a : Num} (h : isFin a = true) :
    packNum (numSign a) (roundMag (numMag a) 1) = a := by
  have h1 := (isFin_iff a).mp h
  have h2 := roundMag_magOf (den := 1) (by decide) h1
  rw [Nat.mul_one] at h2
  rw [numMag_eq_magOf, h2, packNum_self]

/-- The value of a power of two or of an integer of at most 24 bits, converted. -/
theorem numMag_numOfNat {i : Nat} (h : i ≤ 2 ^ 24) : numMag (numOfNat i) = i * 2 ^ 149 := by
  unfold numOfNat
  rw [numMag_packNum _ (roundMag_lt _ _)]
  by_cases h0 : i = 0
  · subst h0
    rw [Nat.zero_mul, roundMag_zero]
    decide
  · have hlt : i.log2 ≤ 24 := by
      rcases Nat.lt_or_ge i (2 ^ 24) with h1 | h1
      · have := (Nat.log2_lt h0).mpr h1
        omega
      · have : i = 2 ^ 24 := by omega
        subst this
        rw [Nat.log2_two_pow]
    rcases Nat.lt_or_ge i.log2 24 with h1 | h1
    · have hm1 : 2 ^ 23 ≤ i * 2 ^ (23 - i.log2) := by
        have := Nat.log2_self_le h0
        calc 2 ^ 23 = 2 ^ i.log2 * 2 ^ (23 - i.log2) := by rw [← Nat.pow_add]; congr 1; omega
          _ ≤ _ := Nat.mul_le_mul_right _ this
      have hm2 : i * 2 ^ (23 - i.log2) < 2 ^ 24 := by
        have : i < 2 ^ (i.log2 + 1) := Nat.lt_log2_self
        calc i * 2 ^ (23 - i.log2) < 2 ^ (i.log2 + 1) * 2 ^ (23 - i.log2) :=
              Nat.mul_lt_mul_of_pos_right this (Nat.two_pow_pos _)
          _ = 2 ^ 24 := by rw [← Nat.pow_add]; congr 1; omega
      have he : i * 2 ^ 149 = i * 2 ^ (23 - i.log2) * 2 ^ (126 + i.log2) := by
        rw [Nat.mul_assoc, ← Nat.pow_add]
        congr 2
        omega
      have h3 := magOf_roundMag_exact (den := 1) (s := 126 + i.log2) (by decide) hm2 (.inr hm1)
        (by unfold infMag; omega)
      rw [Nat.mul_one, ← he] at h3
      exact h3
    · have : i = 2 ^ 24 := by
        have := Nat.log2_self_le h0
        have h2 : 2 ^ 24 ≤ 2 ^ i.log2 := Nat.pow_le_pow_right (by decide) h1
        omega
      subst this
      have h3 := magOf_roundMag_exact (m := 2 ^ 23) (den := 1) (s := 150) (by decide) (by decide)
        (.inr (by decide)) (by decide)
      rw [Nat.mul_one] at h3
      have he : 2 ^ 24 * 2 ^ 149 = 2 ^ 23 * 2 ^ 150 := by decide
      rw [he]
      exact h3

theorem numSign_numOfNat (i : Nat) : numSign (numOfNat i) = false :=
  numSign_packNum false (roundMag_lt _ _)

theorem isNaN_numOfNat (i : Nat) : isNaN (numOfNat i) = false := isNaN_packNum_roundMag _ _ _

/-- `num(i)` is exact (00_scope.md R10). -/
theorem numVal_numOfNat {i : Nat} (h : i ≤ 2 ^ 24) : numVal (numOfNat i) = (i : Int) * 2 ^ 149 := by
  unfold numVal
  rw [numSign_numOfNat, numMag_numOfNat h]
  push_cast
  simp

/-! ### NaN results -/

theorem quietNaN_toNat (x : BitVec 23) : (quietNaN x).toNat =
    ((x.toNat / 2 ^ 22 * 2 ^ 8 + 255) * 2 + 1) * 2 ^ 22 + x.toNat % 2 ^ 22 := by
  have h1 : (x.extractLsb' 22 1).toNat = x.toNat / 2 ^ 22 := by
    rw [BitVec.extractLsb'_toNat, Nat.shiftRight_eq_div_pow, Nat.mod_eq_of_lt]
    have := x.isLt
    omega
  have h2 : (x.extractLsb' 0 22).toNat = x.toNat % 2 ^ 22 := by
    rw [BitVec.extractLsb'_toNat, Nat.shiftRight_eq_div_pow, Nat.pow_zero, Nat.div_one]
  unfold quietNaN
  rw [BitVec.toNat_append, BitVec.toNat_append, BitVec.toNat_append, h1, h2,
    ← Nat.shiftLeft_add_eq_or_of_lt (Nat.mod_lt _ (by decide)),
    ← Nat.shiftLeft_add_eq_or_of_lt (by decide), ← Nat.shiftLeft_add_eq_or_of_lt (by decide)]
  rw [Nat.shiftLeft_eq, Nat.shiftLeft_eq, Nat.shiftLeft_eq]
  rfl

/-- Every NaN result is a quiet NaN (00_scope.md R10). -/
@[simp] theorem isNaN_quietNaN (x : BitVec 23) : isNaN (quietNaN x) = true := by
  have h := quietNaN_toNat x
  have hx := x.isLt
  unfold isNaN numExp numFrac
  have h1 : (quietNaN x).toNat / 2 ^ 23 % 2 ^ 8 = 255 := by omega
  have h2 : (quietNaN x).toNat % 2 ^ 23 ≠ 0 := by omega
  rw [Bool.and_eq_true, h1]
  exact ⟨rfl, bne_iff_ne.mpr h2⟩

@[simp] theorem isNaN_nanResult (nm : Numerics) (op : NumOp) (a b : Num) :
    isNaN (nanResult nm op a b) = true := isNaN_quietNaN _

/-- A sum with a NaN operand is a NaN. -/
theorem addAs_nan {nm : Numerics} {op : NumOp} {a b : Num} (h : isNaN a = true ∨ isNaN b = true) :
    isNaN (addAs nm op a b) = true := by
  unfold addAs
  rw [if_pos (by simpa using h), isNaN_nanResult]

theorem numMul_nan {nm : Numerics} {a b : Num} (h : isNaN a = true ∨ isNaN b = true) :
    isNaN (numMul nm a b) = true := by
  unfold numMul
  simp only
  rw [if_pos (by simpa using h), isNaN_nanResult]

theorem numDiv_nan {nm : Numerics} {a b : Num} (h : isNaN a = true ∨ isNaN b = true) :
    isNaN (numDiv nm a b) = true := by
  unfold numDiv
  simp only
  rw [if_pos (by simpa using h), isNaN_nanResult]

/-- The sum of finite operands: the exact sum rounded once. -/
theorem addAs_fin {nm : Numerics} {op : NumOp} {a b : Num} (ha : isFin a = true) (hb : isFin b = true) :
    addAs nm op a b =
      if numVal a + numVal b = 0 then packNum (numSign a && numSign b) 0
      else packNum (decide (numVal a + numVal b < 0)) (roundMag (numVal a + numVal b).natAbs 1) := by
  unfold addAs
  simp [isNaN_of_isFin ha, isNaN_of_isFin hb, isInf_of_isFin ha, isInf_of_isFin hb]

/-- The product of finite operands: the exact product rounded once. -/
theorem numMul_fin {nm : Numerics} {a b : Num} (ha : isFin a = true) (hb : isFin b = true) :
    numMul nm a b =
      packNum (numSign a != numSign b) (roundMag (numMag a * numMag b) (2 ^ 149)) := by
  unfold numMul
  simp [isNaN_of_isFin ha, isNaN_of_isFin hb, isInf_of_isFin ha, isInf_of_isFin hb]

/-- The quotient of finite operands, the divisor not zero: the exact quotient rounded once. -/
theorem numDiv_fin {nm : Numerics} {a b : Num} (ha : isFin a = true) (hb : isFin b = true)
    (hz : isZero b = false) :
    numDiv nm a b =
      packNum (numSign a != numSign b) (roundMag (numMag a * 2 ^ 149) (numMag b)) := by
  unfold numDiv
  simp [isNaN_of_isFin ha, isNaN_of_isFin hb, isInf_of_isFin ha, isInf_of_isFin hb, hz]

theorem isZero_iff (a : Num) : isZero a = true ↔ a.toNat % 2 ^ 31 = 0 := by
  unfold isZero numExp numFrac
  simp only [Bool.and_eq_true, beq_iff_eq]
  omega

/-- A finite Num is zero exactly when its magnitude is. -/
theorem numMag_eq_zero {a : Num} : numMag a = 0 ↔ isZero a = true := by
  rw [isZero_iff, numMag_eq_magOf]
  constructor
  · intro h
    by_contra hne
    have := magOf_pos (Nat.pos_of_ne_zero hne)
    omega
  · intro h
    rw [h]; decide

theorem isFin_of_isZero {a : Num} (h : isZero a = true) : isFin a = true := by
  rw [isFin_iff, (isZero_iff a).mp h]; decide

end Sys2Proof.Machine
end

