-- ==== Sys2Proof/Laws/Loop.lean ====
section
/-! SUPPORT. Lemmas about the loop of the rules' pseudocode. -/

namespace Sys2Proof.Machine

variable {α β : Type} (f : Nat → α → α)

@[simp] theorem loop_zero (lo : Nat) (x : α) : loop f lo 0 x = x := rfl

theorem loop_succ (lo n : Nat) (x : α) : loop f lo (n + 1) x = loop f (lo + 1) n (f lo x) := rfl

/-- A loop in two parts. -/
theorem loop_add (lo m n : Nat) (x : α) :
    loop f lo (m + n) x = loop f (lo + m) n (loop f lo m x) := by
  induction m generalizing lo x with
  | zero => simp
  | succ m ih =>
    rw [Nat.succ_add, loop_succ, ih, loop_succ]
    congr 1
    omega

/-- The last round of a loop. -/
theorem loop_succ_last (lo n : Nat) (x : α) :
    loop f lo (n + 1) x = f (lo + n) (loop f lo n x) := by
  rw [loop_add]; rfl

/-- Induction over the rounds of a loop: `P j` holds after `j` rounds. -/
theorem loop_induct {P : Nat → α → Prop} (lo n : Nat) (x : α) (h0 : P 0 x)
    (hs : ∀ j y, j < n → P j y → P (j + 1) (f (lo + j) y)) : P n (loop f lo n x) := by
  induction n with
  | zero => exact h0
  | succ n ih =>
    rw [loop_succ_last]
    exact hs n _ (by omega) (ih fun j y hj => hs j y (by omega))

/-- What every round keeps, the loop keeps. -/
theorem loop_keeps {P : α → Prop} (lo n : Nat) (x : α) (h0 : P x)
    (hs : ∀ k y, lo ≤ k → k < lo + n → P y → P (f k y)) : P (loop f lo n x) :=
  loop_induct f (P := fun _ y => P y) lo n x h0 fun j y hj hy => hs _ y (by omega) (by omega) hy

/-- Two loops whose rounds agree on the states that occur give the same. -/
theorem loop_congr {g : Nat → α → α} (lo n : Nat) (x : α)
    (h : ∀ k y, lo ≤ k → k < lo + n → f k y = g k y) : loop f lo n x = loop g lo n x := by
  induction n with
  | zero => rfl
  | succ n ih =>
    rw [loop_succ_last, loop_succ_last, ih fun k y h1 h2 => h k y h1 (by omega)]
    exact h _ _ (by omega) (by omega)

/-- A map that commutes with every round commutes with the loop. -/
theorem loop_map {g : Nat → β → β} (π : α → β) (lo n : Nat) (x : α)
    (h : ∀ k y, lo ≤ k → k < lo + n → π (f k y) = g k (π y)) :
    π (loop f lo n x) = loop g lo n (π x) := by
  induction n with
  | zero => rfl
  | succ n ih =>
    rw [loop_succ_last, loop_succ_last, h _ _ (by omega) (by omega),
      ih fun k y h1 h2 => h k y h1 (by omega)]

/-- Two loops run side by side keep a relation that every round keeps. -/
theorem loop_rel {g : Nat → β → β} {R : α → β → Prop} (lo n : Nat) (x : α) (y : β) (h0 : R x y)
    (hs : ∀ k u v, lo ≤ k → k < lo + n → R u v → R (f k u) (g k v)) :
    R (loop f lo n x) (loop g lo n y) := by
  induction n with
  | zero => exact h0
  | succ n ih =>
    rw [loop_succ_last, loop_succ_last]
    exact hs _ _ _ (by omega) (by omega) (ih fun k u v h1 h2 => hs k u v h1 (by omega))

end Sys2Proof.Machine
end

