-- ==== Sys2Proof/Laws/Memory.lean ====
section
/-! SUPPORT. The laws of one memory: a read after a write, the canonical form, the depth, equality of
memories that read the same. -/

namespace Sys2Proof.Machine

@[simp] theorem Memory.read_nil (i : Nat) : Memory.read [] i = 0#32 := rfl

theorem Memory.read_cons (k : Nat) (a : Num) (m : Memory) (i : Nat) :
    Memory.read ((k, a) :: m) i = if i = k then a else Memory.read m i := by
  unfold Memory.read
  rw [List.lookup_cons]
  by_cases h : i = k
  · simp [h]
  · simp [h, beq_eq_false_iff_ne.mpr h]

theorem read_filter_ne (m : Memory) (i : Nat) :
    Memory.read (m.filter (fun c => c.1 != i)) i = 0#32 := by
  induction m with
  | nil => rfl
  | cons c m ih =>
    obtain ⟨k, a⟩ := c
    by_cases h : k = i
    · simp [h, ih]
    · rw [List.filter_cons_of_pos (by simp [h]), Memory.read_cons, if_neg (Ne.symm h), ih]

theorem read_filter_of_ne (m : Memory) {i j : Nat} (h : j ≠ i) :
    Memory.read (m.filter (fun c => c.1 != i)) j = Memory.read m j := by
  induction m with
  | nil => rfl
  | cons c m ih =>
    obtain ⟨k, a⟩ := c
    by_cases hk : k = i
    · rw [List.filter_cons_of_neg (by simp [hk]), Memory.read_cons, if_neg (by omega), ih]
    · rw [List.filter_cons_of_pos (by simp [hk]), Memory.read_cons, Memory.read_cons, ih]

theorem read_insertCell_self (i : Nat) (v : Num) (m : Memory)
    (h : ∀ c ∈ m, c.1 ≠ i) : Memory.read (insertCell i v m) i = v := by
  induction m with
  | nil => simp [insertCell, Memory.read_cons]
  | cons c m ih =>
    obtain ⟨k, a⟩ := c
    have hk : k ≠ i := h (k, a) (by simp)
    unfold insertCell
    split
    · simp [Memory.read_cons]
    · rw [Memory.read_cons, if_neg (Ne.symm hk), ih fun c hc => h c (by simp [hc])]

theorem read_insertCell_of_ne (v : Num) (m : Memory) {i j : Nat} (h : j ≠ i) :
    Memory.read (insertCell i v m) j = Memory.read m j := by
  induction m with
  | nil => simp [insertCell, Memory.read_cons, h]
  | cons c m ih =>
    obtain ⟨k, a⟩ := c
    unfold insertCell
    split
    · rw [Memory.read_cons, if_neg h]
    · rw [Memory.read_cons, Memory.read_cons, ih]

/-- A read after a write to the same index gives the value written. -/
@[simp] theorem Memory.read_write_self (m : Memory) (i : Nat) (v : Num) :
    (m.write i v).read i = v := by
  unfold Memory.write
  simp only
  split
  · next h => rw [read_filter_ne, h]
  · exact read_insertCell_self i v _ (by simp)

/-- A write leaves every other index alone. -/
theorem Memory.read_write_of_ne (m : Memory) (v : Num) {i j : Nat} (h : j ≠ i) :
    (m.write i v).read j = m.read j := by
  unfold Memory.write
  simp only
  split
  · exact read_filter_of_ne m h
  · rw [read_insertCell_of_ne _ _ h, read_filter_of_ne m h]

/-- What a memory reads after a write. -/
theorem Memory.read_write (m : Memory) (i j : Nat) (v : Num) :
    (m.write i v).read j = if j = i then v else m.read j := by
  split
  · next h => rw [h, Memory.read_write_self]
  · next h => exact Memory.read_write_of_ne m v h

theorem wfFrom_mono {m : Memory} {lo lo' : Nat} (h : lo' ≤ lo) (hm : wfFrom lo m = true) :
    wfFrom lo' m = true := by
  cases m with
  | nil => rfl
  | cons c m =>
    obtain ⟨k, a⟩ := c
    simp only [wfFrom, Bool.and_eq_true, decide_eq_true_eq] at hm ⊢
    exact ⟨⟨by omega, hm.1.2⟩, hm.2⟩

theorem wfFrom_filter {m : Memory} {lo : Nat} (p : Nat × Num → Bool) (hm : wfFrom lo m = true) :
    wfFrom lo (m.filter p) = true := by
  induction m generalizing lo with
  | nil => rfl
  | cons c m ih =>
    obtain ⟨k, a⟩ := c
    simp only [wfFrom, Bool.and_eq_true, decide_eq_true_eq] at hm
    by_cases hp : p (k, a) = true
    · rw [List.filter_cons_of_pos hp]
      simp only [wfFrom, Bool.and_eq_true, decide_eq_true_eq]
      exact ⟨hm.1, ih hm.2⟩
    · rw [List.filter_cons_of_neg hp]
      exact wfFrom_mono (by omega) (ih hm.2)

theorem wfFrom_insertCell {m : Memory} {lo i : Nat} {v : Num} (hv : v ≠ 0#32) (hi : lo ≤ i)
    (hm : wfFrom lo m = true) (hne : ∀ c ∈ m, c.1 ≠ i) : wfFrom lo (insertCell i v m) = true := by
  induction m generalizing lo with
  | nil => simp [insertCell, wfFrom, hv, hi]
  | cons c m ih =>
    obtain ⟨k, a⟩ := c
    have hk : k ≠ i := hne (k, a) (by simp)
    simp only [wfFrom, Bool.and_eq_true, decide_eq_true_eq] at hm
    unfold insertCell
    split
    · simp only [wfFrom, Bool.and_eq_true, decide_eq_true_eq]
      exact ⟨⟨hi, hv⟩, ⟨by omega, hm.1.2⟩, hm.2⟩
    · simp only [wfFrom, Bool.and_eq_true, decide_eq_true_eq]
      exact ⟨hm.1, ih (by omega) hm.2 fun c hc => hne c (by simp [hc])⟩

/-- A write keeps the canonical form. -/
theorem Memory.wf_write {m : Memory} (i : Nat) (v : Num) (hm : m.wf = true) :
    (m.write i v).wf = true := by
  unfold Memory.write
  simp only
  split
  · exact wfFrom_filter _ hm
  · next h => exact wfFrom_insertCell h (Nat.zero_le _) (wfFrom_filter _ hm) (by simp)

theorem Memory.within_iff (m : Memory) (d : Nat) :
    m.within d = true ↔ ∀ c ∈ m, c.1 < d := by
  simp [Memory.within]

theorem mem_insertCell {i : Nat} {v : Num} {m : Memory} {c : Nat × Num}
    (h : c ∈ insertCell i v m) : c = (i, v) ∨ c ∈ m := by
  induction m with
  | nil => simpa [insertCell] using h
  | cons b m ih =>
    obtain ⟨k, a⟩ := b
    unfold insertCell at h
    split at h
    · simpa using h
    · rcases List.mem_cons.mp h with h | h
      · exact .inr (by simp [h])
      · rcases ih h with h | h
        · exact .inl h
        · exact .inr (by simp [h])

/-- A write below the depth keeps the memory below its depth. -/
theorem Memory.within_write {m : Memory} {d i : Nat} (v : Num) (hi : i < d)
    (hm : m.within d = true) : (m.write i v).within d = true := by
  rw [Memory.within_iff] at hm ⊢
  unfold Memory.write
  simp only
  split
  · intro c hc
    exact hm c (List.mem_of_mem_filter hc)
  · intro c hc
    rcases mem_insertCell hc with h | h
    · simpa [h] using hi
    · exact hm c (List.mem_of_mem_filter h)

/-- A memory reads +0.0 at and above a depth it lies below. -/
theorem Memory.read_of_within {m : Memory} {d i : Nat} (hm : m.within d = true) (hi : d ≤ i) :
    m.read i = 0#32 := by
  rw [Memory.within_iff] at hm
  induction m with
  | nil => rfl
  | cons c m ih =>
    obtain ⟨k, a⟩ := c
    have hk : k < d := hm (k, a) (by simp)
    rw [Memory.read_cons, if_neg (by omega), ih fun c hc => hm c (by simp [hc])]

theorem Memory.within_mono {m : Memory} {d d' : Nat} (h : d ≤ d') (hm : m.within d = true) :
    m.within d' = true := by
  rw [Memory.within_iff] at hm ⊢
  exact fun c hc => Nat.lt_of_lt_of_le (hm c hc) h

theorem Memory.within_zero {m : Memory} (h : m.within 0 = true) : m = [] := by
  rw [Memory.within_iff] at h
  cases m with
  | nil => rfl
  | cons c m => exact absurd (h c (by simp)) (by omega)

theorem read_of_wfFrom {m : Memory} {lo i : Nat} (hm : wfFrom lo m = true) (hi : i < lo) :
    Memory.read m i = 0#32 := by
  induction m generalizing lo with
  | nil => rfl
  | cons c m ih =>
    obtain ⟨k, a⟩ := c
    simp only [wfFrom, Bool.and_eq_true, decide_eq_true_eq] at hm
    rw [Memory.read_cons, if_neg (by omega), ih hm.2 (by omega)]

theorem ext_of_wfFrom {m n : Memory} {lo : Nat} (hm : wfFrom lo m = true) (hn : wfFrom lo n = true)
    (h : ∀ i, Memory.read m i = Memory.read n i) : m = n := by
  induction m generalizing n lo with
  | nil =>
    cases n with
    | nil => rfl
    | cons c n =>
      obtain ⟨k, a⟩ := c
      simp only [wfFrom, Bool.and_eq_true, decide_eq_true_eq] at hn
      have := h k
      simp only [Memory.read_nil, Memory.read_cons, if_true] at this
      exact absurd this.symm hn.1.2
  | cons c m ih =>
    obtain ⟨k, a⟩ := c
    have hm' := hm
    simp only [wfFrom, Bool.and_eq_true, decide_eq_true_eq] at hm
    cases n with
    | nil =>
      have := h k
      simp only [Memory.read_nil, Memory.read_cons, if_true] at this
      exact absurd this hm.1.2
    | cons c' n =>
      obtain ⟨k', a'⟩ := c'
      have hn' := hn
      simp only [wfFrom, Bool.and_eq_true, decide_eq_true_eq] at hn
      have hk : k = k' := by
        by_contra hne
        rcases Nat.lt_or_gt_of_ne hne with hlt | hlt
        · have := h k
          rw [Memory.read_cons, if_pos rfl, Memory.read_cons, if_neg (by omega),
            read_of_wfFrom hn.2 (by omega)] at this
          exact hm.1.2 this
        · have := h k'
          rw [Memory.read_cons, if_neg (by omega), Memory.read_cons, if_pos rfl,
            read_of_wfFrom hm.2 (by omega)] at this
          exact hn.1.2 this.symm
      subst hk
      have ha : a = a' := by
        have := h k
        simpa [Memory.read_cons] using this
      subst ha
      congr 1
      refine ih hm.2 hn.2 fun i => ?_
      by_cases hi : i = k
      · rw [hi, read_of_wfFrom hm.2 (by omega), read_of_wfFrom hn.2 (by omega)]
      · have := h i
        rwa [Memory.read_cons, if_neg hi, Memory.read_cons, if_neg hi] at this

/-- Two canonical memories that read the same are the same data. -/
theorem Memory.ext_read {m n : Memory} (hm : m.wf = true) (hn : n.wf = true)
    (h : ∀ i, m.read i = n.read i) : m = n := ext_of_wfFrom hm hn h

theorem wfFrom_tabulateFrom (f : Nat → Num) (lo n : Nat) :
    wfFrom lo (tabulateFrom f lo n) = true := by
  induction n generalizing lo with
  | zero => rfl
  | succ n ih =>
    unfold tabulateFrom
    split
    · exact wfFrom_mono (by omega) (ih _)
    · next h =>
      simp only [wfFrom, Bool.and_eq_true, decide_eq_true_eq]
      exact ⟨⟨Nat.le_refl _, h⟩, ih _⟩

theorem within_tabulateFrom (f : Nat → Num) (lo n : Nat) :
    Memory.within (tabulateFrom f lo n) (lo + n) = true := by
  induction n generalizing lo with
  | zero => rfl
  | succ n ih =>
    have h := ih (lo + 1)
    rw [Memory.within_iff] at h ⊢
    unfold tabulateFrom
    split
    · intro c hc
      have := h c hc
      omega
    · intro c hc
      rcases List.mem_cons.mp hc with hc | hc
      · rw [hc]; simp
      · have := h c hc
        omega

theorem read_tabulateFrom (f : Nat → Num) (lo n i : Nat) :
    Memory.read (tabulateFrom f lo n) i = if lo ≤ i ∧ i < lo + n then f i else 0#32 := by
  induction n generalizing lo with
  | zero => simp [tabulateFrom]
  | succ n ih =>
    unfold tabulateFrom
    split
    · next h =>
      rw [ih]
      by_cases hi : i = lo
      · subst hi; simp [h]
      · congr 1
        simp only [eq_iff_iff]; omega
    · rw [Memory.read_cons, ih]
      by_cases hi : i = lo
      · subst hi; simp
      · rw [if_neg hi]
        congr 1
        simp only [eq_iff_iff]; omega

/-- A ROM is in canonical form. -/
theorem wf_tabulate (f : Nat → Num) (n : Nat) : Memory.wf (tabulate f n) = true :=
  wfFrom_tabulateFrom f 0 n

/-- A ROM lies below its depth. -/
theorem within_tabulate (f : Nat → Num) (n : Nat) : Memory.within (tabulate f n) n = true := by
  simpa [tabulate] using within_tabulateFrom f 0 n

/-- What a ROM reads. -/
theorem read_tabulate (f : Nat → Num) (n i : Nat) :
    Memory.read (tabulate f n) i = if i < n then f i else 0#32 := by
  simp [tabulate, read_tabulateFrom]

/-- Writes at the indices `lo .. lo + n - 1`, each of a value that does not depend on the memory. -/
theorem read_loop_write (v : Nat → Num) (lo n : Nat) (m : Memory) (i : Nat) :
    Memory.read (loop (fun k m => Memory.write m k (v k)) lo n m) i =
      if lo ≤ i ∧ i < lo + n then v i else m.read i := by
  induction n with
  | zero => simp
  | succ n ih =>
    rw [loop_succ_last, Memory.read_write, ih]
    by_cases hi : i = lo + n
    · subst hi; simp
    · rw [if_neg hi]
      congr 1
      simp only [eq_iff_iff]; omega

end Sys2Proof.Machine
end

