-- ==== Sys2Proof/Laws/State.lean ====
section
/-! SUPPORT. One lemma per field per named update of the state. -/

namespace Sys2Proof.Machine

variable (s : State) (e : Err) (m m' : MemId) (x : Memory)

/-! ### `setSticky` -/

@[simp] theorem setSticky_cfgd : (setSticky e s).cfgd = s.cfgd := by cases e <;> rfl
@[simp] theorem setSticky_cyc : (setSticky e s).cyc = s.cyc := by cases e <;> rfl
@[simp] theorem setSticky_fIllegal : (setSticky e s).fIllegal = (decide (e = .illegal) || s.fIllegal) := by cases e <;> rfl
@[simp] theorem setSticky_fUnconf : (setSticky e s).fUnconf = (decide (e = .unconf) || s.fUnconf) := by cases e <;> rfl
@[simp] theorem setSticky_fRange : (setSticky e s).fRange = (decide (e = .range) || s.fRange) := by cases e <;> rfl
@[simp] theorem setSticky_fRo : (setSticky e s).fRo = (decide (e = .ro) || s.fRo) := by cases e <;> rfl
@[simp] theorem setSticky_fParam : (setSticky e s).fParam = (decide (e = .param) || s.fParam) := by cases e <;> rfl
@[simp] theorem setSticky_fCfg : (setSticky e s).fCfg = (decide (e = .cfg) || s.fCfg) := by cases e <;> rfl
@[simp] theorem setSticky_log2n : (setSticky e s).log2n = s.log2n := by cases e <;> rfl
@[simp] theorem setSticky_osamp : (setSticky e s).osamp = s.osamp := by cases e <;> rfl
@[simp] theorem setSticky_srate : (setSticky e s).srate = s.srate := by cases e <;> rfl
@[simp] theorem setSticky_ratio : (setSticky e s).ratio = s.ratio := by cases e <;> rfl
@[simp] theorem setSticky_rover : (setSticky e s).rover = s.rover := by cases e <;> rfl
@[simp] theorem setSticky_ws : (setSticky e s).ws = s.ws := by cases e <;> rfl
@[simp] theorem setSticky_infifo : (setSticky e s).infifo = s.infifo := by cases e <;> rfl
@[simp] theorem setSticky_outfifo : (setSticky e s).outfifo = s.outfifo := by cases e <;> rfl
@[simp] theorem setSticky_acc : (setSticky e s).acc = s.acc := by cases e <;> rfl
@[simp] theorem setSticky_lastph : (setSticky e s).lastph = s.lastph := by cases e <;> rfl
@[simp] theorem setSticky_sumph : (setSticky e s).sumph = s.sumph := by cases e <;> rfl
@[simp] theorem setSticky_anamag : (setSticky e s).anamag = s.anamag := by cases e <;> rfl
@[simp] theorem setSticky_anafrq : (setSticky e s).anafrq = s.anafrq := by cases e <;> rfl
@[simp] theorem setSticky_synmag : (setSticky e s).synmag = s.synmag := by cases e <;> rfl
@[simp] theorem setSticky_synfrq : (setSticky e s).synfrq = s.synfrq := by cases e <;> rfl
@[simp] theorem setSticky_win : (setSticky e s).win = s.win := by cases e <;> rfl
@[simp] theorem setSticky_tw : (setSticky e s).tw = s.tw := by cases e <;> rfl
@[simp] theorem setSticky_host : (setSticky e s).host = s.host := by cases e <;> rfl
@[simp] theorem setSticky_resp : (setSticky e s).resp = s.resp := by cases e <;> rfl

/-! ### `clearSticky` -/

@[simp] theorem clearSticky_cfgd : (clearSticky s).cfgd = s.cfgd := rfl
@[simp] theorem clearSticky_cyc : (clearSticky s).cyc = s.cyc := rfl
@[simp] theorem clearSticky_fIllegal : (clearSticky s).fIllegal = false := rfl
@[simp] theorem clearSticky_fUnconf : (clearSticky s).fUnconf = false := rfl
@[simp] theorem clearSticky_fRange : (clearSticky s).fRange = false := rfl
@[simp] theorem clearSticky_fRo : (clearSticky s).fRo = false := rfl
@[simp] theorem clearSticky_fParam : (clearSticky s).fParam = false := rfl
@[simp] theorem clearSticky_fCfg : (clearSticky s).fCfg = false := rfl
@[simp] theorem clearSticky_log2n : (clearSticky s).log2n = s.log2n := rfl
@[simp] theorem clearSticky_osamp : (clearSticky s).osamp = s.osamp := rfl
@[simp] theorem clearSticky_srate : (clearSticky s).srate = s.srate := rfl
@[simp] theorem clearSticky_ratio : (clearSticky s).ratio = s.ratio := rfl
@[simp] theorem clearSticky_rover : (clearSticky s).rover = s.rover := rfl
@[simp] theorem clearSticky_ws : (clearSticky s).ws = s.ws := rfl
@[simp] theorem clearSticky_infifo : (clearSticky s).infifo = s.infifo := rfl
@[simp] theorem clearSticky_outfifo : (clearSticky s).outfifo = s.outfifo := rfl
@[simp] theorem clearSticky_acc : (clearSticky s).acc = s.acc := rfl
@[simp] theorem clearSticky_lastph : (clearSticky s).lastph = s.lastph := rfl
@[simp] theorem clearSticky_sumph : (clearSticky s).sumph = s.sumph := rfl
@[simp] theorem clearSticky_anamag : (clearSticky s).anamag = s.anamag := rfl
@[simp] theorem clearSticky_anafrq : (clearSticky s).anafrq = s.anafrq := rfl
@[simp] theorem clearSticky_synmag : (clearSticky s).synmag = s.synmag := rfl
@[simp] theorem clearSticky_synfrq : (clearSticky s).synfrq = s.synfrq := rfl
@[simp] theorem clearSticky_win : (clearSticky s).win = s.win := rfl
@[simp] theorem clearSticky_tw : (clearSticky s).tw = s.tw := rfl
@[simp] theorem clearSticky_host : (clearSticky s).host = s.host := rfl
@[simp] theorem clearSticky_resp : (clearSticky s).resp = s.resp := rfl

/-! ### `setMem` -/

@[simp] theorem setMem_cfgd : (s.setMem m x).cfgd = s.cfgd := by cases m <;> rfl
@[simp] theorem setMem_cyc : (s.setMem m x).cyc = s.cyc := by cases m <;> rfl
@[simp] theorem setMem_fIllegal : (s.setMem m x).fIllegal = s.fIllegal := by cases m <;> rfl
@[simp] theorem setMem_fUnconf : (s.setMem m x).fUnconf = s.fUnconf := by cases m <;> rfl
@[simp] theorem setMem_fRange : (s.setMem m x).fRange = s.fRange := by cases m <;> rfl
@[simp] theorem setMem_fRo : (s.setMem m x).fRo = s.fRo := by cases m <;> rfl
@[simp] theorem setMem_fParam : (s.setMem m x).fParam = s.fParam := by cases m <;> rfl
@[simp] theorem setMem_fCfg : (s.setMem m x).fCfg = s.fCfg := by cases m <;> rfl
@[simp] theorem setMem_log2n : (s.setMem m x).log2n = s.log2n := by cases m <;> rfl
@[simp] theorem setMem_osamp : (s.setMem m x).osamp = s.osamp := by cases m <;> rfl
@[simp] theorem setMem_srate : (s.setMem m x).srate = s.srate := by cases m <;> rfl
@[simp] theorem setMem_ratio : (s.setMem m x).ratio = s.ratio := by cases m <;> rfl
@[simp] theorem setMem_rover : (s.setMem m x).rover = s.rover := by cases m <;> rfl
@[simp] theorem setMem_ws : (s.setMem m x).ws = if m = .ws then x else s.ws := by cases m <;> rfl
@[simp] theorem setMem_infifo : (s.setMem m x).infifo = if m = .infifo then x else s.infifo := by cases m <;> rfl
@[simp] theorem setMem_outfifo : (s.setMem m x).outfifo = if m = .outfifo then x else s.outfifo := by cases m <;> rfl
@[simp] theorem setMem_acc : (s.setMem m x).acc = if m = .acc then x else s.acc := by cases m <;> rfl
@[simp] theorem setMem_lastph : (s.setMem m x).lastph = if m = .lastph then x else s.lastph := by cases m <;> rfl
@[simp] theorem setMem_sumph : (s.setMem m x).sumph = if m = .sumph then x else s.sumph := by cases m <;> rfl
@[simp] theorem setMem_anamag : (s.setMem m x).anamag = if m = .anamag then x else s.anamag := by cases m <;> rfl
@[simp] theorem setMem_anafrq : (s.setMem m x).anafrq = if m = .anafrq then x else s.anafrq := by cases m <;> rfl
@[simp] theorem setMem_synmag : (s.setMem m x).synmag = if m = .synmag then x else s.synmag := by cases m <;> rfl
@[simp] theorem setMem_synfrq : (s.setMem m x).synfrq = if m = .synfrq then x else s.synfrq := by cases m <;> rfl
@[simp] theorem setMem_win : (s.setMem m x).win = if m = .win then x else s.win := by cases m <;> rfl
@[simp] theorem setMem_tw : (s.setMem m x).tw = if m = .tw then x else s.tw := by cases m <;> rfl
@[simp] theorem setMem_host : (s.setMem m x).host = s.host := by cases m <;> rfl
@[simp] theorem setMem_resp : (s.setMem m x).resp = s.resp := by cases m <;> rfl

/-! ### `resetKeepingHost` -/

@[simp] theorem resetKeepingHost_cfgd : (resetKeepingHost s).cfgd = State.reset.cfgd := rfl
@[simp] theorem resetKeepingHost_cyc : (resetKeepingHost s).cyc = State.reset.cyc := rfl
@[simp] theorem resetKeepingHost_fIllegal : (resetKeepingHost s).fIllegal = State.reset.fIllegal := rfl
@[simp] theorem resetKeepingHost_fUnconf : (resetKeepingHost s).fUnconf = State.reset.fUnconf := rfl
@[simp] theorem resetKeepingHost_fRange : (resetKeepingHost s).fRange = State.reset.fRange := rfl
@[simp] theorem resetKeepingHost_fRo : (resetKeepingHost s).fRo = State.reset.fRo := rfl
@[simp] theorem resetKeepingHost_fParam : (resetKeepingHost s).fParam = State.reset.fParam := rfl
@[simp] theorem resetKeepingHost_fCfg : (resetKeepingHost s).fCfg = State.reset.fCfg := rfl
@[simp] theorem resetKeepingHost_log2n : (resetKeepingHost s).log2n = State.reset.log2n := rfl
@[simp] theorem resetKeepingHost_osamp : (resetKeepingHost s).osamp = State.reset.osamp := rfl
@[simp] theorem resetKeepingHost_srate : (resetKeepingHost s).srate = State.reset.srate := rfl
@[simp] theorem resetKeepingHost_ratio : (resetKeepingHost s).ratio = State.reset.ratio := rfl
@[simp] theorem resetKeepingHost_rover : (resetKeepingHost s).rover = State.reset.rover := rfl
@[simp] theorem resetKeepingHost_ws : (resetKeepingHost s).ws = State.reset.ws := rfl
@[simp] theorem resetKeepingHost_infifo : (resetKeepingHost s).infifo = State.reset.infifo := rfl
@[simp] theorem resetKeepingHost_outfifo : (resetKeepingHost s).outfifo = State.reset.outfifo := rfl
@[simp] theorem resetKeepingHost_acc : (resetKeepingHost s).acc = State.reset.acc := rfl
@[simp] theorem resetKeepingHost_lastph : (resetKeepingHost s).lastph = State.reset.lastph := rfl
@[simp] theorem resetKeepingHost_sumph : (resetKeepingHost s).sumph = State.reset.sumph := rfl
@[simp] theorem resetKeepingHost_anamag : (resetKeepingHost s).anamag = State.reset.anamag := rfl
@[simp] theorem resetKeepingHost_anafrq : (resetKeepingHost s).anafrq = State.reset.anafrq := rfl
@[simp] theorem resetKeepingHost_synmag : (resetKeepingHost s).synmag = State.reset.synmag := rfl
@[simp] theorem resetKeepingHost_synfrq : (resetKeepingHost s).synfrq = State.reset.synfrq := rfl
@[simp] theorem resetKeepingHost_win : (resetKeepingHost s).win = State.reset.win := rfl
@[simp] theorem resetKeepingHost_tw : (resetKeepingHost s).tw = State.reset.tw := rfl
@[simp] theorem resetKeepingHost_host : (resetKeepingHost s).host = s.host := rfl
@[simp] theorem resetKeepingHost_resp : (resetKeepingHost s).resp = State.reset.resp := rfl

/-! ### `mem` after an update -/

@[simp] theorem mem_setMem : (s.setMem m x).mem m' = if m = m' then x else s.mem m' := by
  cases m <;> cases m' <;> rfl

@[simp] theorem mem_setSticky : (setSticky e s).mem m = s.mem m := by cases e <;> cases m <;> rfl

@[simp] theorem mem_clearSticky : (clearSticky s).mem m = s.mem m := by cases m <;> rfl

@[simp] theorem mem_resetKeepingHost : (resetKeepingHost s).mem m = [] := by cases m <;> rfl

@[simp] theorem mem_withResp (r : Option Response) : ({ s with resp := r } : State).mem m = s.mem m := by
  cases m <;> rfl

@[simp] theorem mem_withHost (h : List HostEvent) : ({ s with host := h } : State).mem m = s.mem m := by
  cases m <;> rfl

@[simp] theorem stickyFlag_setSticky (e' : Err) :
    stickyFlag e' (setSticky e s) = (decide (e = e') || stickyFlag e' s) := by
  cases e <;> cases e' <;> rfl

@[simp] theorem stickyFlag_clearSticky : stickyFlag e (clearSticky s) = false := by cases e <;> rfl

/-! ### Derived quantities after an update -/

@[simp] theorem frameSize_setSticky : frameSize (setSticky e s) = frameSize s := by cases e <;> rfl

@[simp] theorem hopSize_setSticky : hopSize (setSticky e s) = hopSize s := by cases e <;> rfl

@[simp] theorem latency_setSticky : latency (setSticky e s) = latency s := by cases e <;> rfl

@[simp] theorem depth_setSticky : depth (setSticky e s) m = depth s m := by cases e <;> rfl

@[simp] theorem depth_clearSticky : depth (clearSticky s) m = depth s m := rfl

@[simp] theorem depth_setMem : depth (s.setMem m x) m' = depth s m' := by cases m <;> rfl

/-- An update that keeps exponent and factor keeps the derived quantities. -/
theorem derived_congr {s t : State} (h1 : t.log2n = s.log2n) (h2 : t.osamp = s.osamp) :
    frameSize t = frameSize s ∧ hopSize t = hopSize s ∧ latency t = latency s := by
  simp [frameSize, hopSize, latency, h1, h2]

theorem frameSize_pos : 0 < frameSize s := Nat.two_pow_pos _

theorem hopSize_le : hopSize s ≤ frameSize s := Nat.div_le_self _ _

theorem latency_le : latency s ≤ frameSize s := Nat.sub_le _ _

theorem latency_add_hopSize : latency s + hopSize s = frameSize s :=
  Nat.sub_add_cancel (hopSize_le s)

end Sys2Proof.Machine
end

