-- ==== Sys2Proof/Laws/Ops.lean ====
section
/-! SUPPORT. What the end of a command can do, said once: `respond`, `raise`, `ifConfigured`, the access
port. -/

namespace Sys2Proof.Machine

theorem respond_eq (v : Word) (s : State) : respond v s = .next { s with resp := some ⟨okCode, v⟩ } := rfl

theorem raise_eq (e : Err) (s : State) :
    raise e s = .next { setSticky e s with resp := some ⟨errCode e, 0#32⟩ } := rfl

/-- `respond` answers one next state: the state with the response. -/
theorem respond_next {v : Word} {s t : State} (h : respond v s = .next t) :
    t = { s with resp := some ⟨okCode, v⟩ } := by
  cases h; rfl

/-- `raise` answers one next state: the flag set and the response (60_exceptions.md R244). -/
theorem raise_next {e : Err} {s t : State} (h : raise e s = .next t) :
    t = { setSticky e s with resp := some ⟨errCode e, 0#32⟩ } := by
  cases h; rfl

theorem ifConfigured_of_cfgd {s : State} (h : s.cfgd = true) (r : Result) : ifConfigured s r = r := by
  simp [ifConfigured, h]

theorem ifConfigured_of_not {s : State} (h : s.cfgd = false) (r : Result) :
    ifConfigured s r = raise .unconf s := by
  simp [ifConfigured, h]

/-- A command that needs memories either raises E_UNCONF or runs on a configured engine. -/
theorem ifConfigured_next {s t : State} {r : Result} (h : ifConfigured s r = .next t) :
    (s.cfgd = true ∧ r = .next t) ∨
      (s.cfgd = false ∧ t = { setSticky .unconf s with resp := some ⟨errCode .unconf, 0#32⟩ }) := by
  cases hc : s.cfgd with
  | true => exact .inl ⟨rfl, by rwa [ifConfigured_of_cfgd hc] at h⟩
  | false =>
    rw [ifConfigured_of_not hc] at h
    exact .inr ⟨rfl, raise_next h⟩

theorem errCode_ne_ok (e : Err) : errCode e ≠ okCode := by cases e <;> decide

theorem errCode_le (e : Err) : (errCode e).toNat ≤ 6 := by cases e <;> decide

theorem errCode_injective {e e' : Err} (h : errCode e = errCode e') : e = e' := by
  cases e <;> cases e' <;> first | rfl | exact absurd h (by decide)

/-- What the access port reads after a write through it (20_memory.md R65, R66). -/
theorem memRead_memWrite (s : State) (m m' : MemId) (i j : Nat) (v : Num) :
    memRead (memWrite s m i v) m' j = if m' = m ∧ j = i then v else memRead s m' j := by
  unfold memRead memWrite
  rw [mem_setMem]
  by_cases h : m = m'
  · subst h
    simp [Memory.read_write]
  · rw [if_neg h, if_neg (by intro hh; exact h hh.1.symm)]

theorem memOfSel_isSome {sel : BitVec 4} : (memOfSel sel).isSome = decide (sel.toNat ≤ 11) := by
  revert sel; decide

theorem memOfSel_eq_none {sel : BitVec 4} : memOfSel sel = none ↔ 12 ≤ sel.toNat := by
  revert sel; decide

/-- Taking the next host event changes nothing but the host's list. -/
theorem takeEvent_some {s t : State} {e : HostEvent} (h : takeEvent s = some (e, t)) :
    ∃ rest, s.host = e :: rest ∧ t = { s with host := rest } := by
  unfold takeEvent at h
  split at h
  · cases h
  · next e' rest he =>
    cases h
    exact ⟨rest, he, rfl⟩

theorem takeEvent_none {s : State} : takeEvent s = none ↔ s.host = [] := by
  unfold takeEvent
  split <;> simp_all

end Sys2Proof.Machine
end

