-- ==== Sys2Proof/Laws/PerInstr.lean ====
section
/-! SUPPORT. Statements for all commands, one lemma per command. -/

namespace Sys2Proof.Laws.MatchesRow

/-- The word of a command selects the row of its own mnemonic in the opcode map and no other row
(30_encoding.md R98). -/
def Statement (i : Instr) : Prop := mnemonicsOf (encodeCmd i) = [i.mnemonic]

/-- A word of opcode `opc` selects no row of another opcode. -/
theorem selects_commandWord (opc sel : BitVec 4) (idx : BitVec 24) (r : OpcodeRow)
    (hm : r.mask.extractLsb' 28 4 = 15#4) (hp : r.pattern.extractLsb' 28 4 ≠ opc) :
    r.selects (commandWord opc sel idx) = false := by
  unfold OpcodeRow.selects
  rw [beq_eq_false_iff_ne]
  intro h
  apply hp
  rw [← h]
  unfold commandWord
  apply BitVec.eq_of_getLsbD_eq
  intro i hi
  have hmi : r.mask.getLsbD (28 + i) = true := by
    have := congrArg (fun x : BitVec 4 => x.getLsbD i) hm
    simp only [BitVec.getLsbD_extractLsb', hi, decide_true, Bool.true_and] at this
    rw [this]
    have : i = 0 ∨ i = 1 ∨ i = 2 ∨ i = 3 := by omega
    rcases this with h | h | h | h <;> subst h <;> rfl
  simp only [BitVec.getLsbD_extractLsb', BitVec.getLsbD_and, hmi, Bool.and_true,
    BitVec.getLsbD_append, hi, decide_true, Bool.true_and]
  rw [if_neg (by omega), if_neg (by omega)]
  congr 1
  omega

/-- Bits of a command word. -/
theorem commandWord_toNat (opc sel : BitVec 4) (idx : BitVec 24) :
    (commandWord opc sel idx).toNat = opc.toNat * 2 ^ 28 + sel.toNat * 2 ^ 24 + idx.toNat := by
  unfold commandWord
  rw [BitVec.toNat_append, BitVec.toNat_append, ← Nat.shiftLeft_add_eq_or_of_lt idx.isLt,
    ← Nat.shiftLeft_add_eq_or_of_lt sel.isLt, Nat.shiftLeft_eq, Nat.shiftLeft_eq]
  omega

/-- A row whose mask covers exactly opcode and `SEL` selects the words with its opcode and `SEL`. -/
theorem selects_field (opc : BitVec 4) (idx : BitVec 24) (n : String) (hi : BitVec 8)
    (h : opc ++ 0#4 = hi) :
    OpcodeRow.selects ⟨n, hi ++ 0#24, 0xFF000000#32⟩ (commandWord opc 0#4 idx) = true := by
  subst h
  unfold OpcodeRow.selects commandWord
  rw [beq_iff_eq]
  apply BitVec.eq_of_getLsbD_eq
  intro i hi
  have hm : (0xFF000000#32 : BitVec 32).getLsbD i = decide (24 ≤ i) := by
    interval_cases i <;> rfl
  simp only [BitVec.getLsbD_and, hm, BitVec.getLsbD_append]
  by_cases h24 : i < 24 <;> simp [h24]
  · omega

/-- A row whose mask covers exactly the opcode selects the words with its opcode. -/
theorem selects_opcode (opc sel : BitVec 4) (idx : BitVec 24) (n : String) :
    OpcodeRow.selects ⟨n, opc ++ 0#28, 0xF0000000#32⟩ (commandWord opc sel idx) = true := by
  unfold OpcodeRow.selects commandWord
  rw [beq_iff_eq]
  apply BitVec.eq_of_getLsbD_eq
  intro i hi
  have hm : (0xF0000000#32 : BitVec 32).getLsbD i = decide (28 ≤ i) := by
    interval_cases i <;> rfl
  simp only [BitVec.getLsbD_and, hm, BitVec.getLsbD_append]
  by_cases h28 : i < 28
  · simp [h28]
  · have h1 : ¬ i < 24 := by omega
    have h2 : ¬ i - 24 < 4 := by omega
    have h3 : i - 24 - 4 = i - 28 := by omega
    simp [h28, h1, h2, h3]
    omega

/-- A word selects exactly the row `r` if it selects `r` and every other row has another opcode. -/
theorem mnemonics_commandWord (k : Nat) (r : OpcodeRow) (opc sel : BitVec 4) (idx : BitVec 24)
    (hr : r.selects (commandWord opc sel idx) = true)
    (hl : opcodeMap = opcodeMap.take k ++ [r] ++ opcodeMap.drop (k + 1))
    (ho : (opcodeMap.take k ++ opcodeMap.drop (k + 1)).all (fun q =>
      decide (q.mask.extractLsb' 28 4 = 15#4) && decide (q.pattern.extractLsb' 28 4 ≠ opc)) = true) :
    mnemonicsOf (commandWord opc sel idx) = [r.mnemonic] := by
  have hno : ∀ l : List OpcodeRow, l.all (fun q =>
      decide (q.mask.extractLsb' 28 4 = 15#4) && decide (q.pattern.extractLsb' 28 4 ≠ opc)) = true →
      l.filter (·.selects (commandWord opc sel idx)) = [] := by
    intro l hl
    rw [List.filter_eq_nil_iff]
    intro q hq
    have := List.all_eq_true.mp hl q hq
    rw [Bool.and_eq_true, decide_eq_true_eq, decide_eq_true_eq] at this
    rw [selects_commandWord opc sel idx q this.1 this.2]
    exact Bool.false_ne_true
  rw [List.all_append, Bool.and_eq_true] at ho
  unfold mnemonicsOf
  rw [hl, List.filter_append, List.filter_append, hno _ ho.1, hno _ ho.2, List.filter_singleton, hr]
  rfl

theorem nop : Statement .nop := by unfold Statement; decide
theorem reset : Statement .reset := by unfold Statement; decide
theorem config (p : BitVec 5) : Statement (.config p) := by unfold Statement; revert p; decide
theorem fft (p : BitVec 5) (dir : Dir) : Statement (.fft p dir) := by
  unfold Statement; cases dir <;> revert p <;> decide
theorem push (wdata : Word) : Statement (.push wdata) := by
  show mnemonicsOf (commandWord 8#4 0#4 0#24) = ["PUSH"]; decide
theorem analyze : Statement .analyze := by unfold Statement; decide
theorem remap : Statement .remap := by unfold Statement; decide
theorem synth : Statement .synth := by unfold Statement; decide
theorem ola : Statement .ola := by unfold Statement; decide
theorem cycle : Statement .cycle := by unfold Statement; decide
theorem clrerr : Statement .clrerr := by unfold Statement; decide

theorem wrreg (reg : BitVec 24) (wdata : Word) : Statement (.wrreg reg wdata) :=
  mnemonics_commandWord 3 ⟨"WRREG", 0x30000000#32, 0xFF000000#32⟩ 3#4 0#4 reg
    (selects_field 3#4 reg "WRREG" 0x30#8 rfl) rfl (by decide)

theorem rdreg (reg : BitVec 24) : Statement (.rdreg reg) :=
  mnemonics_commandWord 4 ⟨"RDREG", 0x40000000#32, 0xFF000000#32⟩ 4#4 0#4 reg
    (selects_field 4#4 reg "RDREG" 0x40#8 rfl) rfl (by decide)

theorem wrmem (mem : BitVec 4) (idx : BitVec 24) (wdata : Word) : Statement (.wrmem mem idx wdata) :=
  mnemonics_commandWord 5 ⟨"WRMEM", 0x50000000#32, 0xF0000000#32⟩ 5#4 mem idx
    (selects_opcode 5#4 mem idx "WRMEM") rfl (by decide)

theorem rdmem (mem : BitVec 4) (idx : BitVec 24) : Statement (.rdmem mem idx) :=
  mnemonics_commandWord 6 ⟨"RDMEM", 0x60000000#32, 0xF0000000#32⟩ 6#4 mem idx
    (selects_opcode 6#4 mem idx "RDMEM") rfl (by decide)

end Sys2Proof.Laws.MatchesRow
end

