-- ==== Sys2Proof/Laws/Transform.lean ====
section
/-! SUPPORT. Where the butterfly network reads and writes (40_transform.md R120). -/

namespace Sys2Proof.Machine

theorem bitrev_lt (p i : Nat) : bitrev p i < 2 ^ p := by
  induction p generalizing i with
  | zero => simp [bitrev]
  | succ p ih =>
    have h1 := ih (i / 2)
    have h2 : i % 2 < 2 := Nat.mod_lt _ (by omega)
    unfold bitrev
    rw [Nat.pow_succ]
    rcases (by omega : i % 2 = 0 ∨ i % 2 = 1) with h | h <;> rw [h] <;> omega

variable {σ α : Type} {A : Arith α} {S : Store σ α}

/-- Swapping two elements is two writes. -/
theorem swapElems_keeps {P : σ → Prop} {a b : Nat} {ws : σ} (h0 : P ws)
    (ha : ∀ u v, P u → P (S.write u a v)) (hb : ∀ u v, P u → P (S.write u b v)) :
    P (swapElems S a b ws) := hb _ _ (ha _ _ h0)

/-- The permutation keeps what every write below `2 * 2^p` keeps. -/
theorem bitReversePairs_keeps {P : σ → Prop} {p : Nat} {ws : σ} (h0 : P ws)
    (hw : ∀ u i v, i < 2 * 2 ^ p → P u → P (S.write u i v)) : P (bitReversePairs S p ws) := by
  refine loop_keeps _ _ _ _ h0 fun i u h1 h2 hu => ?_
  have hj := bitrev_lt p i
  have hi : i < 2 ^ p := by omega
  dsimp only
  split
  · exact swapElems_keeps
      (swapElems_keeps hu (fun u v => hw u _ v (by omega)) (fun u v => hw u _ v (by omega)))
      (fun u v => hw u _ v (by omega)) (fun u v => hw u _ v (by omega))
  · exact hu

/-- A butterfly is four writes, to its own two pairs. -/
theorem butterfly_keeps {P : σ → Prop} {wr wi : α} {a d : Nat} {ws : σ} (h0 : P ws)
    (hw : ∀ u i v, i = 2 * a ∨ i = 2 * a + 1 ∨ i = 2 * d ∨ i = 2 * d + 1 → P u → P (S.write u i v)) :
    P (butterfly A S wr wi a d ws) :=
  hw _ _ _ (by omega) (hw _ _ _ (by omega) (hw _ _ _ (by omega) (hw _ _ _ (by omega) h0)))

/-- The pairs of the butterflies of a stage lie inside the transform. -/
theorem stage_pairs_lt {p t j c : Nat} (h1 : 1 ≤ t) (h2 : t ≤ p) (hj : j < 2 ^ t / 2)
    (hc : c < 2 ^ p / 2 ^ t) : c * 2 ^ t + j + 2 ^ t / 2 < 2 ^ p := by
  have hp : 2 ^ p / 2 ^ t = 2 ^ (p - t) := Nat.pow_div h2 (by omega)
  have ht : 2 ^ t = 2 * 2 ^ (t - 1) := by
    conv_lhs => rw [show t = (t - 1) + 1 by omega, Nat.pow_succ]
    omega
  have hpt : 2 ^ p = 2 ^ (p - t) * 2 ^ t := by rw [← Nat.pow_add]; congr 1; omega
  rw [hp] at hc
  have : (c + 1) * 2 ^ t ≤ 2 ^ (p - t) * 2 ^ t := Nat.mul_le_mul_right _ hc
  rw [Nat.succ_mul] at this
  omega

/-- A stage keeps what every write below `2 * 2^p` keeps. -/
theorem butterflyStage_keeps {P : σ → Prop} {tw : Nat → α} {log2n p t : Nat} {dir : Dir} {ws : σ}
    (h1 : 1 ≤ t) (h2 : t ≤ p) (h0 : P ws)
    (hw : ∀ u i v, i < 2 * 2 ^ p → P u → P (S.write u i v)) :
    P (butterflyStage A S tw log2n p dir t ws) := by
  refine loop_keeps _ _ _ _ h0 fun j u _ hj hu => ?_
  refine loop_keeps _ _ _ _ hu fun c u _ hc hu => ?_
  have := stage_pairs_lt (j := j) (c := c) h1 h2 (by omega) (by omega)
  exact butterfly_keeps hu fun u i v hi => hw u i v (by omega)

/-- The network keeps what every write below `2 * 2^p` keeps: it writes nowhere else. -/
theorem network_keeps {P : σ → Prop} {tw : Nat → α} {log2n p : Nat} {dir : Dir} {ws : σ} (h0 : P ws)
    (hw : ∀ u i v, i < 2 * 2 ^ p → P u → P (S.write u i v)) :
    P (network A S tw log2n p dir ws) :=
  loop_keeps _ _ _ _ (bitReversePairs_keeps h0 hw) fun t _ h1 h2 hu =>
    butterflyStage_keeps (by omega) (by omega) hu hw

/-- The transform keeps the canonical form of the workspace. -/
theorem transform_ws_wf {nm : Numerics} {p : Nat} {dir : Dir} {s : State} (h : s.ws.wf = true) :
    (transform nm p dir s).ws.wf = true :=
  network_keeps (P := fun m : Memory => m.wf = true) h fun _ i v _ hu => Memory.wf_write i v hu

/-- The transform of at most the frame keeps the workspace below its depth. -/
theorem transform_ws_within {nm : Numerics} {p d : Nat} {dir : Dir} {s : State} (hd : 2 * 2 ^ p ≤ d)
    (h : s.ws.within d = true) : (transform nm p dir s).ws.within d = true :=
  network_keeps (P := fun m : Memory => m.within d = true) h fun _ i v hi hu =>
    Memory.within_write v (by omega) hu

/-- The transform changes nothing but the workspace. -/
theorem transform_frame (nm : Numerics) (p : Nat) (dir : Dir) (s : State) :
    transform nm p dir s = { s with ws := (transform nm p dir s).ws } := rfl

end Sys2Proof.Machine
end

