-- ==== Sys2Proof/Laws/Stages.lean ====
section
/-! SUPPORT. What each stage procedure can do, said once: the stage as loops over the memories it writes,
every other field of the state unchanged. -/

namespace Sys2Proof.Machine

variable (nm : Numerics) (s : State)

/-- Step 1 of `Analyze` writes the workspace (42_analyzer.md R162). -/
theorem windowFrame_eq : windowFrame nm s =
    { s with
      ws := loop (fun k m => Memory.write (Memory.write m (2 * k)
        (numMul nm (s.infifo.read k) (s.win.read k))) (2 * k + 1) numZero) 0 (frameSize s) s.ws } :=
  (loop_map _ (fun m : Memory => ({ s with ws := m } : State)) 0 (frameSize s) s.ws
    (fun _ _ _ _ => rfl)).symm

/-- One bin of step 4 of `Analyze`, on the three memories it writes. -/
def analyzeMems (k : Nat) (x : Memory × Memory × Memory) : Memory × Memory × Memory :=
  let re := s.ws.read (2 * k)
  let im := s.ws.read (2 * k + 1)
  (x.1.write k (numAtan2 nm im re), x.2.1.write k (binMagnitude nm re im),
    x.2.2.write k (binFrequency nm s k (numAtan2 nm im re) (x.1.read k)))

/-- Step 4 of `Analyze` writes LASTPH, ANAMAG and ANAFRQ (42_analyzer.md R165). -/
theorem analyzeBins_eq : analyzeBins nm s =
    { s with
      lastph := (loop (analyzeMems nm s) 0 (frameSize s / 2 + 1) (s.lastph, s.anamag, s.anafrq)).1
      anamag := (loop (analyzeMems nm s) 0 (frameSize s / 2 + 1) (s.lastph, s.anamag, s.anafrq)).2.1
      anafrq := (loop (analyzeMems nm s) 0 (frameSize s / 2 + 1) (s.lastph, s.anamag, s.anafrq)).2.2 } :=
  (loop_map _ (fun x : Memory × Memory × Memory =>
      ({ s with lastph := x.1, anamag := x.2.1, anafrq := x.2.2 } : State)) 0 (frameSize s / 2 + 1)
    (s.lastph, s.anamag, s.anafrq) (fun _ _ _ _ => rfl)).symm

/-- ANALYZE changes WS, LASTPH, ANAMAG and ANAFRQ only (42_analyzer.md R161). -/
theorem analyze_frame : analyze nm s =
    { s with ws := (analyze nm s).ws, lastph := (analyze nm s).lastph,
             anamag := (analyze nm s).anamag, anafrq := (analyze nm s).anafrq } := by
  unfold analyze
  rw [analyzeBins_eq, windowFrame_eq]
  rfl

/-- Clearing writes SYNMAG and SYNFRQ (43_remapper.md R182). -/
theorem clearSynthesis_eq : clearSynthesis s =
    { s with synmag := loop (fun i m => Memory.write m i numZero) 0 (frameSize s) s.synmag,
             synfrq := loop (fun i m => Memory.write m i numZero) 0 (frameSize s) s.synfrq } := by
  have h := loop_map (α := Memory × Memory) (β := State)
    (fun i x => (Memory.write x.1 i numZero, Memory.write x.2 i numZero))
    (g := fun i s => { s with synmag := s.synmag.write i numZero, synfrq := s.synfrq.write i numZero })
    (fun x => { s with synmag := x.1, synfrq := x.2 }) 0 (frameSize s) (s.synmag, s.synfrq)
    (fun _ _ _ _ => rfl)
  have h1 := loop_map (α := Memory × Memory) (β := Memory)
    (fun i x => (Memory.write x.1 i numZero, Memory.write x.2 i numZero))
    (g := fun i m => Memory.write m i numZero) Prod.fst 0 (frameSize s) (s.synmag, s.synfrq)
    (fun _ _ _ _ => rfl)
  have h2 := loop_map (α := Memory × Memory) (β := Memory)
    (fun i x => (Memory.write x.1 i numZero, Memory.write x.2 i numZero))
    (g := fun i m => Memory.write m i numZero) Prod.snd 0 (frameSize s) (s.synmag, s.synfrq)
    (fun _ _ _ _ => rfl)
  rw [← h1, ← h2]
  exact h.symm

/-- One source bin of `Remap`, on the two memories it writes. -/
def remapMems (k : Nat) (x : Memory × Memory) : Memory × Memory :=
  (destBin nm s.ratio (frameSize s / 2) k).elim x fun d =>
    (x.1.write d (numAdd nm (x.1.read d) (s.anamag.read k)),
      x.2.write d (numMul nm (s.anafrq.read k) s.ratio))

/-- The source bins of `Remap`, as a loop over the two memories. -/
theorem remapBins_eq (n : Nat) (a b : Memory) :
    loop (remapBin nm) 0 n { s with synmag := a, synfrq := b } =
      { s with synmag := (loop (remapMems nm s) 0 n (a, b)).1,
               synfrq := (loop (remapMems nm s) 0 n (a, b)).2 } := by
  refine (loop_map (remapMems nm s) (g := remapBin nm) (fun x : Memory × Memory =>
      ({ s with synmag := x.1, synfrq := x.2 } : State)) 0 n (a, b) fun k y _ _ => ?_).symm
  have hf : frameSize { s with synmag := y.1, synfrq := y.2 } = frameSize s := rfl
  unfold remapMems remapBin
  rw [hf]
  dsimp only
  generalize destBin nm s.ratio (frameSize s / 2) k = d
  cases d <;> rfl

/-- Clearing changes SYNMAG and SYNFRQ only. -/
theorem clearSynthesis_frame : clearSynthesis s =
    { s with synmag := (clearSynthesis s).synmag, synfrq := (clearSynthesis s).synfrq } := by
  rw [clearSynthesis_eq]

/-- `Remap` writes SYNMAG and SYNFRQ (43_remapper.md R182). -/
theorem remap_eq : remap nm s =
    { s with
      synmag := (loop (remapMems nm s) 0 (frameSize s / 2 + 1)
        ((clearSynthesis s).synmag, (clearSynthesis s).synfrq)).1
      synfrq := (loop (remapMems nm s) 0 (frameSize s / 2 + 1)
        ((clearSynthesis s).synmag, (clearSynthesis s).synfrq)).2 } := by
  rw [← remapBins_eq, ← clearSynthesis_frame]
  rfl

/-- One bin of step 1 of `Synth`, on the two memories it writes. -/
def synthMems (k : Nat) (x : Memory × Memory) : Memory × Memory :=
  let phase := numAdd nm (x.1.read k) (phaseIncrement nm s k)
  (x.1.write k phase,
    (x.2.write (2 * k) (numMul nm (s.synmag.read k) (numCos nm phase))).write (2 * k + 1)
      (numMul nm (s.synmag.read k) (numSin nm phase)))

/-- Step 1 of `Synth` writes SUMPH and WS (44_synth_ola.md R191). -/
theorem synthBins_eq : loop (synthBin nm) 0 (frameSize s / 2 + 1) s =
    { s with
      sumph := (loop (synthMems nm s) 0 (frameSize s / 2 + 1) (s.sumph, s.ws)).1
      ws := (loop (synthMems nm s) 0 (frameSize s / 2 + 1) (s.sumph, s.ws)).2 } :=
  (loop_map _ (fun x : Memory × Memory => ({ s with sumph := x.1, ws := x.2 } : State)) 0
    (frameSize s / 2 + 1) (s.sumph, s.ws) (fun _ _ _ _ => rfl)).symm

/-- Step 2 of `Synth` writes WS (44_synth_ola.md R192). -/
theorem zeroMirror_eq : zeroMirror s =
    { s with
      ws := loop (fun i m => Memory.write m i numZero) (frameSize s + 2)
        (2 * frameSize s - (frameSize s + 2)) s.ws } :=
  (loop_map _ (fun m : Memory => ({ s with ws := m } : State)) _ _ s.ws
    (fun _ _ _ _ => rfl)).symm

/-- SYNTH changes SUMPH and WS only (44_synth_ola.md R190). -/
theorem synthesize_frame : synthesize nm s =
    { s with sumph := (synthesize nm s).sumph, ws := (synthesize nm s).ws } := by
  unfold synthesize
  rw [synthBins_eq, zeroMirror_eq]
  rfl

/-- Step 1 of `Ola` writes ACC (44_synth_ola.md R196). -/
theorem olaAccumulate_eq : olaAccumulate nm s =
    { s with
      acc := loop (fun k m => Memory.write m k
        (numAdd nm (Memory.read m k) (olaContribution nm s k))) 0 (frameSize s) s.acc } :=
  (loop_map _ (fun m : Memory => ({ s with acc := m } : State)) 0 (frameSize s) s.acc
    (fun _ _ _ _ => rfl)).symm

/-- Step 2 of `Ola` writes OUTFIFO (44_synth_ola.md R197). -/
theorem olaEmit_eq : olaEmit s =
    { s with outfifo := loop (fun k m => Memory.write m k (s.acc.read k)) 0 (hopSize s) s.outfifo } :=
  (loop_map _ (fun m : Memory => ({ s with outfifo := m } : State)) 0 (hopSize s) s.outfifo
    (fun _ _ _ _ => rfl)).symm

/-- Moving the elements of one memory down by `h` places, `n` of them, ascending. -/
def shiftDown (h n : Nat) (m : Memory) : Memory :=
  loop (fun i m => Memory.write m i (Memory.read m (i + h))) 0 n m

/-- Step 3 of `Ola` writes ACC (44_synth_ola.md R198). -/
theorem olaShiftAcc_eq : olaShiftAcc s =
    { s with
      acc := loop (fun i m => Memory.write m i numZero) (2 * frameSize s - hopSize s) (hopSize s)
        (shiftDown (hopSize s) (2 * frameSize s - hopSize s) s.acc) } := by
  have h1 := loop_map (fun i m => Memory.write m i (Memory.read m (i + hopSize s)))
    (g := fun i t => { t with acc := t.acc.write i (t.acc.read (i + hopSize s)) })
    (fun m : Memory => ({ s with acc := m } : State)) 0 (2 * frameSize s - hopSize s) s.acc
    (fun _ _ _ _ => rfl)
  have h2 := loop_map (fun i m => Memory.write m i numZero)
    (g := fun i t => { t with acc := t.acc.write i numZero })
    (fun m : Memory => ({ s with acc := m } : State)) (2 * frameSize s - hopSize s) (hopSize s)
    (shiftDown (hopSize s) (2 * frameSize s - hopSize s) s.acc)
    (fun _ _ _ _ => rfl)
  rw [h2]
  unfold shiftDown
  rw [h1]
  rfl

/-- Step 4 of `Ola` writes INFIFO (44_synth_ola.md R199). -/
theorem olaShiftInput_eq : olaShiftInput s =
    { s with infifo := shiftDown (hopSize s) (latency s) s.infifo } :=
  (loop_map _ (fun m : Memory => ({ s with infifo := m } : State)) 0 (latency s) s.infifo
    (fun _ _ _ _ => rfl)).symm

/-- What a memory reads after its elements moved down. -/
theorem read_shiftDown (h n : Nat) (m : Memory) (i : Nat) :
    (shiftDown h n m).read i = if i < n then m.read (i + h) else m.read i := by
  unfold shiftDown
  have key := loop_induct (fun i m => Memory.write m i (Memory.read m (i + h)))
    (P := fun j x => ∀ i, Memory.read x i = if i < j then m.read (i + h) else m.read i) 0 n m
    (by simp) (by
      intro j y _ hy i
      simp only [Nat.zero_add, Memory.read_write, hy]
      by_cases h1 : i = j
      · subst h1
        by_cases h2 : h = 0
        · subst h2; simp
        · simp
      · rw [if_neg h1]
        congr 1
        simp only [eq_iff_iff]; omega)
  exact key i

/-- OLA changes ACC, OUTFIFO and INFIFO only (44_synth_ola.md R195). -/
theorem overlapAdd_frame : overlapAdd nm s =
    { s with acc := (overlapAdd nm s).acc, outfifo := (overlapAdd nm s).outfifo,
             infifo := (overlapAdd nm s).infifo } := by
  unfold overlapAdd
  rw [olaAccumulate_eq, olaEmit_eq, olaShiftAcc_eq, olaShiftInput_eq]

/-- `Remap` changes SYNMAG and SYNFRQ only (43_remapper.md R181). -/
theorem remap_frame : remap nm s =
    { s with synmag := (remap nm s).synmag, synfrq := (remap nm s).synfrq } := by
  rw [remap_eq]

/-- A cycle changes the ten RAMs only (41_stream_driver.md R141; 10_state.md R30). -/
theorem cycle_frame : cycle nm s =
    { s with ws := (cycle nm s).ws, infifo := (cycle nm s).infifo, outfifo := (cycle nm s).outfifo,
             acc := (cycle nm s).acc, lastph := (cycle nm s).lastph, sumph := (cycle nm s).sumph,
             anamag := (cycle nm s).anamag, anafrq := (cycle nm s).anafrq,
             synmag := (cycle nm s).synmag, synfrq := (cycle nm s).synfrq } := by
  unfold cycle
  rw [overlapAdd_frame, synthesize_frame, remap_frame, analyze_frame]

end Sys2Proof.Machine
end

