-- ==== Sys2Proof/Tests/Slice0.lean ====
section
/-! SUPPORT. Tests of the model, every expected value from the spec, and for each statement with
hypotheses a state and operands that meet them. -/

namespace Sys2Proof.Tests

open Sys2Proof.Machine

/-! ### Well-formedness: one ill-formed term for each check -/

theorem test_wf_refuses_wrmem_id_12 : (Instr.wrmem 12#4 0#24 0#32).wf = false := by decide
theorem test_wf_refuses_rdmem_id_15 : (Instr.rdmem 15#4 0#24).wf = false := by decide
theorem test_wf_accepts_id_11 : (Instr.wrmem 11#4 0#24 0#32).wf = true ∧ (Instr.rdmem 11#4 0#24).wf = true := by
  decide

/-! ### Decoding: words written out from 30_encoding.md R91 to R98, `OPC SEL IDX` -/

theorem test_decode_nop : decode (0#4 ++ 0#4 ++ 0#24) 7#32 = .ok .nop := rfl
theorem test_decode_reset : decode (1#4 ++ 0#4 ++ 0#24) 7#32 = .ok .reset := rfl
/-- `CONFIG 31`: the five low bits. -/
theorem test_decode_config : decode (2#4 ++ 0#4 ++ 0#19 ++ 31#5) 7#32 = .ok (.config 31#5) := rfl
/-- All 24 bits of `IDX` are the register number (R95). -/
theorem test_decode_wrreg : decode (3#4 ++ 0#4 ++ 0xFFFFFF#24) 7#32 = .ok (.wrreg 0xFFFFFF#24 7#32) := rfl
theorem test_decode_rdreg : decode (4#4 ++ 0#4 ++ 8#24) 7#32 = .ok (.rdreg 8#24) := rfl
theorem test_decode_wrmem : decode (5#4 ++ 9#4 ++ 0x800001#24) 7#32 = .ok (.wrmem 9#4 0x800001#24 7#32) := rfl
theorem test_decode_rdmem : decode (6#4 ++ 11#4 ++ 3#24) 7#32 = .ok (.rdmem 11#4 3#24) := rfl
/-- Bit 8 is `DIR` (R94). -/
theorem test_decode_fft_inverse : decode (7#4 ++ 0#4 ++ 0#15 ++ 1#1 ++ 0#3 ++ 13#5) 7#32 = .ok (.fft 13#5 .inv) := rfl
theorem test_decode_fft_forward : decode (7#4 ++ 0#4 ++ 0#15 ++ 0#1 ++ 0#3 ++ 13#5) 7#32 = .ok (.fft 13#5 .fwd) := rfl
theorem test_decode_push : decode (8#4 ++ 0#4 ++ 0#24) 7#32 = .ok (.push 7#32) := rfl
theorem test_decode_analyze : decode (9#4 ++ 0#4 ++ 0#24) 7#32 = .ok .analyze := rfl
theorem test_decode_remap : decode (10#4 ++ 0#4 ++ 0#24) 7#32 = .ok .remap := rfl
theorem test_decode_synth : decode (11#4 ++ 0#4 ++ 0#24) 7#32 = .ok .synth := rfl
theorem test_decode_ola : decode (12#4 ++ 0#4 ++ 0#24) 7#32 = .ok .ola := rfl
theorem test_decode_cycle : decode (13#4 ++ 0#4 ++ 0#24) 7#32 = .ok .cycle := rfl
theorem test_decode_clrerr : decode (14#4 ++ 0#4 ++ 0#24) 7#32 = .ok .clrerr := rfl

/-- One illegal word for each clause of 30_encoding.md R99, each next to a legal one. -/
theorem test_decode_refuses :
    decode 0xF0000000#32 0#32 = .error .reservedOpcode ∧ decode 0x00000001#32 0#32 = .error .formatZ ∧
    decode 0x81000000#32 0#32 = .error .formatZ ∧ decode 0x20000020#32 0#32 = .error .formatC ∧
    decode 0x70000020#32 0#32 = .error .formatT ∧ decode 0x70000200#32 0#32 = .error .formatT ∧
    decode 0x31000000#32 0#32 = .error .formatR ∧ decode 0x5C000000#32 0#32 = .error .formatM := by
  decide

/-! ### One step on a small state -/

/-- The state a command gives; the state itself where the machine stops. -/
def after (i : Instr) (s : State) : State :=
  match exec i s with
  | .next t => t
  | .fault _ => s
  | .refused _ => s

/-- Does the command give a next state? -/
def answers (i : Instr) (s : State) : Bool :=
  match exec i s with
  | .next _ => true
  | .fault _ => false
  | .refused _ => false

theorem exec_after {i : Instr} {s : State} (h : answers i s = true) : exec i s = .next (after i s) := by
  unfold answers at h
  unfold after
  split at h
  · next e => rw [e]
  · cases h
  · cases h

/-- Unconfigured, `OSAMP = 2`, `SRATE = 4.0`. -/
def ready : State := { State.reset with osamp := 2#6, srate := 0x40800000#32 }

/-- N = 4, osamp = 2, `SRATE = 4.0`: the set-up of the spec's examples. -/
def small : State := configure 2#5 ready

/-- N = 2, osamp = 1, `SRATE = 4.0`: the smallest frame. -/
def smallest : State := configure 1#5 { ready with osamp := 1#6 }

/-- 45_system.md R210 -/
theorem test_nop : after .nop small = { small with resp := some ⟨0#4, 0#32⟩ } := rfl

/-- 45_system.md R211: after RESET the register RATIO reads 1.0. -/
theorem test_reset : (after (.rdreg 4#24) (after .reset small)).resp = some ⟨0#4, 0x3F800000#32⟩ := rfl

/-- 45_system.md R212: STATUS bit 10 set by `RDREG 9`, cleared by CLRERR. -/
theorem test_clrerr :
    (after (.rdreg 0#24) (after (.rdreg 9#24) State.reset)).resp = some ⟨0#4, 0x00000400#32⟩ ∧
    (after (.rdreg 0#24) (after .clrerr (after (.rdreg 9#24) State.reset))).resp =
      some ⟨0#4, 0#32⟩ := by decide

/-- 45_system.md R213, the example: `ROVER`, `WIN[1]` and `TW[3]` after `CONFIG 2`. -/
theorem test_config : (after (.config 2#5) ready).rover = 2#32 ∧
    memRead (after (.config 2#5) ready) .win 1 = 0x3F000000#32 ∧
    memRead (after (.config 2#5) ready) .tw 3 = 0x3F800000#32 := by decide +kernel

/-- 45_system.md R213: `CONFIG 2` straight after reset. -/
theorem test_config_refused : (after (.config 2#5) State.reset).resp = some ⟨6#4, 0#32⟩ ∧
    statusWord (after (.config 2#5) State.reset) = 0x00002000#32 := by decide

/-- 45_system.md R214 -/
theorem test_rdreg : (after (.rdreg 4#24) State.reset).resp = some ⟨0#4, 0x3F800000#32⟩ ∧
    (after (.rdreg 8#24) State.reset).resp = some ⟨3#4, 0#32⟩ := by decide

/-- 45_system.md R215, corner cases of OSAMP: 8 before CONFIG, 8 with N = 4, bit 8 set. -/
theorem test_wrreg_osamp : (after (.wrreg 2#24 8#32) State.reset).osamp = 8#6 ∧
    (after (.wrreg 2#24 8#32) small).resp = some ⟨5#4, 0#32⟩ ∧
    (after (.wrreg 2#24 0x102#32) State.reset).resp = some ⟨5#4, 0#32⟩ := by decide +kernel

/-- 45_system.md R215: RATIO takes the smallest subnormal and refuses -1.0 and infinity. -/
theorem test_wrreg_ratio : (after (.wrreg 4#24 1#32) State.reset).ratio = 1#32 ∧
    (after (.wrreg 4#24 0xBF800000#32) State.reset).resp = some ⟨5#4, 0#32⟩ ∧
    (after (.wrreg 4#24 0x7F800000#32) State.reset).resp = some ⟨5#4, 0#32⟩ := by decide

/-- 45_system.md R216: the last index of LASTPH and the one beyond it, N = 4. -/
theorem test_rdmem : (after (.rdmem 4#4 2#24) small).resp = some ⟨0#4, 0#32⟩ ∧
    (after (.rdmem 4#4 3#24) small).resp = some ⟨3#4, 0#32⟩ := by decide +kernel

/-- 10_state.md R30: the first id, the last RAM, the two ROMs and the first reserved id. -/
theorem test_memory_ids : memOfSel 0#4 = some .ws ∧ memOfSel 9#4 = some .synfrq ∧
    memOfSel 10#4 = some .win ∧ memOfSel 11#4 = some .tw ∧ memOfSel 12#4 = none := by decide

/-- 45_system.md R217, R245: a stored NaN keeps its payload; range before read-only. -/
theorem test_wrmem : memRead (after (.wrmem 5#4 2#24 0x7F800001#32) small) .sumph 2 = 0x7F800001#32 ∧
    (after (.wrmem 10#4 4#24 0#32) small).resp = some ⟨3#4, 0#32⟩ ∧
    (after (.wrmem 10#4 0#24 0#32) small).resp = some ⟨4#4, 0#32⟩ := by decide +kernel

/-- The frame `1, 2, 3, 4` in the workspace. -/
def ramp : State :=
  { small with ws := [(0, 0x3F800000#32), (2, 0x40000000#32), (4, 0x40400000#32), (6, 0x40800000#32)] }

/-- 40_transform.md R121, the example: `[10,0, -2,2, -2,0, -2,-2]`. -/
theorem test_fft_forward : (List.range 8).map (memRead (after (.fft 2#5 .fwd) ramp) .ws) =
    [0x41200000#32, 0x00000000#32, 0xC0000000#32, 0x40000000#32,
     0xC0000000#32, 0x00000000#32, 0xC0000000#32, 0xC0000000#32] := by decide +kernel

/-- 40_transform.md R125: the inverse of the unit impulse at pair 1 is `[1, i, -1, -i]`. -/
theorem test_fft_inverse :
    (List.range 8).map (fun i => numVal (memRead
      (after (.fft 2#5 .inv) { small with ws := [(2, 0x3F800000#32)] }) .ws i) / 2 ^ 149) =
    [1, 0, 0, 1, -1, 0, 0, -1] := by decide +kernel

/-- 41_stream_driver.md R143, the first push of the example. -/
theorem test_push : after (.push 0x40400000#32) small =
    { small with infifo := [(2, 0x40400000#32)], rover := 3#32, resp := some ⟨0#4, 0#32⟩ } := by
  decide +kernel

/-- 41_stream_driver.md R143: the push that ends the hop moves the cursor to `L` and sets CYC. -/
theorem test_push_ends_hop : (after (.push 0#32) { small with rover := 3#32 }).rover = 2#32 ∧
    (after (.push 0#32) { small with rover := 3#32 }).cyc = true := by decide +kernel

/-- The frame `0, 0, 3, 2` of 42_analyzer.md R168. -/
def framed : State := { small with infifo := [(2, 0x40400000#32), (3, 0x40000000#32)] }

/-- 42_analyzer.md R168: magnitudes 8, 6.3245554 and 4. -/
theorem test_analyze : (List.range 3).map (memRead (after .analyze framed) .anamag) =
    [0x41000000#32, 0x40CA62C2#32, 0x40800000#32] := by decide +kernel

/-- 43_remapper.md R184, the example with N = 8. -/
def bins : State :=
  { small with
    log2n := 3#5
    anamag := [(0, 0x3F800000#32), (1, 0x40000000#32), (2, 0x40800000#32), (3, 0x41000000#32),
      (4, 0x41800000#32)]
    anafrq := [(0, 0x3E800000#32), (1, 0x3FA00000#32), (2, 0x40100000#32), (3, 0x40500000#32),
      (4, 0x40880000#32)] }

/-- 43_remapper.md R184, row `RATIO = 0.75`: SYNMAG is `3, 4, 8, 16, 0`. -/
theorem test_remap_magnitudes :
    (List.range 5).map (memRead (after .remap { bins with ratio := 0x3F400000#32 }) .synmag) =
    [0x40400000#32, 0x40800000#32, 0x41000000#32, 0x41800000#32, 0#32] := by decide +kernel

/-- 43_remapper.md R184, row `RATIO = 0.5`: SYNFRQ is `0.625, 1.625, 2.125, 0, 0`. -/
theorem test_remap_frequencies :
    (List.range 5).map (memRead (after .remap { bins with ratio := 0x3F000000#32 }) .synfrq) =
    [0x3F200000#32, 0x3FD00000#32, 0x40080000#32, 0#32, 0#32] := by decide +kernel

/-- 44_synth_ola.md R194: `SUMPH[2] = 6.2831853` from `SYNFRQ[2] = 2`. -/
theorem test_synth : memRead (after .synth { small with synfrq := [(2, 0x40000000#32)] }) .sumph 2 =
    0x40C90FDB#32 := by decide +kernel

/-- 44_synth_ola.md R200: the frame with real parts `6, 2, 18, 6` and the input `0, 0, 3, 2`. -/
def synthesised : State :=
  { framed with
    ws := [(0, 0x40C00000#32), (2, 0x40000000#32), (4, 0x41900000#32), (6, 0x40C00000#32)] }

/-- 44_synth_ola.md R200: `OUTFIFO = [0, 0.5]`, `ACC = [9, 1.5, 0, 0]`. -/
theorem test_ola_output :
    (List.range 2).map (memRead (after .ola synthesised) .outfifo) = [0#32, 0x3F000000#32] ∧
    (List.range 4).map (memRead (after .ola synthesised) .acc) =
      [0x41100000#32, 0x3FC00000#32, 0#32, 0#32] := by decide +kernel

/-- 44_synth_ola.md R200: `INFIFO = [3, 2, 3, 2]`. -/
theorem test_ola_input : (List.range 4).map (memRead (after .ola synthesised) .infifo) =
    [0x40400000#32, 0x40000000#32, 0x40400000#32, 0x40000000#32] := by decide +kernel

/-- 41_stream_driver.md R145: CYC set, ROVER not moved. -/
theorem test_cycle : (after .cycle small).cyc = true ∧ (after .cycle small).rover = 2#32 := by
  decide +kernel

/-! ### Constants and the fold -/

/-- 10_state.md R37, the window of N = 8. -/
theorem test_window_rom_8 : (List.range 8).map (winRom 8).read =
    [0x00000000#32, 0x3E15F61A#32, 0x3F000000#32, 0x3F5A827A#32, 0x3F800000#32, 0x3F5A827A#32,
     0x3F000000#32, 0x3E15F61A#32] := by decide +kernel

/-- 10_state.md R38, the twiddles of N = 8. -/
theorem test_twiddle_rom_8 : (List.range 8).map (twRom 8).read =
    [0x3F800000#32, 0x00000000#32, 0x3F3504F3#32, 0x3F3504F3#32, 0x00000000#32, 0x3F800000#32,
     0xBF3504F3#32, 0x3F3504F3#32] := by decide +kernel

/-- 42_analyzer.md R166: the bit-exact fold vectors F2 of 95_test_vectors.md. -/
theorem test_fold :
    [0x3F800000#32, 0xBF800000#32, 0x40000000#32, 0xC0000000#32, 0x40800000#32, 0xC0800000#32,
      0x41200000#32, 0xC1200000#32, 0xC0C90FDB#32].map (fold Config.numerics) =
    [0x3F800000#32, 0x40A90FDB#32, 0x40000000#32, 0x40890FDB#32, 0xC0121FB6#32, 0x40121FB6#32,
      0xC0243F6C#32, 0x40243F6C#32, 0x00000000#32] := by decide +kernel

/-- Functions of NUMERICS that answer one value everywhere. -/
def constantNumerics (v : Sys2Proof.Num) : Numerics := ⟨fun _ => v, fun _ => v, fun _ _ => v, fun _ _ _ => 0#23⟩

/-- 00_scope.md R11, P-ACC at the smallest Num `a`: the cosine is a little below 1, where one unit in the
last place is 2^-24, so `1 - 2^-23` is too far off and `1 - 2^-24` is not. -/
theorem test_cosine_accuracy :
    numCos (constantNumerics 0x3F7FFFFE#32) 1#32 = 0x3F800000#32 ∧
    numCos (constantNumerics 0x3F7FFFFF#32) 1#32 = 0x3F7FFFFF#32 := by decide +kernel

/-- The sine is a little below `a`: `a + 2^-149` is too far off and `a - 2^-149` is not. -/
theorem test_sine_accuracy :
    numSin (constantNumerics 0x00000003#32) 2#32 = 0x00000002#32 ∧
    numSin (constantNumerics 0x00000001#32) 2#32 = 0x00000001#32 := by decide +kernel

/-- 30_encoding.md R101, R102: a line with a comment, and a pseudo-instruction. -/
theorem test_assembler : assembledWords "wrreg RATIO, 0.5 ; half" = some [(0x30000004#32, 0x3F000000#32)] ∧
    assembledWords "LOADC 1, -1.0, inf" =
      some [(0x50000002#32, 0xBF800000#32), (0x50000003#32, 0x7F800000#32)] := by decide +kernel

/-- The host's first request after reset is fetched and run: `RDREG RATIO`. -/
theorem test_fetch : ∃ t, step (State.reset.withFetchWord 32 0x40000004) = .next t ∧
    t.resp = some ⟨0#4, 0x3F800000#32⟩ := ⟨_, rfl, rfl⟩

/-! ### Witnesses: states and operands that meet the hypotheses of the statements -/

theorem small_inv : Inv small where
  mems := fun m => by cases m <;> decide +kernel
  unconf := fun h => absurd h (by decide)
  frame := fun _ => by decide +kernel
  roms := fun _ => by decide +kernel
  osampLegal := by decide
  srateLegal := by decide
  ratioLegal := by decide
  respLegal := fun _ h => nomatch h

theorem smallest_inv : Inv smallest where
  mems := fun m => by cases m <;> decide +kernel
  unconf := fun h => absurd h (by decide)
  frame := fun _ => by decide +kernel
  roms := fun _ => by decide +kernel
  osampLegal := by decide
  srateLegal := by decide
  ratioLegal := by decide
  respLegal := fun _ h => nomatch h

theorem witness_DecodeEncodeRoundTrip : (Instr.rdmem 11#4 0xFFFFFF#24).wf = true := by decide

/-- Each clause of R99 at the boundary of its range. -/
theorem witness_IllegalWordsAreRefused :
    (withRequest small 0xF0000000#32 0#32).host = .request 0xF0000000#32 0#32 :: small.host ∧
    illegalWord 0xF0000000#32 ∧ illegalWord 0x00000001#32 ∧ illegalWord 0x80000001#32 ∧
    illegalWord 0xE8000000#32 ∧ illegalWord 0x20000020#32 ∧ illegalWord 0x70000020#32 ∧
    illegalWord 0x70000080#32 ∧ illegalWord 0x70000200#32 ∧ illegalWord 0x31000000#32 ∧
    illegalWord 0x41000000#32 ∧ illegalWord 0x5C000000#32 ∧ illegalWord 0x6F000000#32 := by
  refine ⟨rfl, ?_⟩
  and_intros <;> unfold illegalWord <;> decide

/-- The legal words next to those of `witness_IllegalWordsAreRefused`. -/
theorem witness_legal_words :
    ¬ illegalWord 0x00000000#32 ∧ ¬ illegalWord 0xE0000000#32 ∧ ¬ illegalWord 0x2000001F#32 ∧
    ¬ illegalWord 0x7000011F#32 ∧ ¬ illegalWord 0x30FFFFFF#32 ∧ ¬ illegalWord 0x40FFFFFF#32 ∧
    ¬ illegalWord 0x5BFFFFFF#32 ∧ ¬ illegalWord 0x6B000000#32 := by
  and_intros <;> unfold illegalWord <;> decide

theorem witness_DecoderIsTotal : decode 0x6B000008#32 0#32 = .ok (.rdmem 11#4 8#24) ∧
    mnemonicsOf 0x6B000008#32 = ["RDMEM"] ∧ mnemonicsOf 0x6C000000#32 = ["RDMEM"] := by decide

theorem witness_StepRunsDecodedRequest :
    (withRequest small 0x70000002#32 0#32).host = .request 0x70000002#32 0#32 :: [] ∧
    decode 0x70000002#32 0#32 = .ok (.fft 2#5 .fwd) := ⟨rfl, rfl⟩

theorem witness_StepOnOtherHostEvents : small.host = [] ∧
    ({ small with host := [.hardReset] } : State).host = .hardReset :: [] ∧
    ({ small with host := [.violation] } : State).host = .violation :: [] := ⟨rfl, rfl, rfl⟩

theorem witness_ResetState : State.reset.cfgd = false ∧
    ∀ i ∈ [Instr.rdmem 11#4 0#24, .wrmem 0#4 0#24 1#32, .fft 0#5 .fwd, .push 0#32, .analyze, .remap,
      .synth, .ola, .cycle], i.wf = true ∧
      i.mnemonic ∈ ["RDMEM", "WRMEM", "FFT", "PUSH", "ANALYZE", "REMAP", "SYNTH", "OLA", "CYCLE"] := by
  decide

theorem witness_ResetCommand : ∃ t, exec .reset small = .next t := ⟨_, rfl⟩

theorem witness_RdregValues : 7 < (8#24).toNat ∧ 7 < (0xFFFFFF#24).toNat := by decide

theorem witness_StatusBits : 7 < (8#24).toNat ∧ 7 < (0xFFFFFF#24).toNat := by decide

/-- The boundary values of the six clauses: 32 before CONFIG, 4 and 8 with N = 4, the ends of the legal
positive numbers and the words beyond them. -/
theorem witness_WrregResults :
    7 < (8#24).toNat ∧ (7#24).toNat ∈ [0, 1, 5, 6, 7] ∧
    ((32#32).toNat ∈ [1, 2, 4, 8, 16, 32] ∧
      (32#32).toNat ≤ 2 ^ (if State.reset.cfgd then State.reset.log2n.toNat else 31)) ∧
    ((4#32).toNat ∈ [1, 2, 4, 8, 16, 32] ∧
      (4#32).toNat ≤ 2 ^ (if small.cfgd then small.log2n.toNat else 31)) ∧
    ¬ ((8#32).toNat ∈ [1, 2, 4, 8, 16, 32] ∧
      (8#32).toNat ≤ 2 ^ (if small.cfgd then small.log2n.toNat else 31)) ∧
    (1 ≤ (1#32).toNat ∧ (0x7F7FFFFF#32).toNat ≤ 0x7F7FFFFF) ∧
    ¬ (1 ≤ (0#32).toNat ∧ (0#32).toNat ≤ 0x7F7FFFFF) ∧
    ¬ (1 ≤ (0x7F800000#32).toNat ∧ (0x7F800000#32).toNat ≤ 0x7F7FFFFF) := by decide

/-- The smallest and the largest frame. -/
theorem witness_ConfigAccepts :
    (1 ≤ (1#5).toNat ∧ (1#5).toNat ≤ 13 ∧ ready.osamp.toNat ∈ [1, 2, 4, 8, 16, 32] ∧
      ready.osamp.toNat ≤ 2 ^ (1#5).toNat ∧ 1 ≤ ready.srate.toNat ∧ ready.srate.toNat ≤ 0x7F7FFFFF) ∧
    (1 ≤ (13#5).toNat ∧ (13#5).toNat ≤ 13 ∧ ready.osamp.toNat ≤ 2 ^ (13#5).toNat) := by decide

/-- Each reason for a refusal. -/
theorem witness_ConfigRefuses : (0#5).toNat < 1 ∧ 13 < (14#5).toNat ∧
    ¬ (State.reset.osamp.toNat ∈ [1, 2, 4, 8, 16, 32] ∧ State.reset.osamp.toNat ≤ 2 ^ (2#5).toNat) ∧
    ¬ (1 ≤ State.reset.srate.toNat ∧ State.reset.srate.toNat ≤ 0x7F7FFFFF) := by decide

/-- Unconfigured and configured, the boundary ids, and the largest index of the largest memory, N = 4. -/
theorem witness_MemoryDepths : small.cfgd = true ∧ State.reset.cfgd = false ∧
    12 ≤ (12#4).toNat ∧ ¬ 12 ≤ (11#4).toNat ∧ small.log2n.toNat ≤ 23 ∧ depth small .acc = 8 := by decide

/-- Each clause: reserved id, unconfigured, the first index beyond LASTPH and the last inside, a ROM and a
RAM. -/
theorem witness_AccessPortOrder : memOfSel 12#4 = none ∧ memOfSel 4#4 = some .lastph ∧
    memOfSel 10#4 = some .win ∧ State.reset.cfgd = false ∧ small.cfgd = true ∧
    depth small .lastph ≤ (3#24).toNat ∧ (2#24).toNat < depth small .lastph ∧
    (3#24).toNat < depth small .win := by decide

theorem witness_WrmemStores : memOfSel 4#4 = some .lastph ∧ small.cfgd = true ∧
    (2#24).toNat < depth small .lastph ∧ MemId.lastph ≠ .win ∧ MemId.lastph ≠ .tw := by decide

theorem witness_CanonicalMemoryIsExtensional :
    Memory.wf [(0, 1#32), (7, 2#32)] = true ∧ Memory.wf [] = true := by decide

/-- Each clause: unconfigured, one exponent too large, the largest that fits, and 0. -/
theorem witness_FftCommand : State.reset.cfgd = false ∧ small.cfgd = true ∧
    small.log2n.toNat < (3#5).toNat ∧ (2#5).toNat ≤ small.log2n.toNat ∧
    (0#5).toNat ≤ small.log2n.toNat ∧ 2 * 2 ^ (1#5).toNat ≤ 4 := by decide

theorem witness_BitReversalPermutes : 7 < 2 ^ 3 ∧ 2 * 2 ^ 3 ≤ 16 ∧ 2 < 3 := by decide

/-- The last butterfly of the last stage of a transform shorter than the frame. -/
theorem witness_ButterflyStageResult : 1 ≤ 2 ∧ 2 ≤ 2 ∧ 2 ≤ 3 ∧ 0 < 2 ^ (2 - 2) ∧ 1 < 2 ^ (2 - 1) ∧
    2 * 2 ^ 2 ≤ 8 := by decide

/-- Another WS leaves the twiddles. (Said of every state, so that no ROM is evaluated.) -/
theorem setWs_tw (s : State) (m : Memory) (i : Nat) : s.tw.read i = { s with ws := m }.tw.read i := rfl

/-- Two engines that differ in WS beyond the pairs of the transform. -/
theorem witness_FftReadsOnlyItsPairs : ∃ t t' : State,
    ramp.cfgd = true ∧ { ramp with ws := ramp.ws ++ [(7, 1#32)] }.cfgd = true ∧
    ramp.log2n = { ramp with ws := ramp.ws ++ [(7, 1#32)] }.log2n ∧
    (1#5).toNat ≤ ramp.log2n.toNat ∧
    (∀ i : Nat, i < 2 ^ ramp.log2n.toNat →
      ramp.tw.read i = { ramp with ws := ramp.ws ++ [(7, 1#32)] }.tw.read i) ∧
    (∀ i : Nat, i < 2 * 2 ^ (1#5).toNat →
      ramp.ws.read i = { ramp with ws := ramp.ws ++ [(7, 1#32)] }.ws.read i) ∧
    exec (.fft 1#5 .fwd) ramp = .next t ∧
    exec (.fft 1#5 .fwd) { ramp with ws := ramp.ws ++ [(7, 1#32)] } = .next t' :=
  ⟨after (.fft 1#5 .fwd) ramp, after (.fft 1#5 .fwd) _, rfl, rfl, rfl, by decide, fun i _ => setWs_tw ramp _ i,
    by decide +kernel, exec_after (by decide +kernel), exec_after (by decide +kernel)⟩

/-- The exact twiddles of any frame size. -/
noncomputable def exactRom (log2n : Nat) (i : Nat) : ℝ :=
  if i % 2 = 0 then Real.cos (2 * Real.pi * (i / 2 : Nat) / 2 ^ log2n)
  else Real.sin (2 * Real.pi * (i / 2 : Nat) / 2 ^ log2n)

theorem witness_NetworkIsFourierTransform : 2 ≤ 3 ∧ exactTwiddles 3 (exactRom 3) ∧ 3 < 2 ^ 2 := by
  refine ⟨by decide, fun j _ => ⟨?_, ?_⟩, by decide⟩
  · unfold exactRom
    rw [if_pos (by omega), show 2 * j / 2 = j by omega]
  · unfold exactRom
    rw [if_neg (by omega), show (2 * j + 1) / 2 = j by omega]

theorem witness_TransformRoundTrip : 3 ≤ 3 ∧ exactTwiddles 3 (exactRom 3) ∧ 15 < 2 * 2 ^ 3 :=
  ⟨by decide, witness_NetworkIsFourierTransform.2.1, by decide⟩

/-- The last bin analysed and the first that is not, N = 4. -/
theorem witness_AnalyzeResult : framed.cfgd = true ∧ 3 < 2 ^ framed.log2n.toNat ∧
    2 ≤ 2 ^ framed.log2n.toNat / 2 ∧ 2 ^ framed.log2n.toNat / 2 < 3 := by decide

/-- Each clause: 2.0 has q = 0, 4.0 has q = 1, -1.0 has q = -1 (95_test_vectors.md F2). -/
theorem witness_FoldSubtractsEvenMultiple :
    [0x40000000#32, 0x40800000#32, 0xBF800000#32].map
        (fun t => numFloor Config.numerics (numDiv Config.numerics t numPi)) =
      [0x00000000#32, 0x3F800000#32, 0xBF800000#32] ∧
    (isFin 0x00000000#32 = true ∧ isFin 0x3F800000#32 = true ∧ isFin 0xBF800000#32 = true) ∧
    numFloorInt 0x00000000#32 = 0 ∧ numFloorInt 0x3F800000#32 = 1 ∧ numFloorInt 0xBF800000#32 = -1 := by
  decide +kernel

theorem witness_HopPhaseIsExact : Inv small ∧ small.cfgd = true := ⟨small_inv, rfl⟩

/-- `RATIO = 2.0` at N = 8: bins 1 and 2 map to 2 and 4, bins 3 and 4 are discarded. `RATIO = 0.75`: bin 1
goes to the floor 0 of 0.75. The largest `RATIO`: the product of bin 2 overflows. -/
theorem witness_RemapDestinations : legalPos 0x40000000#32 = true ∧ 3 ≤ 23 ∧
    destBin Config.numerics 0x40000000#32 (2 ^ 3 / 2) 1 = some 2 ∧
    destBin Config.numerics 0x40000000#32 (2 ^ 3 / 2) 2 = some 4 ∧
    destBin Config.numerics 0x40000000#32 (2 ^ 3 / 2) 3 = none ∧ 4 ≤ 2 ^ 3 / 2 ∧
    (legalPos 0x3F400000#32 = true ∧ destBin Config.numerics 0x3F400000#32 (2 ^ 3 / 2) 1 = some 0) ∧
    (legalPos 0x7F7FFFFF#32 = true ∧ isFin (numMul Config.numerics (numOfNat 2) 0x7F7FFFFF#32) = false ∧
      destBin Config.numerics 0x7F7FFFFF#32 (2 ^ 3 / 2) 2 = none) := by decide +kernel

theorem witness_RemapResult : bins.cfgd = true ∧ 7 < 2 ^ bins.log2n.toNat ∧ 2 ^ bins.log2n.toNat ≤ 8 := by
  decide

theorem witness_RemapIsIdempotent : ∃ t u : State, bins.cfgd = true ∧ exec .remap bins = .next t ∧
    exec .remap t = .next u := by
  have h : (after .remap bins).cfgd = true := by decide +kernel
  refine ⟨after .remap bins,
    { remap Config.numerics (after .remap bins) with resp := some ⟨okCode, 0#32⟩ }, rfl, rfl, ?_⟩
  show execRemap _ = _
  unfold execRemap
  rw [ifConfigured_of_cfgd h, respond_eq]

/-- The last bin of N = 8. -/
theorem witness_RemapIdentityCopies : ∃ t : State, bins.cfgd = true ∧ bins.log2n.toNat ≤ 23 ∧
    bins.ratio = 0x3F800000#32 ∧ exec .remap bins = .next t ∧ 4 ≤ 2 ^ bins.log2n.toNat / 2 ∧
    isNaN (bins.anamag.read 4) = false ∧ bins.anamag.read 4 ≠ 0x80000000#32 ∧
    isNaN (bins.anafrq.read 4) = false :=
  ⟨_, rfl, by decide, rfl, rfl, by decide, by decide +kernel, by decide +kernel, by decide +kernel⟩

/-- The last bin, the first beyond, and the mirror region of N = 4. -/
theorem witness_SynthResult : small.cfgd = true ∧ 1 ≤ small.log2n.toNat ∧
    2 ≤ 2 ^ small.log2n.toNat / 2 ∧ 2 ^ small.log2n.toNat / 2 < 3 ∧ 2 ^ small.log2n.toNat + 2 ≤ 6 ∧
    7 < 2 * 2 ^ small.log2n.toNat ∧ 2 * 2 ^ small.log2n.toNat ≤ 8 := by decide

theorem witness_OlaResult : synthesised.cfgd = true := rfl

/-- OLA, and WRMEM at the last index below the upper half, N = 4. -/
theorem witness_UpperAccumulatorStaysZero :
    (∀ (idx : BitVec 24) (v : Word), Instr.ola = .wrmem 3#4 idx v → idx.toNat < 2 ^ synthesised.log2n.toNat) ∧
    (∀ (idx : BitVec 24) (v : Word), Instr.wrmem 3#4 3#24 0x3F800000#32 = .wrmem 3#4 idx v →
      idx.toNat < 2 ^ synthesised.log2n.toNat) ∧
    (synthesised.cfgd = true → ∀ k : Nat, 2 ^ synthesised.log2n.toNat ≤ k →
      k < 2 * 2 ^ synthesised.log2n.toNat → synthesised.acc.read k = 0#32) ∧
    (∃ t : State, exec .ola synthesised = .next t ∧ t.cfgd = true) ∧
    ∃ t : State, exec (.wrmem 3#4 3#24 0x3F800000#32) synthesised = .next t ∧ t.cfgd = true ∧
      t.acc.read 3 = 0x3F800000#32 :=
  ⟨fun _ _ => nofun, fun _ _ h => by cases h; decide, fun _ _ _ _ => rfl,
    ⟨after .ola synthesised, rfl, by decide +kernel⟩,
    ⟨after (.wrmem 3#4 3#24 0x3F800000#32) synthesised, rfl, by decide +kernel, by decide +kernel⟩⟩

theorem witness_UpperAccumulatorIsRestored : Inv small ∧ small.cfgd = true ∧
    2 ^ small.log2n.toNat ≤ 7 ∧ 7 < 2 * 2 ^ small.log2n.toNat := ⟨small_inv, rfl, by decide, by decide⟩

theorem witness_CycleIsFourStages : framed.cfgd = true := rfl

/-- The last cursor inside a hop and the one that ends it, N = 4. -/
theorem witness_PushResult : small.cfgd = true ∧
    ({ small with rover := 2#32 } : State).rover.toNat + 1 < 2 ^ small.log2n.toNat ∧
    2 ^ small.log2n.toNat ≤ ({ small with rover := 3#32 } : State).rover.toNat + 1 := by decide

theorem witness_HopOfPushes : Inv small ∧ small.cfgd = true ∧ small.rover.toNat = latency small ∧
    [0x40400000#32, 0x40000000#32].length = hopSize small :=
  ⟨small_inv, rfl, by decide, by decide⟩

theorem witness_StreamCadence : Inv small ∧ small.cfgd = true ∧ small.rover.toNat = latency small ∧
    [0x40400000#32, 0x40000000#32, 0x3F800000#32] ≠ [] := ⟨small_inv, rfl, by decide, by decide⟩

theorem witness_SilentCycle : ∃ t : State, Inv smallest ∧ smallest.cfgd = true ∧
    (∀ k : Nat, k < frameSize smallest → smallest.infifo.read k = 0x00000000#32) ∧
    (∀ k : Nat, k < 2 * frameSize smallest → isZero (smallest.acc.read k) = true) ∧
    exec .cycle smallest = .next t ∧
    (∀ k : Nat, k ≤ frameSize smallest / 2 → isFin (t.sumph.read k) = true) :=
  ⟨after .cycle smallest, smallest_inv, rfl, fun _ _ => rfl,
    fun k _ => (rfl : isZero 0x00000000#32 = true), rfl, fun k hk => by
    have h : ∀ k < 2, isFin ((after .cycle smallest).sumph.read k) = true := by decide +kernel
    have hn : frameSize smallest / 2 = 1 := by decide
    exact h k (by rw [hn] at hk; omega)⟩

/-- The state with other contents in all five transient memories. -/
def otherTransients (s : State) : State :=
  { s with
    ws := [(1, 1#32)]
    anamag := []
    anafrq := []
    synmag := [(2, 1#32)]
    synfrq := [(3, 1#32)] }

theorem otherTransients_persistent (s : State) : persistentPart s = persistentPart (otherTransients s) := rfl

theorem witness_TransientMemoriesAreDead : ∃ t t' u u' : State,
    persistentPart bins = persistentPart (otherTransients bins) ∧
    exec (.push 5#32) bins = .next t ∧ exec (.push 5#32) (otherTransients bins) = .next t' ∧
    exec .cycle bins = .next u ∧ exec .cycle (otherTransients bins) = .next u' :=
  ⟨after (.push 5#32) bins, after (.push 5#32) (otherTransients bins), after .cycle bins,
    after .cycle (otherTransients bins), otherTransients_persistent bins,
    exec_after (by decide +kernel), exec_after (by decide +kernel), exec_after (by decide +kernel),
    exec_after (by decide +kernel)⟩

theorem witness_RoverStaysInHop : ∃ t : State, Inv small ∧
    (small.cfgd = true → latency small ≤ small.rover.toNat) ∧
    (∀ v : Word, Instr.push 5#32 ≠ .wrreg 2#24 v) ∧ exec (.push 5#32) small = .next t ∧ t.cfgd = true :=
  ⟨after (.push 5#32) small, small_inv, fun _ => by decide, fun _ => nofun, rfl, by decide +kernel⟩

theorem witness_InvKeptByStep : ∃ t : State, Inv small ∧ step small = .next t := ⟨_, small_inv, rfl⟩

theorem witness_ErrorsArePrecise : ∃ (t : State) (r : Response),
    exec (.rdreg 8#24) small = .next t ∧ t.resp = some r ∧ r.code ≠ 0#4 :=
  ⟨_, ⟨3#4, 0#32⟩, rfl, rfl, by decide⟩

theorem witness_PossibleErrorCodes : ∃ (t : State) (r : Response), (Instr.rdreg 8#24).wf = true ∧
    exec (.rdreg 8#24) small = .next t ∧ t.resp = some r ∧ Err.ro ∈ possibleErrors (.wrmem 10#4 0#24 0#32) :=
  ⟨_, ⟨3#4, 0#32⟩, rfl, rfl, rfl, by decide⟩

/-- The state with CYC and a sticky flag set. -/
def flagged (s : State) : State := { s with cyc := true, fRange := true }

theorem flagged_same (s : State) : sameButFlags s (flagged s) := rfl

/-- Two states that differ in CYC and a sticky flag. -/
theorem witness_FlagsAreNotRead : ∃ t t' : State, Instr.clrerr ≠ .rdreg 0#24 ∧
    sameButFlags small (flagged small) ∧
    exec .clrerr small = .next t ∧ exec .clrerr (flagged small) = .next t' :=
  ⟨after .clrerr small, after .clrerr _, by decide, flagged_same small, exec_after (by decide +kernel),
    exec_after (by decide +kernel)⟩

theorem witness_MemoryWriters : ∃ t : State, mayWrite .ola .sumph = false ∧
    exec .ola small = .next t := ⟨_, rfl, rfl⟩

theorem witness_RegisterWriters : ∃ t : State, exec .ola { small with fRo := true } = .next t ∧
    Instr.ola ≠ .reset ∧ Instr.ola ≠ .clrerr ∧ stickyFlag .ro { small with fRo := true } = true :=
  ⟨_, rfl, by decide, by decide, rfl⟩

/-- The smallest and the largest frame. -/
theorem witness_SetupConfigures : State.reset.cfgd = false ∧ 1 ≤ (1#5).toNat ∧ (13#5).toNat ≤ 13 ∧
    (32#32).toNat ∈ [1, 2, 4, 8, 16, 32] ∧ (32#32).toNat ≤ 2 ^ (13#5).toNat ∧ (2#32).toNat ≤ 2 ^ (1#5).toNat ∧
    1 ≤ (1#32).toNat ∧ (0x7F7FFFFF#32).toNat ≤ 0x7F7FFFFF := by decide

theorem witness_EnginesShareNothing : ∃ t : State, [State.reset, small][1]? = some small ∧
    step small = .next t := ⟨_, rfl, rfl⟩

theorem numReal_one : numReal 0x3F800000#32 = 1 := by
  have h : numVal 0x3F800000#32 = 2 ^ 149 := by decide +kernel
  unfold numReal
  rw [h]
  norm_num

theorem numReal_minus_one : numReal 0xBF800000#32 = -1 := by
  have h : numVal 0xBF800000#32 = -2 ^ 149 := by decide +kernel
  unfold numReal
  rw [h]
  norm_num

theorem numReal_zero : numReal 0x00000000#32 = 0 := by
  have h : numVal 0x00000000#32 = 0 := by decide +kernel
  unfold numReal
  rw [h]
  norm_num

/-- Each clause: 1 + 1, 1 - 1, 1 + (-1), 1 - (-1), 1 · 1, 1 · 0, 1 / 1, 0 / 1. -/
theorem witness_ArithmeticIsCorrectlyRounded :
    isFin 0x3F800000#32 = true ∧ isFin 0xBF800000#32 = true ∧ isFin 0x00000000#32 = true ∧
    numReal 0x3F800000#32 + numReal 0x3F800000#32 ≠ 0 ∧
    numReal 0x3F800000#32 + numReal 0xBF800000#32 = 0 ∧
    numReal 0x3F800000#32 - numReal 0xBF800000#32 ≠ 0 ∧
    numReal 0x3F800000#32 - numReal 0x3F800000#32 = 0 ∧
    numReal 0x3F800000#32 * numReal 0x3F800000#32 ≠ 0 ∧
    numReal 0x3F800000#32 * numReal 0x00000000#32 = 0 ∧ numReal 0x3F800000#32 ≠ 0 := by
  rw [numReal_one, numReal_minus_one, numReal_zero]
  refine ⟨rfl, rfl, rfl, ?_⟩
  norm_num

theorem witness_RootAndFloorAreExact : isFin 0x3F800000#32 = true ∧ 0 < numReal 0x3F800000#32 ∧
    isZero 0x80000000#32 = true := by
  rw [numReal_one]
  exact ⟨rfl, one_pos, rfl⟩

/-- A NaN, both infinities, both zeros, the largest finite Num and the smallest subnormal. -/
theorem witness_IeeeSpecialValues : isNaN 0x7FC00000#32 = true ∧
    (isInf 0x7F800000#32 = true ∧ numSign 0x7F800000#32 = false ∧ isNaN 0x7F800000#32 = false) ∧
    (isInf 0xFF800000#32 = true ∧ numSign 0xFF800000#32 = true ∧ isNaN 0xFF800000#32 = false ∧
      isZero 0xFF800000#32 = false) ∧
    isZero 0x80000000#32 = true ∧ isZero 0x00000000#32 = true ∧
    (isFin 0x7F7FFFFF#32 = true ∧ isZero 0x7F7FFFFF#32 = false) ∧
    (isFin 0x80000001#32 = true ∧ isZero 0x80000001#32 = false ∧ numSign 0x80000001#32 = true) := by
  decide

theorem witness_NumericsWithinLimits : isNaN 0x7FC00000#32 = true ∧ isInf 0xFF800000#32 = true ∧
    isZero 0x80000000#32 = true ∧ (isNaN 0x7F800000#32 = false ∧ numSign 0x7F800000#32 = false) ∧
    isFin 0x7F7FFFFF#32 = true ∧ isFin numPi = true ∧ Real.pi ≤ numReal numPi := by
  have h : numVal numPi = 0xC90FDB * 2 ^ 127 := by decide +kernel
  refine ⟨rfl, rfl, rfl, ⟨rfl, rfl⟩, rfl, rfl, ?_⟩
  unfold numReal
  rw [h]
  have := Real.pi_lt_d20
  push_cast
  norm_num
  linarith

/-- The smallest and the largest frame, and the last element of the smallest. -/
theorem witness_RomLandmarks : 1 ≤ 1 ∧ 1 ≤ 23 ∧ 23 ≤ 23 ∧ 2 ≤ 23 ∧ 1 < 2 ^ 1 := by decide

/-- The smallest and the largest frame, and the last element and the last pair of each. -/
theorem witness_RomElementsAreAccurate : 1 ≤ 1 ∧ 1 ≤ 23 ∧ 23 ≤ 23 ∧ 1 < 2 ^ 1 ∧ 0 < 2 ^ 1 / 2 ∧
    8388607 < 2 ^ 23 ∧ 4194303 < 2 ^ 23 / 2 := by decide

end Sys2Proof.Tests
end

section
/-! PROOFS. Every command answers, and a step runs the request it decodes (00_scope.md R5). -/

namespace Sys2Proof.Machine

/-! ### Every command answers -/

/-- A result is an answer to `s`: a next state that holds a response with a code from 0 to 6
(60_exceptions.md R240, R241) and leaves the host's list as it was in `s`. -/
def Answers (s : State) (r : Result) : Prop :=
  ∃ (t : State) (a : Response), r = .next t ∧ t.resp = some a ∧ a.code.toNat ≤ 6 ∧ t.host = s.host

theorem answers_respond {s t : State} (v : Word) (h : t.host = s.host) : Answers s (respond v t) :=
  ⟨_, ⟨okCode, v⟩, respond_eq v t, rfl, (by decide : okCode.toNat ≤ 6), h⟩

theorem answers_raise (e : Err) (s : State) : Answers s (raise e s) :=
  ⟨_, ⟨errCode e, 0#32⟩, raise_eq e s, rfl, errCode_le e, setSticky_host s e⟩

theorem answers_ifConfigured {s : State} {r : Result} (h : Answers s r) :
    Answers s (ifConfigured s r) := by
  cases hc : s.cfgd with
  | true => rwa [ifConfigured_of_cfgd hc]
  | false => rw [ifConfigured_of_not hc]; exact answers_raise .unconf s

/-- A test decides between two answers. -/
theorem answers_ite {s : State} {c : Prop} [Decidable c] {r r' : Result} (h : Answers s r)
    (h' : Answers s r') : Answers s (if c then r else r') := by
  split
  · exact h
  · exact h'

theorem memWrite_host (s : State) (m : MemId) (i : Nat) (v : Num) :
    (memWrite s m i v).host = s.host := setMem_host s m _

/-- WRREG answers on every register number (45_system.md R215). -/
theorem answers_execWrreg (reg : BitVec 24) (v : Word) (s : State) : Answers s (execWrreg reg v s) := by
  unfold execWrreg
  split
  case h_3 => exact answers_ite (answers_respond _ rfl) (answers_raise _ s)
  case h_4 => exact answers_ite (answers_respond _ rfl) (answers_raise _ s)
  case h_5 => exact answers_ite (answers_respond _ rfl) (answers_raise _ s)
  all_goals exact answers_raise _ s

/-- RDMEM answers on every memory id, reserved ones included (45_system.md R216). -/
theorem answers_execRdmem (mem : BitVec 4) (idx : BitVec 24) (s : State) :
    Answers s (execRdmem mem idx s) := by
  unfold execRdmem
  cases memOfSel mem with
  | none => exact answers_raise .illegal s
  | some m =>
    exact answers_ifConfigured (answers_ite (answers_raise .range s) (answers_respond _ rfl))

/-- WRMEM answers on every memory id, reserved ones included (45_system.md R217). -/
theorem answers_execWrmem (mem : BitVec 4) (idx : BitVec 24) (v : Word) (s : State) :
    Answers s (execWrmem mem idx v s) := by
  unfold execWrmem
  cases memOfSel mem with
  | none => exact answers_raise .illegal s
  | some m =>
    exact answers_ifConfigured (answers_ite (answers_raise .range s)
      (answers_ite (answers_raise .ro s) (answers_respond _ (memWrite_host s m _ v))))

theorem analyze_host (nm : Numerics) (s : State) : (analyze nm s).host = s.host := by
  rw [analyze_frame]

theorem remap_host (nm : Numerics) (s : State) : (remap nm s).host = s.host := by
  rw [remap_frame]

theorem synthesize_host (nm : Numerics) (s : State) : (synthesize nm s).host = s.host := by
  rw [synthesize_frame]

theorem overlapAdd_host (nm : Numerics) (s : State) : (overlapAdd nm s).host = s.host := by
  rw [overlapAdd_frame]

theorem cycle_host (nm : Numerics) (s : State) : (cycle nm s).host = s.host := by
  rw [cycle_frame]

theorem pushSample_host (nm : Numerics) (v : Word) (s : State) :
    (pushSample nm v s).host = s.host := by
  unfold pushSample
  dsimp only
  split
  · exact cycle_host nm _
  · rfl

/-- Every command answers, in every state. -/
theorem answers_exec (i : Instr) (s : State) : Answers s (exec i s) := by
  cases i with
  | nop => exact answers_respond _ rfl
  | reset => exact answers_respond _ rfl
  | config p => exact answers_ite (answers_respond _ rfl) (answers_raise .cfg s)
  | wrreg reg v => exact answers_execWrreg reg v s
  | rdreg reg => exact answers_ite (answers_raise .range s) (answers_respond _ rfl)
  | wrmem mem idx v => exact answers_execWrmem mem idx v s
  | rdmem mem idx => exact answers_execRdmem mem idx s
  | fft p dir =>
    exact answers_ifConfigured (answers_ite (answers_raise .range s) (answers_respond _ rfl))
  | push v => exact answers_ifConfigured (answers_respond _ (pushSample_host _ v s))
  | analyze => exact answers_ifConfigured (answers_respond _ (analyze_host _ s))
  | remap => exact answers_ifConfigured (answers_respond _ (remap_host _ s))
  | synth => exact answers_ifConfigured (answers_respond _ (synthesize_host _ s))
  | ola => exact answers_ifConfigured (answers_respond _ (overlapAdd_host _ s))
  | cycle => exact answers_ifConfigured (answers_respond _ (cycle_host _ s))
  | clrerr => exact answers_respond _ rfl

/-- Settles O47: the outcome of every command is an answer. -/
theorem everyCommandAnswers : Obligations.EveryCommandAnswers := answers_exec

/-! ### The step -/

theorem takeEvent_cons {s : State} {e : HostEvent} {rest : List HostEvent} (h : s.host = e :: rest) :
    takeEvent s = some (e, { s with host := rest }) := by
  unfold takeEvent
  rw [h]

/-- Settles O6: the step takes the request off the list and decodes it. -/
theorem stepRunsDecodedRequest : Obligations.StepRunsDecodedRequest := by
  intro s cmd d rest i hhost hdecode
  unfold step
  rw [takeEvent_cons hhost]
  simp only [hdecode]

end Sys2Proof.Machine
end

section
/-! PROOFS. Correct rounding: `roundMag` gives the nearest Num of a real number, ties to even
(00_scope.md R10). -/

namespace Sys2Proof.Machine

/-! ### Real values of Nums -/

/-- The absolute value of a finite Num is the real value of its magnitude. -/
theorem abs_numReal (a : Num) : |numReal a| = (numMag a : ℝ) / 2 ^ 149 := by
  have h : |(numVal a : ℝ)| = numMag a := by
    unfold numVal
    split <;> simp
  unfold numReal
  rw [abs_div, h, abs_of_pos (by positivity : (0 : ℝ) < 2 ^ 149)]

theorem numReal_eq (a : Num) :
    numReal a = if numSign a then -((numMag a : ℝ) / 2 ^ 149) else (numMag a : ℝ) / 2 ^ 149 := by
  unfold numReal numVal
  split
  · push_cast; ring
  · push_cast; ring

theorem numReal_packNum (neg : Bool) {b : Nat} (h : b < 2 ^ 31) :
    numReal (packNum neg b) = if neg then -((magOf b : ℝ) / 2 ^ 149) else (magOf b : ℝ) / 2 ^ 149 := by
  rw [numReal_eq, numSign_packNum neg h, numMag_packNum neg h]

theorem numReal_eq_zero {a : Num} : numReal a = 0 ↔ isZero a = true := by
  rw [← abs_eq_zero, abs_numReal, div_eq_zero_iff, or_iff_left (by positivity), Nat.cast_eq_zero,
    numMag_eq_zero]

theorem numReal_le_iff (a b : Num) : numReal a ≤ numReal b ↔ numVal a ≤ numVal b := by
  unfold numReal
  rw [div_le_div_iff_of_pos_right (by positivity), Int.cast_le]

/-- The sign of a non-zero Num is the sign of its value. -/
theorem numSign_eq_decide {a : Num} (h : numReal a ≠ 0) : numSign a = decide (numReal a < 0) := by
  have hpos : 0 < (numMag a : ℝ) / 2 ^ 149 := by rw [← abs_numReal]; exact abs_pos.mpr h
  rw [numReal_eq]
  cases numSign a
  · simpa using hpos.le
  · simpa using hpos

/-! ### Rounding to nearest

`IsRounding P X` is what `roundMag` computes, said of a real number `X` in units of 2^-149. -/

/-- The 31-bit pattern `P` is the rounding of `X ≥ 0`: `X` lies between the neighbours `q * 2^s` and
`(q + 1) * 2^s`, and `P` encodes the nearer one, the even one in the middle, infinity at the least. -/
def IsRounding (P : Nat) (X : ℝ) : Prop :=
  ∃ s q m : Nat, q < 2 ^ 24 ∧ (s = 0 ∨ 2 ^ 23 ≤ q) ∧
    (q : ℝ) * 2 ^ s ≤ X ∧ X < (q + 1 : ℝ) * 2 ^ s ∧
    (m = q ∧ (2 * X < (2 * q + 1 : ℝ) * 2 ^ s ∨ 2 * X = (2 * q + 1 : ℝ) * 2 ^ s ∧ q % 2 = 0) ∨
      m = q + 1 ∧ ((2 * q + 1 : ℝ) * 2 ^ s < 2 * X ∨ 2 * X = (2 * q + 1 : ℝ) * 2 ^ s ∧ q % 2 = 1)) ∧
    P = min (s * 2 ^ 23 + m) infMag

/-- The significand that `roundMag` cuts off: 24 bits, or fewer in the subnormal range. -/
theorem significand_bounds (n : Nat) :
    n / 2 ^ (n.log2 - 23) < 2 ^ 24 ∧ (n.log2 - 23 = 0 ∨ 2 ^ 23 ≤ n / 2 ^ (n.log2 - 23)) := by
  constructor
  · rw [Nat.div_lt_iff_lt_mul (Nat.two_pow_pos _), ← Nat.pow_add]
    exact lt_of_lt_of_le Nat.lt_log2_self (Nat.pow_le_pow_right (by decide) (by omega))
  · by_cases h : n.log2 ≤ 23
    · exact .inl (by omega)
    · refine .inr ?_
      have hn : n ≠ 0 := by rintro rfl; exact h (by decide)
      rw [Nat.le_div_iff_mul_le (Nat.two_pow_pos _), ← Nat.pow_add,
        Nat.add_sub_cancel' (Nat.le_of_not_le h)]
      exact Nat.log2_self_le hn

/-- `roundMag` rounds the real quotient of its operands. -/
theorem isRounding_roundMag (num : Nat) {den : Nat} (hd : 0 < den) :
    IsRounding (roundMag num den) ((num : ℝ) / den) := by
  obtain ⟨hq, hs⟩ := significand_bounds (num / den)
  rw [Nat.div_div_eq_div_mul] at hq hs
  unfold roundMag
  generalize (num / den).log2 - 23 = s at hq hs ⊢
  dsimp only
  have hD : 0 < den * 2 ^ s := Nat.mul_pos hd (Nat.two_pow_pos s)
  have hmod : num % (den * 2 ^ s) < den * 2 ^ s := Nat.mod_lt _ hD
  have hdiv : num / (den * 2 ^ s) * (den * 2 ^ s) + num % (den * 2 ^ s) = num := Nat.div_add_mod' ..
  generalize num / (den * 2 ^ s) = q at hq hs hdiv ⊢
  generalize num % (den * 2 ^ s) = r at hmod hdiv ⊢
  have hdR : (0 : ℝ) < den := by exact_mod_cast hd
  have hdivR : (num : ℝ) = q * (den * 2 ^ s) + r := by exact_mod_cast hdiv.symm
  have hX : (num : ℝ) / den = q * 2 ^ s + r / den := by rw [hdivR]; field_simp
  have hr0 : (0 : ℝ) ≤ r / den := by positivity
  have hr1 : (r : ℝ) / den < 2 ^ s := by
    rw [div_lt_iff₀ hdR, mul_comm]; exact_mod_cast hmod
  have hlt : (2 : ℝ) * (r / den) < 2 ^ s ↔ 2 * r < den * 2 ^ s := by
    rw [← mul_div_assoc, div_lt_iff₀ hdR, mul_comm _ (den : ℝ)]; exact_mod_cast Iff.rfl
  have heq : (2 : ℝ) * (r / den) = 2 ^ s ↔ 2 * r = den * 2 ^ s := by
    rw [← mul_div_assoc, div_eq_iff hdR.ne', mul_comm _ (den : ℝ)]; exact_mod_cast Iff.rfl
  refine ⟨s, q, _, hq, hs, by linarith, by linarith, ?_, rfl⟩
  split
  · next hup =>
    refine .inr ⟨rfl, ?_⟩
    rcases hup with hup | ⟨hup, hodd⟩
    · have : ¬ (2 : ℝ) * (r / den) < 2 ^ s := by rw [hlt]; omega
      have : ¬ (2 : ℝ) * (r / den) = 2 ^ s := by rw [heq]; omega
      exact .inl (by rw [hX]; grind)
    · have := heq.mpr hup
      exact .inr ⟨by rw [hX]; linarith, hodd⟩
  · next hdown =>
    refine .inl ⟨rfl, ?_⟩
    rcases Nat.lt_trichotomy (2 * r) (den * 2 ^ s) with h | h | h
    · have := hlt.mpr h
      exact .inl (by rw [hX]; linarith)
    · have := heq.mpr h
      exact .inr ⟨by rw [hX]; linarith, by omega⟩
    · exact absurd (.inl h) hdown

/-- A finite magnitude is a significand of at most 24 bits at some scale, below 2^277 units. -/
theorem magOf_eq_scaled {b : Nat} (h : b < infMag) :
    ∃ s m : Nat, m < 2 ^ 24 ∧ (s = 0 ∨ 2 ^ 23 ≤ m) ∧ s ≤ 253 ∧ b = s * 2 ^ 23 + m ∧
      magOf b = m * 2 ^ s := by
  unfold infMag at h
  by_cases hb : b < 2 ^ 24
  · exact ⟨0, b, hb, .inl rfl, by omega, by omega, by simpa using magOf_scale hb (.inl rfl)⟩
  · refine ⟨b / 2 ^ 23 - 1, 2 ^ 23 + b % 2 ^ 23, by omega, .inr (by omega), by omega, by omega, ?_⟩
    unfold magOf
    rw [if_neg (by omega)]

theorem numMag_eq_scaled {c : Num} (h : isFin c = true) :
    ∃ s m : Nat, m < 2 ^ 24 ∧ (s = 0 ∨ 2 ^ 23 ≤ m) ∧ numMag c = m * 2 ^ s := by
  obtain ⟨s, m, hm, hs, -, -, he⟩ := magOf_eq_scaled ((isFin_iff c).mp h)
  exact ⟨s, m, hm, hs, by rw [numMag_eq_magOf, he]⟩

/-- Between two neighbours lies no finite Num. -/
theorem numMag_gap {c : Num} {s q : Nat} (hc : isFin c = true) (hs : s = 0 ∨ 2 ^ 23 ≤ q) :
    numMag c ≤ q * 2 ^ s ∨ (q + 1) * 2 ^ s ≤ numMag c := by
  obtain ⟨s', m, hm, -, he⟩ := numMag_eq_scaled hc
  rw [he]
  rcases Nat.lt_or_ge s' s with h | h
  · left
    have hq : 2 ^ 23 ≤ q := hs.resolve_left (by omega)
    calc m * 2 ^ s' ≤ 2 ^ 24 * 2 ^ (s - 1) := by gcongr <;> omega
      _ = 2 ^ 23 * 2 ^ s := by rw [← Nat.pow_add, ← Nat.pow_add]; congr 1; omega
      _ ≤ q * 2 ^ s := Nat.mul_le_mul_right _ hq
  · obtain ⟨k, rfl⟩ := Nat.exists_eq_add_of_le h
    rw [Nat.pow_add, Nat.mul_left_comm, Nat.mul_comm (2 ^ s)]
    rcases Nat.lt_or_ge q (m * 2 ^ k) with h' | h'
    · exact .inr (Nat.mul_le_mul_right _ h')
    · exact .inl (Nat.mul_le_mul_right _ h')

/-- The overflow bound of `roundsTo`, in units of 2^-149. -/
theorem overflowBound_eq : overflowBound = ((2 ^ 25 - 1) * 2 ^ 252 : ℝ) / 2 ^ 149 := by
  unfold overflowBound
  norm_num

/-- `magOf_scale`, with the significand that rounding up to the next power of two leaves. -/
theorem magOf_scale_le {m s : Nat} (hm : m ≤ 2 ^ 24) (hs : s = 0 ∨ 2 ^ 23 ≤ m) :
    magOf (s * 2 ^ 23 + m) = m * 2 ^ s := by
  rcases Nat.lt_or_eq_of_le hm with hm | rfl
  · exact magOf_scale hm hs
  · have h := magOf_scale (m := 2 ^ 23) (s := s + 1) (by decide) (.inr le_rfl)
    rw [show s * 2 ^ 23 + 2 ^ 24 = (s + 1) * 2 ^ 23 + 2 ^ 23 by omega, h, Nat.pow_succ]
    omega

/-- Rounding overflows from half a unit above the largest finite Num on, and only from there. -/
theorem IsRounding.overflow_iff {P : Nat} {X : ℝ} (h : IsRounding P X) :
    P = infMag ↔ (2 ^ 25 - 1) * 2 ^ 252 ≤ X := by
  obtain ⟨s, q, m, hq, hs, hlo, hhi, hm, rfl⟩ := h
  rw [min_eq_right_iff]
  unfold infMag
  have hqR : (q : ℝ) + 1 ≤ 2 ^ 24 := by exact_mod_cast hq
  rcases Nat.lt_trichotomy s 253 with h | rfl | h
  · have hlt : X < (2 ^ 25 - 1) * 2 ^ 252 := calc
      X < (q + 1) * 2 ^ s := hhi
      _ ≤ 2 ^ 24 * 2 ^ 252 := by
        gcongr
        · norm_num
        · omega
      _ < (2 ^ 25 - 1) * 2 ^ 252 := by norm_num
    exact iff_of_false (by omega) (not_le.mpr hlt)
  · constructor
    · intro hP
      obtain ⟨rfl, rfl⟩ : m = q + 1 ∧ q = 2 ^ 24 - 1 := by omega
      rcases hm with ⟨hm, -⟩ | ⟨-, hm | ⟨hm, -⟩⟩
      · omega
      all_goals norm_num at hm ⊢; linarith
    · intro hX
      by_contra hP
      rcases hm with ⟨rfl, hm | ⟨hm, heven⟩⟩ | ⟨rfl, -⟩
      · norm_num at hm hX
        linarith
      · have : (m : ℝ) + 2 ≤ 2 ^ 24 := by exact_mod_cast (by omega : m + 2 ≤ 2 ^ 24)
        norm_num at hhi hX
        linarith
      · have : (q : ℝ) + 2 ≤ 2 ^ 24 := by exact_mod_cast (by omega : q + 2 ≤ 2 ^ 24)
        norm_num at hhi hX
        linarith
  · have hle : (2 ^ 25 - 1) * 2 ^ 252 ≤ X := calc
      ((2 ^ 25 - 1) * 2 ^ 252 : ℝ) ≤ 2 ^ 23 * 2 ^ 254 := by norm_num
      _ ≤ q * 2 ^ s := by
        gcongr
        · exact_mod_cast hs.resolve_left (by omega)
        · norm_num
        · omega
      _ ≤ X := hlo
    exact iff_of_true (by omega) hle

/-- A point between two neighbours: the nearer of them is nearest among all that do not lie between, and
another is as near only to the middle. -/
theorem nearest_of_neighbours {lo hi X R V : ℝ} (hlo : lo ≤ X) (hhi : X < hi)
    (hR : R = lo ∧ 2 * X ≤ lo + hi ∨ R = hi ∧ lo + hi ≤ 2 * X) (hV : V ≤ lo ∨ hi ≤ V) :
    |R - X| ≤ |V - X| ∧ (V ≠ R → |V - X| = |R - X| → 2 * X = lo + hi) := by
  rcases hR with ⟨rfl, hmid⟩ | ⟨rfl, hmid⟩ <;> rcases hV with hV | hV
  all_goals
    grind

/-- A rounding that does not overflow is a nearest finite value, and has an even pattern if another value
is as near. -/
theorem IsRounding.nearest {P : Nat} {X V : ℝ} {c : Num} (h : IsRounding P X) (hP : P < infMag)
    (hc : isFin c = true) (hV : |V| = numMag c) :
    |(magOf P : ℝ) - X| ≤ |V - X| ∧
      (V ≠ magOf P → |V - X| = |(magOf P : ℝ) - X| → P % 2 = 0) := by
  obtain ⟨s, q, m, hq, hs, hlo, hhi, hm, rfl⟩ := h
  have hmin : min (s * 2 ^ 23 + m) infMag = s * 2 ^ 23 + m := by omega
  have hmag : (magOf (s * 2 ^ 23 + m) : ℝ) = m * 2 ^ s := by
    exact_mod_cast magOf_scale_le (m := m) (by omega) (by omega)
  have hgap : V ≤ q * 2 ^ s ∨ (q + 1 : ℝ) * 2 ^ s ≤ V := by
    have hle : V ≤ numMag c := hV ▸ le_abs_self V
    rcases numMag_gap hc hs with h | h
    · exact .inl (hle.trans (by exact_mod_cast h))
    · rcases abs_choice V with h' | h'
      · exact .inr (by rw [← h', hV]; exact_mod_cast h)
      · exact .inl (by
          have : 0 ≤ (q : ℝ) * 2 ^ s := by positivity
          have := abs_nonneg V
          linarith)
  have hR : (m : ℝ) * 2 ^ s = q * 2 ^ s ∧ 2 * X ≤ q * 2 ^ s + (q + 1) * 2 ^ s ∨
      (m : ℝ) * 2 ^ s = (q + 1) * 2 ^ s ∧ q * 2 ^ s + (q + 1) * 2 ^ s ≤ 2 * X := by
    rcases hm with ⟨rfl, h⟩ | ⟨rfl, h⟩
    · exact .inl ⟨rfl, by rcases h with h | h <;> linarith⟩
    · exact .inr ⟨by push_cast; ring, by rcases h with h | h <;> linarith⟩
  obtain ⟨hle, htie⟩ := nearest_of_neighbours hlo hhi hR hgap
  rw [hmin, hmag]
  refine ⟨hle, fun hne heq => ?_⟩
  have hmid := htie hne heq
  rcases hm with ⟨rfl, h | h⟩ | ⟨rfl, h | h⟩
  · linarith
  · omega
  · linarith
  · omega

theorem isInf_packNum_infMag (neg : Bool) : isInf (packNum neg infMag) = true := by
  cases neg <;> decide

theorem packNum_mod_two (neg : Bool) {b : Nat} (h : b < 2 ^ 31) : (packNum neg b).toNat % 2 = b % 2 := by
  rw [packNum_toNat neg h]
  split <;> omega

theorem IsRounding.le_infMag {P : Nat} {X : ℝ} (h : IsRounding P X) : P ≤ infMag := by
  obtain ⟨s, q, m, -, -, -, -, -, rfl⟩ := h
  exact Nat.min_le_right _ _

/-- A real number in units of 2^-149, negated if the sign is negative: rounding is the same on both sides
of zero. -/
noncomputable def inUnits (neg : Bool) (v : ℝ) : ℝ := if neg then -(v * 2 ^ 149) else v * 2 ^ 149

theorem abs_sub_eq_inUnits (neg : Bool) (v x : ℝ) :
    |v - x| = |inUnits neg v - inUnits neg x| / 2 ^ 149 := by
  have hpos : (0 : ℝ) < 2 ^ 149 := by positivity
  cases neg
  · simp only [inUnits, Bool.false_eq_true, if_false]
    rw [← sub_mul, abs_mul, abs_of_pos hpos, mul_div_cancel_right₀ _ hpos.ne']
  · simp only [inUnits, if_true]
    rw [neg_sub_neg, ← sub_mul, abs_mul, abs_of_pos hpos, mul_div_cancel_right₀ _ hpos.ne',
      abs_sub_comm]

theorem abs_inUnits_numReal (neg : Bool) (c : Num) : |inUnits neg (numReal c)| = numMag c := by
  have h := abs_sub_eq_inUnits neg (numReal c) 0
  have h0 : inUnits neg 0 = 0 := by cases neg <;> simp [inUnits]
  rw [h0, sub_zero, sub_zero, abs_numReal] at h
  exact ((div_left_inj' (by positivity)).mp h).symm

theorem inUnits_numReal_packNum (neg : Bool) {b : Nat} (h : b < 2 ^ 31) :
    inUnits neg (numReal (packNum neg b)) = magOf b := by
  rw [numReal_packNum neg h]
  cases neg <;> simp [inUnits]

theorem inUnits_injective (neg : Bool) : Function.Injective (inUnits neg) := fun v x h => by
  have := abs_sub_eq_inUnits neg v x
  rw [h, sub_self, abs_zero, zero_div, abs_eq_zero] at this
  exact sub_eq_zero.mp this

/-- A rounding of the absolute value, with the sign of the value, is the value correctly rounded. -/
theorem IsRounding.roundsTo_packNum {P : Nat} {x : ℝ} {neg : Bool} (h : IsRounding P (inUnits neg x))
    (hpos : 0 < inUnits neg x) : roundsTo (packNum neg P) x := by
  have hP : P < 2 ^ 31 := lt_of_le_of_lt h.le_infMag (by decide)
  have habs : |x| = inUnits neg x / 2 ^ 149 := by
    have := abs_sub_eq_inUnits neg x 0
    rwa [sub_zero, show inUnits neg 0 = 0 by cases neg <;> simp [inUnits], sub_zero,
      abs_of_pos hpos] at this
  have hbound : overflowBound ≤ |x| ↔ P = infMag := by
    rw [habs, overflowBound_eq, div_le_div_iff_of_pos_right (by positivity), h.overflow_iff]
  have hsign : neg = decide (x < 0) := by
    cases neg <;> simp only [inUnits] at hpos <;> grind
  refine ⟨fun hov => ?_, fun hov => ?_, fun hneg => ?_, fun hneg => ?_⟩
  · rw [hbound.mp hov]
    exact isInf_packNum_infMag neg
  · have hlt : P < infMag := lt_of_le_of_ne h.le_infMag (mt hbound.mpr (not_le.mpr hov))
    refine ⟨isFin_packNum neg hlt, fun c hc => ?_⟩
    obtain ⟨hle, htie⟩ := h.nearest hlt hc (abs_inUnits_numReal neg c)
    rw [abs_sub_eq_inUnits neg, abs_sub_eq_inUnits neg (numReal c), inUnits_numReal_packNum neg hP,
      packNum_mod_two neg hP]
    refine ⟨by gcongr, fun hne heq => htie (fun hV => hne ?_) ?_⟩
    · exact inUnits_injective neg (hV.trans (inUnits_numReal_packNum neg hP).symm)
    · exact (div_left_inj' (by positivity)).mp heq
  · rw [numSign_packNum neg hP, hsign, decide_eq_true hneg]
  · rw [numSign_packNum neg hP, hsign, decide_eq_false (not_lt.mpr hneg.le)]

end Sys2Proof.Machine
end

section
/-! PROOFS. The four operations on finite operands round their exact results once (00_scope.md R10). -/

namespace Sys2Proof.Machine

/-! ### Sign flip -/

@[simp] theorem numSign_numNeg (a : Num) : numSign (numNeg a) = !numSign a := by
  unfold numSign numNeg
  rw [BitVec.msb_xor, show BitVec.msb 0x80000000#32 = true from rfl, Bool.xor_true]

/-- A sign flip keeps the 31-bit pattern. -/
theorem numNeg_toNat_mod (a : Num) : (numNeg a).toNat % 2 ^ 31 = a.toNat % 2 ^ 31 := by
  unfold numNeg
  rw [BitVec.toNat_xor, Nat.xor_mod_two_pow, show (0x80000000#32).toNat % 2 ^ 31 = 0 from rfl,
    Nat.xor_zero]

@[simp] theorem isFin_numNeg (a : Num) : isFin (numNeg a) = isFin a := by
  rw [Bool.eq_iff_iff, isFin_iff, isFin_iff, numNeg_toNat_mod]

theorem numVal_numNeg (a : Num) : numVal (numNeg a) = -numVal a := by
  unfold numVal
  rw [numSign_numNeg, numMag_eq_magOf (numNeg a), numNeg_toNat_mod, ← numMag_eq_magOf]
  cases numSign a <;> simp

theorem numReal_numNeg (a : Num) : numReal (numNeg a) = -numReal a := by
  unfold numReal
  rw [numVal_numNeg, Int.cast_neg, neg_div]

/-! ### Correctly rounded arithmetic -/

theorem isZero_packNum_zero (neg : Bool) : isZero (packNum neg 0) = true := by
  cases neg <;> decide

/-- What rounds to the pattern of zero is a zero with the given sign. -/
theorem packNum_zero_spec (neg : Bool) :
    isZero (packNum neg 0) = true ∧ numSign (packNum neg 0) = neg :=
  ⟨isZero_packNum_zero neg, numSign_packNum neg (by decide)⟩

theorem inUnits_numReal_self (a : Num) : inUnits (numSign a) (numReal a) = numMag a := by
  have h := inUnits_numReal_packNum (numSign a) (Nat.mod_lt a.toNat (by decide : 0 < 2 ^ 31))
  rwa [packNum_self, ← numMag_eq_magOf] at h

theorem inUnits_mul (n n' : Bool) (x y : ℝ) :
    inUnits (n != n') (x * y) = inUnits n x * inUnits n' y / 2 ^ 149 := by
  cases n <;> cases n' <;> simp [inUnits] <;> ring

theorem inUnits_div (n n' : Bool) (x y : ℝ) :
    inUnits (n != n') (x / y) = inUnits n x * 2 ^ 149 / inUnits n' y := by
  cases n <;> cases n' <;> simp [inUnits] <;> field_simp

theorem inUnits_div_right (neg : Bool) (x c : ℝ) : inUnits neg (x / c) = inUnits neg x / c := by
  cases neg <;> simp [inUnits] <;> ring

/-- An integer, seen from the side of its own sign. -/
theorem inUnits_intCast (v : Int) : inUnits (decide (v < 0)) v = v.natAbs * 2 ^ 149 := by
  rw [Nat.cast_natAbs, Int.cast_abs]
  by_cases h : v < 0
  · rw [abs_of_neg (by exact_mod_cast h)]
    simp [inUnits, h]
  · rw [abs_of_nonneg (by exact_mod_cast not_lt.mp h)]
    simp [inUnits, h]

/-- An integer number of units, seen from the side of its own sign. -/
theorem inUnits_int (v : Int) : inUnits (decide (v < 0)) ((v : ℝ) / 2 ^ 149) = v.natAbs := by
  rw [inUnits_div_right, inUnits_intCast, mul_div_cancel_right₀ _ (by positivity)]

/-- `roundMag` on the value in units of 2^-149, given as a quotient, is correct rounding. -/
theorem roundsTo_packNum_roundMag {neg : Bool} {num den : Nat} {x : ℝ} (hd : 0 < den)
    (hx : inUnits neg x = (num : ℝ) / den) (hne : x ≠ 0) :
    roundsTo (packNum neg (roundMag num den)) x := by
  have h0 : inUnits neg 0 = 0 := by cases neg <;> simp [inUnits]
  have hpos : 0 < inUnits neg x := by
    refine lt_of_le_of_ne (hx ▸ by positivity) fun h => hne ?_
    exact inUnits_injective neg (h.symm.trans h0.symm)
  exact IsRounding.roundsTo_packNum (hx ▸ isRounding_roundMag num hd) hpos

/-- The sum of finite operands is correctly rounded. -/
theorem roundsTo_addAs {nm : Numerics} {op : NumOp} {a b : Num} (ha : isFin a = true)
    (hb : isFin b = true) (h : numReal a + numReal b ≠ 0) :
    roundsTo (addAs nm op a b) (numReal a + numReal b) := by
  have hsum : numReal a + numReal b = ((numVal a + numVal b : Int) : ℝ) / 2 ^ 149 := by
    unfold numReal; push_cast; ring
  have hne : numVal a + numVal b ≠ 0 := by
    intro h0; rw [hsum, h0] at h; simp at h
  rw [addAs_fin ha hb, if_neg hne]
  exact roundsTo_packNum_roundMag one_pos (by rw [hsum, inUnits_int]; simp) h

/-- An exact zero sum is a zero, negative only if both summands are (log 9). -/
theorem addAs_eq_zero {nm : Numerics} {op : NumOp} {a b : Num} (ha : isFin a = true)
    (hb : isFin b = true) (h : numReal a + numReal b = 0) :
    addAs nm op a b = packNum (numSign a && numSign b) 0 := by
  have hne : numVal a + numVal b = 0 := by
    unfold numReal at h
    rw [← add_div, div_eq_zero_iff, or_iff_left (by positivity)] at h
    exact_mod_cast h
  rw [addAs_fin ha hb, if_pos hne]

/-- The product of finite operands is correctly rounded. -/
theorem roundsTo_numMul {nm : Numerics} {a b : Num} (ha : isFin a = true) (hb : isFin b = true)
    (h : numReal a * numReal b ≠ 0) : roundsTo (numMul nm a b) (numReal a * numReal b) := by
  rw [numMul_fin ha hb]
  refine roundsTo_packNum_roundMag (by decide) ?_ h
  rw [inUnits_mul, inUnits_numReal_self, inUnits_numReal_self, Nat.cast_mul, Nat.cast_pow,
    Nat.cast_ofNat]

theorem numMul_eq_zero {nm : Numerics} {a b : Num} (ha : isFin a = true) (hb : isFin b = true)
    (h : numReal a * numReal b = 0) :
    numMul nm a b = packNum (numSign a != numSign b) 0 := by
  have hz : numMag a * numMag b = 0 := by
    simpa only [Nat.mul_eq_zero, numMag_eq_zero, numReal_eq_zero, mul_eq_zero] using h
  rw [numMul_fin ha hb, hz, roundMag_zero]

theorem isZero_eq_false {a : Num} (h : numReal a ≠ 0) : isZero a = false :=
  Bool.eq_false_iff.mpr (mt numReal_eq_zero.mpr h)

/-- The quotient of finite operands, neither zero, is correctly rounded. -/
theorem roundsTo_numDiv {nm : Numerics} {a b : Num} (ha : isFin a = true) (hb : isFin b = true)
    (hb0 : numReal b ≠ 0) (ha0 : numReal a ≠ 0) :
    roundsTo (numDiv nm a b) (numReal a / numReal b) := by
  have hz := isZero_eq_false hb0
  rw [numDiv_fin ha hb hz]
  refine roundsTo_packNum_roundMag (Nat.pos_of_ne_zero fun h => ?_) ?_ (div_ne_zero ha0 hb0)
  · rw [numMag_eq_zero.mp h] at hz; cases hz
  · rw [inUnits_div, inUnits_numReal_self, inUnits_numReal_self, Nat.cast_mul, Nat.cast_pow,
      Nat.cast_ofNat]

theorem numDiv_eq_zero {nm : Numerics} {a b : Num} (ha : isFin a = true) (hb : isFin b = true)
    (hb0 : numReal b ≠ 0) (ha0 : numReal a = 0) :
    numDiv nm a b = packNum (numSign a != numSign b) 0 := by
  rw [numDiv_fin ha hb (isZero_eq_false hb0), numMag_eq_zero.mpr (numReal_eq_zero.mp ha0),
    Nat.zero_mul, roundMag_zero]

/-- Settles O55: every operation rounds its exact result once. -/
theorem arithmeticIsCorrectlyRounded : Obligations.ArithmeticIsCorrectlyRounded := by
  intro nm a b ha hb
  have hb' : isFin (numNeg b) = true := by rwa [isFin_numNeg]
  have hsub : numReal a - numReal b = numReal a + numReal (numNeg b) := by
    rw [numReal_numNeg, sub_eq_add_neg]
  rw [hsub]
  refine ⟨roundsTo_addAs ha hb, fun h => ?_, roundsTo_addAs ha hb', fun h => ?_,
    roundsTo_numMul ha hb, fun h => ?_, roundsTo_numDiv ha hb, fun hb0 ha0 => ?_⟩
  · rw [numAdd, addAs_eq_zero ha hb h]
    exact packNum_zero_spec _
  · rw [numSub, addAs_eq_zero ha hb' h, numSign_numNeg]
    exact packNum_zero_spec _
  · rw [numMul_eq_zero ha hb h]
    exact packNum_zero_spec _
  · rw [numDiv_eq_zero ha hb hb0 ha0]
    exact packNum_zero_spec _

end Sys2Proof.Machine
end

section
/-! PROOFS. The square root is correctly rounded, the floor exact (00_scope.md R10). -/

namespace Sys2Proof.Machine

/-! ### Square root -/

/-- Bit by bit the search keeps the root between `r` and `r + 2^k`. -/
theorem isqrtFrom_spec (n k r : Nat) (hlo : r * r ≤ n) (hhi : n < (r + 2 ^ k) * (r + 2 ^ k)) :
    isqrtFrom n k r * isqrtFrom n k r ≤ n ∧ n < (isqrtFrom n k r + 1) * (isqrtFrom n k r + 1) := by
  induction k generalizing r with
  | zero => exact ⟨hlo, hhi⟩
  | succ k ih =>
    unfold isqrtFrom
    split
    · next h => exact ih _ h (by rwa [Nat.add_assoc, ← Nat.mul_two, ← Nat.pow_succ])
    · next h => exact ih _ hlo (Nat.lt_of_not_le h)

theorem isqrt_eq_sqrt (n : Nat) : isqrt n = Nat.sqrt n := by
  have hhi : n < 2 ^ (n.log2 / 2 + 1) * 2 ^ (n.log2 / 2 + 1) := by
    rw [← Nat.pow_add]
    exact lt_of_lt_of_le Nat.lt_log2_self (Nat.pow_le_pow_right (by decide) (by omega))
  exact Nat.eq_sqrt.mpr (isqrtFrom_spec n _ 0 (Nat.zero_le _) (by rwa [Nat.zero_add]))

/-- From 2^24 on a rounding depends only on how the value compares with the integers: the middle between
two neighbours is an integer there. -/
theorem IsRounding.congr_of_integers {P : Nat} {X Y : ℝ} (h : IsRounding P Y) (hY : 2 ^ 24 ≤ Y)
    (hle : ∀ n : Nat, (n : ℝ) ≤ X ↔ (n : ℝ) ≤ Y) (hge : ∀ n : Nat, X ≤ n ↔ Y ≤ n) :
    IsRounding P X := by
  obtain ⟨s, q, m, hq, hs, hlo, hhi, hm, rfl⟩ := h
  obtain ⟨t, rfl⟩ : ∃ t, s = t + 1 := by
    refine Nat.exists_eq_succ_of_ne_zero ?_
    rintro rfl
    have : (q : ℝ) + 1 ≤ 2 ^ 24 := by exact_mod_cast hq
    linarith
  have hlt : ∀ n : Nat, X < n ↔ Y < n := fun n => by rw [← not_le, ← not_le, hle]
  have hgt : ∀ n : Nat, (n : ℝ) < X ↔ (n : ℝ) < Y := fun n => by rw [← not_le, ← not_le, hge]
  have heq : ∀ n : Nat, X = n ↔ Y = n := fun n => by rw [le_antisymm_iff, le_antisymm_iff, hle, hge]
  have hmid : ∀ Z : ℝ,
      (2 * Z < (2 * q + 1) * 2 ^ (t + 1) ↔ Z < ((2 * q + 1) * 2 ^ t : Nat)) ∧
      (2 * Z = (2 * q + 1) * 2 ^ (t + 1) ↔ Z = ((2 * q + 1) * 2 ^ t : Nat)) ∧
      ((2 * q + 1) * 2 ^ (t + 1) < 2 * Z ↔ ((2 * q + 1) * 2 ^ t : Nat) < Z) := fun Z => by
    have : ((2 * q + 1) * 2 ^ (t + 1) : ℝ) = 2 * ((2 * q + 1) * 2 ^ t : Nat) := by
      push_cast; ring
    rw [this]
    refine ⟨?_, ?_, ?_⟩
    · exact mul_lt_mul_iff_right₀ two_pos
    · exact mul_right_inj' two_ne_zero
    · exact mul_lt_mul_iff_right₀ two_pos
  refine ⟨t + 1, q, m, hq, hs, ?_, ?_, ?_, rfl⟩
  · have := hle (q * 2 ^ (t + 1)); push_cast at this; exact this.mpr hlo
  · have := hlt ((q + 1) * 2 ^ (t + 1)); push_cast at this; exact this.mpr hhi
  · obtain ⟨h1, h2, h3⟩ := hmid X
    obtain ⟨h1', h2', h3'⟩ := hmid Y
    rw [h1', h2', h3'] at hm
    rw [h1, h2, h3, hlt, heq, hgt]
    exact hm

/-- Twice the integer root of `x`, and one more if it is not exact: what `numSqrt` rounds. -/
def stickyRoot (x : Nat) : Nat := 2 * isqrt x + (if isqrt x * isqrt x = x then 0 else 1)

theorem le_stickyRoot (x n : Nat) : 2 * n ≤ stickyRoot x ↔ n * n ≤ x := by
  unfold stickyRoot
  rw [isqrt_eq_sqrt, ← Nat.le_sqrt]
  split <;> omega

theorem stickyRoot_le (x n : Nat) : stickyRoot x ≤ 2 * n ↔ x ≤ n * n := by
  unfold stickyRoot
  rw [isqrt_eq_sqrt]
  split
  · next h =>
    have hsq : x.sqrt * x.sqrt ≤ n * n ↔ x.sqrt ≤ n := Nat.mul_self_le_mul_self_iff
    rw [h] at hsq
    omega
  · next h =>
    rw [← not_lt, ← not_lt, not_iff_not]
    have hlt : n * n < x ↔ n ≤ x.sqrt := by
      rw [Nat.le_sqrt, lt_iff_le_and_ne, and_iff_left_iff_imp]
      rintro - rfl
      exact h (by rw [Nat.sqrt_eq])
    rw [hlt]
    omega

/-- Half the sticky root lies on the same side of every integer as the real root. -/
theorem stickyRoot_integers (x n : Nat) :
    ((n : ℝ) ≤ √x ↔ (n : ℝ) ≤ (stickyRoot x : ℝ) / (2 : Nat)) ∧
      (√x ≤ n ↔ (stickyRoot x : ℝ) / (2 : Nat) ≤ n) := by
  have h2 : (0 : ℝ) < (2 : Nat) := by norm_num
  rw [le_div_iff₀ h2, div_le_iff₀ h2, Real.le_sqrt (Nat.cast_nonneg n)
    (Nat.cast_nonneg x), Real.sqrt_le_left (Nat.cast_nonneg n)]
  norm_cast
  rw [Nat.mul_comm n 2, le_stickyRoot, stickyRoot_le, pow_two]
  exact ⟨Iff.rfl, Iff.rfl⟩

/-- The root of a large integer is rounded correctly through its sticky root. -/
theorem isRounding_sqrt {x : Nat} (h : 2 ^ 48 ≤ x) :
    IsRounding (roundMag (stickyRoot x) 2) (√x) := by
  refine (isRounding_roundMag (stickyRoot x) two_pos).congr_of_integers ?_
    (fun n => (stickyRoot_integers x n).1) (fun n => (stickyRoot_integers x n).2)
  have := (stickyRoot_integers x (2 ^ 24)).1.mp (Real.le_sqrt_of_sq_le (by exact_mod_cast h))
  exact_mod_cast this

/-- The root of a positive finite Num. -/
theorem numSqrt_fin_pos {nm : Numerics} {a : Num} (ha : isFin a = true) (h : 0 < numReal a) :
    numSqrt nm a = packNum false (roundMag (stickyRoot (numMag a * 2 ^ 149)) 2) := by
  have hs : numSign a = false := by
    rw [numSign_eq_decide h.ne', decide_eq_false (not_lt.mpr h.le)]
  unfold numSqrt
  simp only [isNaN_of_isFin ha, isZero_eq_false h.ne', hs, isInf_of_isFin ha, Bool.false_eq_true,
    if_false]
  rfl

/-- The root of a positive finite Num is correctly rounded. -/
theorem roundsTo_numSqrt {nm : Numerics} {a : Num} (ha : isFin a = true) (h : 0 < numReal a) :
    roundsTo (numSqrt nm a) (√(numReal a)) := by
  have hmag : 1 ≤ numMag a :=
    Nat.pos_of_ne_zero fun h0 => h.ne' (numReal_eq_zero.mpr (numMag_eq_zero.mp h0))
  have hunits : inUnits false (√(numReal a)) = √((numMag a * 2 ^ 149 : Nat) : ℝ) := by
    have hsq : ((numMag a * 2 ^ 149 : Nat) : ℝ) = numReal a * (2 ^ 149) ^ 2 := by
      rw [← abs_of_pos h, abs_numReal]
      push_cast
      ring
    rw [hsq, Real.sqrt_mul h.le, Real.sqrt_sq (by positivity)]
    rfl
  rw [numSqrt_fin_pos ha h]
  refine IsRounding.roundsTo_packNum ?_ ?_
  · rw [hunits]
    exact isRounding_sqrt (by omega)
  · rw [hunits, Real.sqrt_pos]
    exact_mod_cast (by omega : 0 < numMag a * 2 ^ 149)

/-! ### Floor -/

theorem floor_numReal (a : Num) : ⌊numReal a⌋ = numFloorInt a := by
  unfold numReal numFloorInt
  have h := Int.floor_div_natCast (numVal a : ℝ) (2 ^ 149)
  rw [Int.floor_intCast] at h
  exact_mod_cast h

theorem numVal_natAbs (a : Num) : (numVal a).natAbs = numMag a := by
  unfold numVal
  split <;> simp

/-- The floor of a finite Num is an integer of few bits, or the Num itself. -/
theorem numFloorInt_cases {a : Num} (ha : isFin a = true) :
    (numFloorInt a).natAbs ≤ 2 ^ 24 ∨ (numFloorInt a).natAbs * 2 ^ 149 = numMag a := by
  obtain ⟨s, m, hm, -, he⟩ := numMag_eq_scaled ha
  have habs := numVal_natAbs a
  unfold numFloorInt
  rcases Nat.lt_or_ge s 149 with h | h
  · left
    have : numMag a ≤ 2 ^ 24 * 2 ^ 148 := by rw [he]; gcongr <;> omega
    omega
  · right
    obtain ⟨t, rfl⟩ := Nat.exists_eq_add_of_le h
    have hdvd : (2 ^ 149 : Int) ∣ numVal a := by
      rw [← Int.dvd_natAbs, habs, he, Nat.pow_add]
      exact_mod_cast Dvd.dvd.mul_left (Dvd.intro _ rfl) m
    obtain ⟨k, hk⟩ := hdvd
    rw [hk, Int.mul_ediv_cancel_left _ (by positivity), ← habs, hk, Int.natAbs_mul, Nat.mul_comm]
    rfl

/-- Such an integer is rounded to itself. -/
theorem roundMag_integer {i : Nat} {a : Num} (ha : isFin a = true)
    (h : i ≤ 2 ^ 24 ∨ i * 2 ^ 149 = numMag a) :
    roundMag (i * 2 ^ 149) 1 < infMag ∧ magOf (roundMag (i * 2 ^ 149) 1) = i * 2 ^ 149 := by
  rcases h with h | h
  · have hval := numMag_numOfNat h
    rw [numOfNat, numMag_packNum _ (roundMag_lt _ _)] at hval
    refine ⟨lt_of_le_of_ne (roundMag_le _ _) fun hinf => ?_, hval⟩
    rw [hinf, show magOf infMag = 2 ^ 128 * 2 ^ 149 by decide] at hval
    omega
  · have hpat := (isFin_iff a).mp ha
    have hround := roundMag_magOf (den := 1) one_pos hpat
    rw [Nat.mul_one, ← numMag_eq_magOf, ← h] at hround
    rw [hround]
    exact ⟨hpat, by rw [h, numMag_eq_magOf]⟩

/-- The floor of a finite Num that is not zero. -/
theorem numFloor_fin {nm : Numerics} {a : Num} (ha : isFin a = true) (hz : isZero a = false) :
    numFloor nm a =
      packNum (decide (numFloorInt a < 0)) (roundMag ((numFloorInt a).natAbs * 2 ^ 149) 1) := by
  unfold numFloor
  simp only [isNaN_of_isFin ha, isInf_of_isFin ha, hz, Bool.or_self, Bool.false_eq_true, if_false]

theorem numFloor_of_isZero {nm : Numerics} {a : Num} (h : isZero a = true) : numFloor nm a = a := by
  unfold numFloor
  simp only [isNaN_of_isFin (isFin_of_isZero h), h, Bool.or_true, Bool.false_eq_true, if_false,
    if_true]

theorem numSqrt_of_isZero {nm : Numerics} {a : Num} (h : isZero a = true) : numSqrt nm a = a := by
  unfold numSqrt
  simp only [isNaN_of_isFin (isFin_of_isZero h), h, Bool.false_eq_true, if_false, if_true]

/-- The floor of a finite Num is exact. -/
theorem numFloor_exact {nm : Numerics} {a : Num} (ha : isFin a = true) :
    isFin (numFloor nm a) = true ∧ numReal (numFloor nm a) = ⌊numReal a⌋ := by
  cases hz : isZero a with
  | true =>
    rw [numFloor_of_isZero hz, numReal_eq_zero.mpr hz]
    exact ⟨ha, by simp⟩
  | false =>
    obtain ⟨hlt, hval⟩ := roundMag_integer ha (numFloorInt_cases ha)
    rw [numFloor_fin ha hz, floor_numReal]
    refine ⟨isFin_packNum _ hlt, inUnits_injective (decide (numFloorInt a < 0)) ?_⟩
    rw [inUnits_numReal_packNum _ (roundMag_lt _ _), hval, inUnits_intCast, Nat.cast_mul,
      Nat.cast_pow, Nat.cast_ofNat]

/-- Settles O56. -/
theorem rootAndFloorAreExact : Obligations.RootAndFloorAreExact := fun _ _ ha =>
  ⟨roundsTo_numSqrt ha, fun hz => ⟨numSqrt_of_isZero hz, numFloor_of_isZero hz⟩, numFloor_exact ha⟩

end Sys2Proof.Machine
end

section
/-! PROOFS. NaNs, infinities, zeros and comparisons (00_scope.md R10; 93_implementation_defined.md G1). -/

namespace Sys2Proof.Machine

/-! ### The classes of Nums -/

theorem isNaN_iff (a : Num) : isNaN a = true ↔ infMag < a.toNat % 2 ^ 31 := by
  unfold isNaN numExp numFrac infMag
  simp only [Bool.and_eq_true, beq_iff_eq, bne_iff_ne]
  omega

theorem isInf_iff (a : Num) : isInf a = true ↔ a.toNat % 2 ^ 31 = infMag := by
  unfold isInf numExp numFrac infMag
  simp only [Bool.and_eq_true, beq_iff_eq]
  omega

theorem isNaN_of_isInf {a : Num} (h : isInf a = true) : isNaN a = false := by
  rw [Bool.eq_false_iff, ne_eq, isNaN_iff, (isInf_iff a).mp h]
  exact lt_irrefl _

theorem isZero_of_isInf {a : Num} (h : isInf a = true) : isZero a = false := by
  rw [Bool.eq_false_iff, ne_eq, isZero_iff, (isInf_iff a).mp h]
  decide

theorem isFin_or_isInf {a : Num} (h : isNaN a = false) : isFin a = true ∨ isInf a = true := by
  rcases num_cases a with ⟨hn, -⟩ | ⟨-, hi, -⟩ | ⟨-, -, hf⟩
  · rw [h] at hn; cases hn
  · exact .inr hi
  · exact .inl hf

@[simp] theorem isNaN_numNeg (a : Num) : isNaN (numNeg a) = isNaN a := by
  rw [Bool.eq_iff_iff, isNaN_iff, isNaN_iff, numNeg_toNat_mod]

@[simp] theorem isInf_numNeg (a : Num) : isInf (numNeg a) = isInf a := by
  rw [Bool.eq_iff_iff, isInf_iff, isInf_iff, numNeg_toNat_mod]

/-- An infinity is its sign. -/
theorem eq_of_isInf {a b : Num} (ha : isInf a = true) (hb : isInf b = true)
    (h : numSign a = numSign b) : a = b := by
  rw [← packNum_self a, ← packNum_self b, (isInf_iff a).mp ha, (isInf_iff b).mp hb, h]

/-- What overflows is an infinity with the given sign. -/
theorem packNum_infMag_spec (neg : Bool) :
    isInf (packNum neg infMag) = true ∧ numSign (packNum neg infMag) = neg :=
  ⟨isInf_packNum_infMag neg, numSign_packNum neg (by decide)⟩

/-! ### Comparison -/

theorem numLe_iff {a b : Num} (ha : isNaN a = false) (hb : isNaN b = false) :
    numLe a b = true ↔ numVal a ≤ numVal b := by
  unfold numLe
  rw [ha, hb, Bool.not_false, Bool.true_and, Bool.true_and, decide_eq_true_iff]

theorem numGe_iff {a b : Num} (ha : isNaN a = false) (hb : isNaN b = false) :
    numGe a b = true ↔ numVal b ≤ numVal a := numLe_iff hb ha

theorem numLe_nan {a b : Num} (h : isNaN a = true ∨ isNaN b = true) : numLe a b = false := by
  unfold numLe
  rcases h with h | h <;> simp [h]

theorem numMag_of_isInf {a : Num} (h : isInf a = true) : numMag a = magOf infMag := by
  rw [numMag_eq_magOf, (isInf_iff a).mp h]

theorem numMag_lt_of_isFin {a : Num} (h : isFin a = true) : numMag a < magOf infMag := by
  obtain ⟨s, m, hm, -, hs, -, he⟩ := magOf_eq_scaled ((isFin_iff a).mp h)
  rw [numMag_eq_magOf, he, show magOf infMag = 2 ^ 24 * 2 ^ 253 by decide]
  calc m * 2 ^ s < 2 ^ 24 * 2 ^ s := Nat.mul_lt_mul_of_pos_right hm (Nat.two_pow_pos s)
    _ ≤ 2 ^ 24 * 2 ^ 253 := by gcongr; omega

theorem numVal_of_sign {a : Num} (h : numSign a = true) : numVal a = -(numMag a : Int) := by
  rw [numVal, if_pos h]

theorem numVal_of_not_sign {a : Num} (h : numSign a = false) : numVal a = numMag a := by
  rw [numVal, h, if_neg Bool.false_ne_true]

theorem numMag_le_of_isNaN_eq_false {b : Num} (h : isNaN b = false) : numMag b ≤ magOf infMag := by
  rcases isFin_or_isInf h with hf | hi
  · exact (numMag_lt_of_isFin hf).le
  · exact (numMag_of_isInf hi).le

/-- A Num that is no NaN has the value of an infinity only if it is that infinity. -/
theorem eq_of_numVal_eq {a b : Num} (ha : isInf a = true) (hb : isNaN b = false)
    (h : numVal b = numVal a) : b = a := by
  have hmag : numMag b = magOf infMag := by
    rw [← numVal_natAbs, h, numVal_natAbs, numMag_of_isInf ha]
  have hpos : 0 < magOf infMag := by decide
  have hi : isInf b = true := by
    refine (isFin_or_isInf hb).resolve_left fun hf => ?_
    exact (numMag_lt_of_isFin hf).ne hmag
  refine eq_of_isInf hi ha ?_
  have hmag' := numMag_of_isInf ha
  cases hsb : numSign b <;> cases hsa : numSign a
  · rfl
  · rw [numVal_of_not_sign hsb, numVal_of_sign hsa] at h; omega
  · rw [numVal_of_sign hsb, numVal_of_not_sign hsa] at h; omega
  · rfl

/-- Minus infinity lies below every Num that is no NaN, and below it lies itself alone. -/
theorem neg_inf_compare {a b : Num} (ha : isInf a = true) (hs : numSign a = true)
    (hb : isNaN b = false) : numVal a ≤ numVal b ∧ (numVal b ≤ numVal a ↔ b = a) := by
  have hle : numVal a ≤ numVal b := by
    have := numMag_le_of_isNaN_eq_false hb
    have := numVal_natAbs b
    rw [numVal_of_sign hs, numMag_of_isInf ha]
    omega
  exact ⟨hle, fun h => eq_of_numVal_eq ha hb (le_antisymm h hle), fun h => h ▸ le_rfl⟩

/-- Plus infinity lies above every Num that is no NaN, and above it lies itself alone. -/
theorem pos_inf_compare {a b : Num} (ha : isInf a = true) (hs : numSign a = false)
    (hb : isNaN b = false) : numVal b ≤ numVal a ∧ (numVal a ≤ numVal b ↔ b = a) := by
  have hle : numVal b ≤ numVal a := by
    have := numMag_le_of_isNaN_eq_false hb
    have := numVal_natAbs b
    rw [numVal_of_not_sign hs, numMag_of_isInf ha]
    omega
  exact ⟨hle, fun h => eq_of_numVal_eq ha hb (le_antisymm hle h), fun h => h ▸ le_rfl⟩

/-- Comparison of an infinity with a Num that is no NaN. -/
theorem inf_compare {a b : Num} (ha : isInf a = true) (hb : isNaN b = false) :
    (numVal a ≤ numVal b ↔ numSign a = true ∨ b = a) ∧
      (numVal b ≤ numVal a ↔ numSign a = false ∨ b = a) := by
  cases hs : numSign a with
  | true =>
    obtain ⟨hle, heq⟩ := neg_inf_compare ha hs hb
    simp [hle, heq]
  | false =>
    obtain ⟨hle, heq⟩ := pos_inf_compare ha hs hb
    simp [hle, heq]

/-! ### Sums -/

section Operations
variable {nm : Numerics} {op : NumOp} {a b : Num}

theorem addAs_inf_left (ha : isInf a = true) (hb : isNaN b = false)
    (h : isInf b = true → numSign a = numSign b) : addAs nm op a b = a := by
  unfold addAs
  rw [isNaN_of_isInf ha, hb, ha]
  cases hi : isInf b with
  | false => simp
  | true => simp [h hi]

theorem addAs_inf_right (ha : isFin a = true) (hb : isInf b = true) : addAs nm op a b = b := by
  unfold addAs
  simp [isNaN_of_isFin ha, isInf_of_isFin ha, isNaN_of_isInf hb, hb]

theorem addAs_inf_clash (ha : isInf a = true) (hb : isInf b = true) (h : numSign a ≠ numSign b) :
    isNaN (addAs nm op a b) = true := by
  unfold addAs
  simp [isNaN_of_isInf ha, isNaN_of_isInf hb, ha, hb, h]

/-! ### Products, quotients, roots -/

/-- A product with an infinity and no zero. -/
theorem numMul_inf (ha : isNaN a = false) (hb : isNaN b = false) (hza : isZero a = false)
    (hzb : isZero b = false) (h : isInf a = true ∨ isInf b = true) :
    numMul nm a b = packNum (numSign a != numSign b) infMag := by
  unfold numMul
  rcases h with h | h <;> simp [ha, hb, hza, hzb, h]

theorem numMul_inf_zero (ha : isInf a = true) (hb : isZero b = true) :
    isNaN (numMul nm a b) = true := by
  unfold numMul
  simp [isNaN_of_isInf ha, isNaN_of_isFin (isFin_of_isZero hb), ha, hb]

theorem numMul_zero_inf (ha : isZero a = true) (hb : isInf b = true) :
    isNaN (numMul nm a b) = true := by
  unfold numMul
  simp [isNaN_of_isInf hb, isNaN_of_isFin (isFin_of_isZero ha), ha, hb]

theorem numDiv_inf_inf (ha : isInf a = true) (hb : isInf b = true) :
    isNaN (numDiv nm a b) = true := by
  unfold numDiv
  simp [isNaN_of_isInf ha, isNaN_of_isInf hb, ha, hb]

theorem numDiv_zero_zero (ha : isZero a = true) (hb : isZero b = true) :
    isNaN (numDiv nm a b) = true := by
  unfold numDiv
  simp [isNaN_of_isFin (isFin_of_isZero ha), isNaN_of_isFin (isFin_of_isZero hb), ha, hb]

theorem numDiv_inf_fin (ha : isInf a = true) (hb : isFin b = true) :
    numDiv nm a b = packNum (numSign a != numSign b) infMag := by
  unfold numDiv
  simp [isNaN_of_isInf ha, isNaN_of_isFin hb, isInf_of_isFin hb, isZero_of_isInf ha, ha]

theorem numDiv_fin_inf (ha : isFin a = true) (hb : isInf b = true) :
    numDiv nm a b = packNum (numSign a != numSign b) 0 := by
  unfold numDiv
  simp [isNaN_of_isFin ha, isNaN_of_isInf hb, isInf_of_isFin ha, isZero_of_isInf hb, hb]

theorem numDiv_by_zero (ha : isFin a = true) (hza : isZero a = false) (hb : isZero b = true) :
    numDiv nm a b = packNum (numSign a != numSign b) infMag := by
  unfold numDiv
  simp [isNaN_of_isFin ha, isInf_of_isFin ha, hza, isNaN_of_isFin (isFin_of_isZero hb), hb]

theorem numSqrt_nan (h : isNaN a = true) : isNaN (numSqrt nm a) = true := by
  unfold numSqrt
  simp [h]

theorem numSqrt_neg (hs : numSign a = true) (ha : isNaN a = false) (hz : isZero a = false) :
    isNaN (numSqrt nm a) = true := by
  unfold numSqrt
  simp [hs, ha, hz]

theorem numSqrt_inf (ha : isInf a = true) (hs : numSign a = false) : numSqrt nm a = a := by
  unfold numSqrt
  simp [isNaN_of_isInf ha, isZero_of_isInf ha, hs, ha]

theorem numFloor_nan (h : isNaN a = true) : isNaN (numFloor nm a) = true := by
  unfold numFloor
  simp [h]

theorem numFloor_inf (ha : isInf a = true) : numFloor nm a = a := by
  unfold numFloor
  simp [isNaN_of_isInf ha, ha]

end Operations

/-! ### The IEEE results, clause by clause -/

section Clauses
variable {a b : Num} (nm : Numerics)

theorem ieee_nan (h : isNaN a = true ∨ isNaN b = true) :
    isNaN (numAdd nm a b) = true ∧ isNaN (numSub nm a b) = true ∧ isNaN (numMul nm a b) = true ∧
      isNaN (numDiv nm a b) = true ∧ numLe a b = false ∧ numGe a b = false :=
  ⟨addAs_nan h, addAs_nan (by rwa [isNaN_numNeg]), numMul_nan h, numDiv_nan h, numLe_nan h,
    numLe_nan h.symm⟩

theorem ieee_inf_inf (ha : isInf a = true) (hb : isInf b = true) :
    isNaN (numDiv nm a b) = true ∧
      isInf (numMul nm a b) = true ∧ numSign (numMul nm a b) = (numSign a != numSign b) ∧
      (numSign a ≠ numSign b → isNaN (numAdd nm a b) = true ∧ numSub nm a b = a) ∧
      (numSign a = numSign b → isNaN (numSub nm a b) = true ∧ numAdd nm a b = a) := by
  have hna := isNaN_of_isInf ha
  have hnb := isNaN_of_isInf hb
  have hib : isInf (numNeg b) = true := by rwa [isInf_numNeg]
  refine ⟨numDiv_inf_inf ha hb, ?_, ?_, fun h => ⟨addAs_inf_clash ha hb h, ?_⟩,
    fun h => ⟨addAs_inf_clash ha hib ?_, addAs_inf_left ha hnb fun _ => h⟩⟩
  · rw [numMul_inf hna hnb (isZero_of_isInf ha) (isZero_of_isInf hb) (.inl ha)]
    exact (packNum_infMag_spec _).1
  · rw [numMul_inf hna hnb (isZero_of_isInf ha) (isZero_of_isInf hb) (.inl ha)]
    exact (packNum_infMag_spec _).2
  · refine addAs_inf_left ha (isNaN_of_isInf hib) fun _ => ?_
    rw [numSign_numNeg, Bool.eq_not]
    exact h
  · rw [numSign_numNeg, h]
    exact (Bool.not_ne_self _).symm

theorem ieee_inf_fin (ha : isInf a = true) (hb : isFin b = true) :
    numAdd nm a b = a ∧ numAdd nm b a = a ∧ numSub nm a b = a ∧ numSub nm b a = numNeg a ∧
      isInf (numDiv nm a b) = true ∧ numSign (numDiv nm a b) = (numSign a != numSign b) ∧
      isZero (numDiv nm b a) = true ∧ numSign (numDiv nm b a) = (numSign b != numSign a) := by
  have hnb := isNaN_of_isFin hb
  have hfin : ∀ {c : Prop}, isInf b = true → c := fun h => by
    rw [isInf_of_isFin hb] at h; cases h
  rw [numDiv_inf_fin ha hb, numDiv_fin_inf hb ha]
  refine ⟨addAs_inf_left ha hnb hfin, addAs_inf_right hb ha, ?_, ?_, (packNum_infMag_spec _).1,
    (packNum_infMag_spec _).2, (packNum_zero_spec _).1, (packNum_zero_spec _).2⟩
  · exact addAs_inf_left ha (by rwa [isNaN_numNeg]) fun h => hfin (by rwa [isInf_numNeg] at h)
  · exact addAs_inf_right hb (by rwa [isInf_numNeg])

theorem ieee_inf_mul_fin (ha : isInf a = true) (hb : isFin b = true) (hz : isZero b = false) :
    isInf (numMul nm a b) = true ∧ numSign (numMul nm a b) = (numSign a != numSign b) ∧
      isInf (numMul nm b a) = true ∧ numSign (numMul nm b a) = (numSign b != numSign a) := by
  have hna := isNaN_of_isInf ha
  have hza := isZero_of_isInf ha
  have hnb := isNaN_of_isFin hb
  rw [numMul_inf hna hnb hza hz (.inl ha), numMul_inf hnb hna hz hza (.inr ha)]
  exact ⟨(packNum_infMag_spec _).1, (packNum_infMag_spec _).2, packNum_infMag_spec _⟩

theorem ieee_inf_compare (ha : isInf a = true) (hb : isNaN b = false) :
    (numLe a b = true ↔ numSign a = true ∨ b = a) ∧ (numGe a b = true ↔ numSign a = false ∨ b = a) ∧
      (numLe b a = true ↔ numSign a = false ∨ b = a) ∧
      (numGe b a = true ↔ numSign a = true ∨ b = a) := by
  have hna := isNaN_of_isInf ha
  obtain ⟨hle, hge⟩ := inf_compare ha hb
  rw [numLe_iff hna hb, numGe_iff hna hb, numLe_iff hb hna, numGe_iff hb hna]
  exact ⟨hle, hge, hge, hle⟩

theorem ieee_div_by_zero (ha : isFin a = true) (hza : isZero a = false) (hb : isZero b = true) :
    isInf (numDiv nm a b) = true ∧ numSign (numDiv nm a b) = (numSign a != numSign b) := by
  rw [numDiv_by_zero ha hza hb]
  exact packNum_infMag_spec _

theorem ieee_fin_compare (ha : isFin a = true) (hb : isFin b = true) :
    (numLe a b = true ↔ numReal a ≤ numReal b) ∧ (numGe a b = true ↔ numReal b ≤ numReal a) := by
  rw [numLe_iff (isNaN_of_isFin ha) (isNaN_of_isFin hb), numGe_iff (isNaN_of_isFin ha) (isNaN_of_isFin hb),
    numReal_le_iff, numReal_le_iff]
  exact ⟨Iff.rfl, Iff.rfl⟩

end Clauses

/-- Settles O57: the clauses in the order of the statement. -/
theorem ieeeSpecialValues : Obligations.IeeeSpecialValues := fun nm _ _ =>
  ⟨ieee_nan nm,
    fun ha => ⟨numSqrt_nan ha, numFloor_nan ha⟩,
    ieee_inf_inf nm,
    ieee_inf_fin nm,
    fun ha hb => ⟨numMul_inf_zero ha hb, numMul_zero_inf hb ha⟩,
    ieee_inf_mul_fin nm,
    fun ha => ⟨numFloor_inf ha, numSqrt_inf ha⟩,
    ieee_inf_compare,
    numDiv_zero_zero,
    ieee_div_by_zero nm,
    numSqrt_neg,
    ieee_fin_compare⟩

end Sys2Proof.Machine
end

section
/-! PROOFS. The functions of NUMERICS within the limits of 00_scope.md R11. -/

namespace Sys2Proof.Machine

/-! ### Correct rounding keeps a bound -/

theorem abs_numReal_lt_overflowBound {c : Num} (hc : isFin c = true) : |numReal c| < overflowBound := by
  obtain ⟨s, m, hm, -, hs, -, he⟩ := magOf_eq_scaled ((isFin_iff c).mp hc)
  have hle : numMag c ≤ (2 ^ 24 - 1) * 2 ^ 253 := by
    rw [numMag_eq_magOf, he]
    gcongr <;> omega
  have hlt : (numMag c : ℝ) < (2 ^ 25 - 1) * 2 ^ 252 := calc
    (numMag c : ℝ) ≤ ((2 ^ 24 - 1) * 2 ^ 253 : Nat) := by exact_mod_cast hle
    _ < (2 ^ 25 - 1) * 2 ^ 252 := by norm_num
  rw [abs_numReal, overflowBound_eq]
  gcongr

/-- What rounds a value bounded by a finite Num is finite and bounded by it. -/
theorem roundsTo_bounded {r c : Num} {x : ℝ} (h : roundsTo r x) (hc : isFin c = true)
    (hx : |x| ≤ numReal c) : isFin r = true ∧ |numReal r| ≤ numReal c := by
  obtain ⟨-, hfin, -, -⟩ := h
  obtain ⟨hr, hnear⟩ :=
    hfin (lt_of_le_of_lt (hx.trans (le_abs_self _)) (abs_numReal_lt_overflowBound hc))
  refine ⟨hr, ?_⟩
  obtain ⟨hxl, hxu⟩ := abs_le.mp hx
  have hup := (hnear c hc).1
  have hdown := (hnear (numNeg c) (by rwa [isFin_numNeg])).1
  rw [abs_of_nonneg (sub_nonneg.mpr hxu)] at hup
  rw [numReal_numNeg, abs_of_nonpos (sub_nonpos.mpr hxl)] at hdown
  exact abs_le.mpr ⟨by linarith [neg_abs_le (numReal r - x)], by linarith [le_abs_self (numReal r - x)]⟩

/-- A value in units of 2^-640, not zero, is correctly rounded. -/
theorem roundsTo_fxRound (zneg : Bool) {v : Int} (hv : v ≠ 0) :
    roundsTo (fxRound zneg v) ((v : ℝ) / 2 ^ 149 / fxLeast) := by
  unfold fxRound
  rw [if_neg hv]
  refine roundsTo_packNum_roundMag (by decide) ?_ ?_
  · rw [inUnits_div_right, inUnits_int]
  · have : (fxLeast : ℝ) ≠ 0 := by exact_mod_cast (by decide : fxLeast ≠ 0)
    have : (v : ℝ) ≠ 0 := by exact_mod_cast hv
    positivity

theorem fxRound_bounded {zneg : Bool} {v : Int} {c : Num} (hc : isFin c = true)
    (hs : 0 ≤ numReal c) (h : v.natAbs ≤ numMag c * fxLeast) :
    isFin (fxRound zneg v) = true ∧ |numReal (fxRound zneg v)| ≤ numReal c := by
  by_cases hv : v = 0
  · have hz : isZero (fxRound zneg v) = true := by
      rw [fxRound, hv, Int.natAbs_zero, roundMag_zero]
      exact isZero_packNum_zero _
    exact ⟨isFin_of_isZero hz, by rwa [numReal_eq_zero.mpr hz, abs_zero]⟩
  · refine roundsTo_bounded (roundsTo_fxRound zneg hv) hc ?_
    have hpos : (0 : ℝ) < fxLeast := by exact_mod_cast (by decide : 0 < fxLeast)
    have hR : |(v : ℝ)| ≤ numMag c * fxLeast := by
      rw [← Int.cast_abs, ← Nat.cast_natAbs]
      exact_mod_cast h
    rw [abs_div, abs_div, abs_of_pos hpos, div_le_iff₀ hpos, abs_of_pos (by positivity : (0 : ℝ) < 2 ^ 149),
      ← abs_of_nonneg hs, abs_numReal, div_mul_eq_mul_div]
    gcongr

/-- A function of NUMERICS held within its limits is finite and bounded, if the exact value is
(P-RANGE). -/
theorem withinLimits_bounded {raw : Num} {zneg : Bool} {v : Int} {c : Num} (hc : isFin c = true)
    (hs : 0 ≤ numReal c) (h : v.natAbs ≤ numMag c * fxLeast) :
    isFin (withinLimits raw zneg v (numMag c)) = true ∧
      |numReal (withinLimits raw zneg v (numMag c))| ≤ numReal c := by
  rcases withinLimits_cases raw zneg v (numMag c) with ⟨hadm, heq⟩ | ⟨-, heq⟩
  · obtain ⟨hfin, -, hmag⟩ := admissible_iff.mp hadm
    rw [heq]
    refine ⟨hfin, ?_⟩
    rw [← abs_of_nonneg hs, abs_numReal, abs_numReal]
    gcongr
  · rw [heq]
    exact fxRound_bounded hc hs h

/-! ### The exact values lie within the range -/

theorem fxSeries_le (z : Nat) (d : Nat → Nat) (fuel j : Nat) : fxSeries z d fuel j ≤ fxOne := by
  cases fuel with
  | zero => exact le_rfl
  | succ fuel => exact Nat.sub_le _ _

theorem fxCos_le (x : Nat) : fxCos x ≤ fxOne := fxSeries_le _ _ _ _

theorem fxSin_le (x : Nat) : fxSin x ≤ x := by
  unfold fxSin
  exact Nat.div_le_of_le_mul (by rw [Nat.mul_comm]; exact Nat.mul_le_mul_right _ (fxSeries_le _ _ _ _))

/-- What remains of `A` beyond the multiple of a half turn `P / 2` nearest to it. -/
theorem natAbs_rest_le {A P : Nat} (hP : 2 ≤ P) :
    ((A : Int) - ((A + P / 4) / (P / 2) * (P / 2) : Nat)).natAbs ≤ P / 4 + 1 := by
  have hdiv := Nat.div_add_mod' (A + P / 4) (P / 2)
  have hmod := Nat.mod_lt (A + P / 4) (by omega : 0 < P / 2)
  omega

/-- After the reduction to the nearest quarter turn less than one radian remains. -/
theorem fxRest_le (m : Nat) : (fxRest m).natAbs / 2 ^ 160 ≤ fxOne := by
  have hquarter : fxPiWide / 4 + 1 ≤ 2 ^ 160 * fxOne := by decide
  have hrest : (fxRest m).natAbs ≤ fxPiWide / 4 + 1 := natAbs_rest_le (by decide)
  exact Nat.div_le_of_le_mul (hrest.trans hquarter)

theorem fxSinSigned_le (m : Nat) : (fxSinSigned (fxRest m)).natAbs ≤ fxOne := by
  have := (fxSin_le ((fxRest m).natAbs / 2 ^ 160)).trans (fxRest_le m)
  unfold fxSinSigned
  split <;> omega

theorem fxCosSigned_le (r : Int) : (fxCosSigned r).natAbs ≤ fxOne := by
  rw [fxCosSigned, Int.natAbs_natCast]
  exact fxCos_le _

theorem sinExact_le (a : Num) : (sinExact a).natAbs ≤ fxOne := by
  have hsin := fxSinSigned_le (numMag a)
  have hcos := fxCosSigned_le (fxRest (numMag a))
  unfold sinExact
  dsimp only
  split_ifs <;> simpa only [Int.natAbs_neg]

theorem cosExact_le (a : Num) : (cosExact a).natAbs ≤ fxOne := by
  have hsin := fxSinSigned_le (numMag a)
  have hcos := fxCosSigned_le (fxRest (numMag a))
  unfold cosExact
  dsimp only
  split_ifs <;> simpa only [Int.natAbs_neg]

theorem fxAtan_le (t : Nat) : fxAtan t ≤ fxPi / 4 := Nat.min_le_left _ _

theorem fxAngle_le (xneg : Bool) (x y : Nat) : fxAngle xneg x y ≤ fxPi := by
  have h1 := fxAtan_le (y * fxOne / x)
  have h2 := fxAtan_le (x * fxOne / y)
  unfold fxAngle
  dsimp only
  split_ifs <;> omega

theorem numSignedAngle_le (neg : Bool) (y x : Num) :
    (if neg then -(atan2Exact y x : Int) else atan2Exact y x).natAbs ≤ fxPi := by
  have : atan2Exact y x ≤ fxPi := fxAngle_le _ _ _
  split <;> simpa only [Int.natAbs_neg, Int.natAbs_natCast]

/-! ### The bounds of P-RANGE -/

theorem numReal_numOne : numReal numOne = 1 := by
  have h : numVal numOne = 2 ^ 149 := by decide
  rw [numReal, h]
  norm_num

theorem numVal_numPi : numVal numPi = 0xC90FDB * 2 ^ 127 := by decide

theorem numReal_numPi : numReal numPi = 0xC90FDB / 2 ^ 22 := by
  rw [numReal, numVal_numPi]
  norm_num

theorem fxOne_le : fxOne ≤ numMag numOne * fxLeast := by decide

theorem fxPi_le : fxPi ≤ numMag numPi * fxLeast := by decide

/-- Sine and cosine within their limits are finite and at most 1. -/
theorem withinLimits_one {raw : Num} {zneg : Bool} {v : Int} (h : v.natAbs ≤ fxOne) :
    isFin (withinLimits raw zneg v (numMag numOne)) = true ∧
      |numReal (withinLimits raw zneg v (numMag numOne))| ≤ 1 := by
  have hb := withinLimits_bounded (raw := raw) (zneg := zneg) (c := numOne) (by decide)
    (numReal_numOne ▸ zero_le_one) (h.trans fxOne_le)
  rwa [numReal_numOne] at hb

section Functions
variable (nm : Numerics) {a b : Num}

theorem numSin_nan (h : isNaN a = true ∨ isInf a = true) : isNaN (numSin nm a) = true := by
  unfold numSin
  rw [if_pos (by simpa using h), isNaN_nanResult]

theorem numCos_nan (h : isNaN a = true ∨ isInf a = true) : isNaN (numCos nm a) = true := by
  unfold numCos
  rw [if_pos (by simpa using h), isNaN_nanResult]

theorem numAtan2_nan (h : isNaN a = true ∨ isNaN b = true) : isNaN (numAtan2 nm a b) = true := by
  unfold numAtan2
  rw [if_pos (by simpa using h), isNaN_nanResult]

theorem numSin_fin (ha : isFin a = true) : numSin nm a =
    if a = numZero then numZero
    else withinLimits (nm.sinRaw a) (numSign a) (sinExact a) (numMag numOne) := by
  simp only [numSin, isNaN_of_isFin ha, isInf_of_isFin ha, Bool.or_self, Bool.false_eq_true, if_false]

theorem numCos_fin (ha : isFin a = true) : numCos nm a =
    if isZero a then numOne
    else withinLimits (nm.cosRaw a) false (cosExact a) (numMag numOne) := by
  simp only [numCos, isNaN_of_isFin ha, isInf_of_isFin ha, Bool.or_self, Bool.false_eq_true, if_false]

theorem numAtan2_not_nan (ha : isNaN a = false) (hb : isNaN b = false) : numAtan2 nm a b =
    if atan2Mag a b = 0 ∧ numSign b = false then packNum (numSign a) 0
    else withinLimits (nm.atan2Raw a b) (numSign a)
      (if numSign a then -(atan2Exact a b : Int) else atan2Exact a b) (numMag numPi) := by
  simp only [numAtan2, ha, hb, Bool.or_self, Bool.false_eq_true, if_false]

theorem numSin_range (ha : isFin a = true) :
    isFin (numSin nm a) = true ∧ |numReal (numSin nm a)| ≤ 1 := by
  rw [numSin_fin nm ha]
  split
  · rw [numReal_eq_zero.mpr (by decide), abs_zero]
    exact ⟨by decide, zero_le_one⟩
  · exact withinLimits_one (sinExact_le a)

theorem numCos_range (ha : isFin a = true) :
    isFin (numCos nm a) = true ∧ |numReal (numCos nm a)| ≤ 1 := by
  rw [numCos_fin nm ha]
  split
  · rw [numReal_numOne, abs_one]
    exact ⟨by decide, le_rfl⟩
  · exact withinLimits_one (cosExact_le a)

theorem numAtan2_range (ha : isFin a = true) (hb : isFin b = true) :
    isFin (numAtan2 nm a b) = true ∧ |numReal (numAtan2 nm a b)| ≤ numReal numPi := by
  have hpos : 0 ≤ numReal numPi := by rw [numReal_numPi]; positivity
  rw [numAtan2_not_nan nm (isNaN_of_isFin ha) (isNaN_of_isFin hb)]
  split
  · have hz := isZero_packNum_zero (numSign a)
    rw [numReal_eq_zero.mpr hz, abs_zero]
    exact ⟨isFin_of_isZero hz, hpos⟩
  · exact withinLimits_bounded (by decide) hpos ((numSignedAngle_le _ a b).trans fxPi_le)

/-- P-ZERO for the arc tangent: a zero ordinate on the positive side. -/
theorem numAtan2_zero (ha : isNaN a = false) (hs : numSign a = false) :
    numAtan2 nm 0x00000000#32 a = 0x00000000#32 := by
  have hmag : atan2Mag 0x00000000#32 a = 0 := by
    unfold atan2Mag
    rw [show isInf 0x00000000#32 = false by decide, show numMag 0x00000000#32 = 0 by decide]
    simp
  rw [numAtan2_not_nan nm (by decide) ha, if_pos ⟨hmag, hs⟩]
  decide

end Functions

theorem pi_le_numReal_numPi : Real.pi ≤ numReal numPi := by
  rw [numReal_numPi]
  linarith [Real.pi_lt_d20]

/-- The Num below `PI` lies below π, and between the two lies no Num. -/
theorem numReal_numPi_le {c : Num} (hc : isFin c = true) (h : Real.pi ≤ numReal c) :
    numReal numPi ≤ numReal c := by
  have habs : numReal c = (numMag c : ℝ) / 2 ^ 149 := by
    rw [← abs_numReal, abs_of_nonneg (Real.pi_pos.le.trans h)]
  rcases numMag_gap (s := 127) (q := 0xC90FDA) hc (.inr (by decide)) with hm | hm
  · have hbelow : numReal c ≤ 0xC90FDA / 2 ^ 22 := by
      have : (numMag c : ℝ) ≤ 0xC90FDA * 2 ^ 127 := by exact_mod_cast hm
      rw [habs, div_le_iff₀ (by positivity)]
      linarith
    linarith [Real.pi_gt_d20]
  · have : (0xC90FDB * 2 ^ 127 : ℝ) ≤ numMag c := by exact_mod_cast hm
    rw [habs, numReal_numPi, le_div_iff₀ (by positivity)]
    linarith

/-- Settles O58: P-NAN, P-ZERO, P-RANGE and `PI`, in the order of the statement. -/
theorem numericsWithinLimits : Obligations.NumericsWithinLimits := fun nm _ _ =>
  ⟨fun h => ⟨numSin_nan nm h, numCos_nan nm h⟩,
    numAtan2_nan nm,
    fun hz => by rw [numCos_fin nm (isFin_of_isZero hz), if_pos hz]; rfl,
    numSin_fin nm (by decide),
    numAtan2_zero nm,
    fun ha => ⟨(numSin_range nm ha).1, (numSin_range nm ha).2, numCos_range nm ha⟩,
    numAtan2_range nm,
    pi_le_numReal_numPi,
    fun _ => numReal_numPi_le⟩

end Sys2Proof.Machine
end

section
/-! PROOFS. The fixed-point cosine and sine are accurate: the ROM constants are within 2^-24 of the real
numbers that define them (10_state.md R37, R38). -/

namespace Sys2Proof.Machine

-- Used only so that the proofs of this section are worked through one after the other: that keeps the number of
-- threads, and with it the memory, of the check low. Its effect on section variables is not relied on.
set_option deprecated.oldSectionVars true

/-! ### Alternating series in Horner form -/

/-- The tail of an alternating series from term `j` on, the term `j` divided out:
`1 - y/d(j) * (1 - y/d(j+1) * (1 - ...))`. -/
noncomputable def altTail (d : ℕ → ℕ) (y : ℝ) (j : ℕ) : ℝ :=
  ∑' n, ∏ i ∈ Finset.range n, (-y / d (j + i))

section Tail
variable {d : ℕ → ℕ} {y : ℝ} (hd : ∀ i, 2 ≤ d i) (hy0 : 0 ≤ y) (hy1 : y ≤ 1)
include hd hy0 hy1

theorem norm_altTerm_le (j n : ℕ) : ‖∏ i ∈ Finset.range n, (-y / d (j + i))‖ ≤ (1 / 2) ^ n := by
  rw [norm_prod, ← Finset.card_range n, ← Finset.prod_const, Finset.card_range]
  refine Finset.prod_le_prod (fun i _ => norm_nonneg _) fun i _ => ?_
  have h2 : (2 : ℝ) ≤ d (j + i) := by exact_mod_cast hd (j + i)
  rw [norm_div, norm_neg, Real.norm_of_nonneg hy0, Real.norm_of_nonneg (by linarith)]
  exact div_le_div₀ zero_le_one hy1 two_pos h2

theorem summable_altTerm (j : ℕ) : Summable fun n => ∏ i ∈ Finset.range n, (-y / d (j + i)) :=
  Summable.of_norm_bounded summable_geometric_two (norm_altTerm_le hd hy0 hy1 j)

theorem abs_altTail_le (j : ℕ) : |altTail d y j| ≤ 2 := by
  have hsum := summable_geometric_two.hasSum
  rw [tsum_geometric_two] at hsum
  exact tsum_of_norm_bounded hsum (norm_altTerm_le hd hy0 hy1 j)

/-- One step of the Horner form. -/
theorem altTail_succ (j : ℕ) : altTail d y j = 1 - y / d j * altTail d y (j + 1) := by
  have hterm : ∀ n, ∏ i ∈ Finset.range (n + 1), (-y / d (j + i)) =
      -(y / d j) * ∏ i ∈ Finset.range n, (-y / d (j + 1 + i)) := fun n => by
    rw [Finset.prod_range_succ', Nat.add_zero, mul_comm, neg_div]
    congr 1
    exact Finset.prod_congr rfl fun i _ => by rw [Nat.add_right_comm, Nat.add_assoc]
  rw [altTail, (summable_altTerm hd hy0 hy1 j).tsum_eq_zero_add, Finset.prod_range_zero]
  simp_rw [hterm]
  rw [tsum_mul_left, neg_mul, ← sub_eq_add_neg]
  rfl

end Tail

/-- The product of the ratios of successive terms of the cosine series. -/
theorem prod_cos_terms (x : ℝ) (n : ℕ) :
    ∏ i ∈ Finset.range n, (-x ^ 2 / ((2 * (0 + i) + 1) * (2 * (0 + i) + 2) : ℕ)) =
      (-1) ^ n * x ^ (2 * n) / (2 * n).factorial := by
  induction n with
  | zero => simp
  | succ n ih =>
    rw [Finset.prod_range_succ, ih, Nat.zero_add, show 2 * (n + 1) = 2 * n + 1 + 1 by ring,
      Nat.factorial_succ (2 * n + 1), Nat.factorial_succ (2 * n)]
    push_cast
    field_simp
    ring

theorem prod_sin_terms (x : ℝ) (n : ℕ) :
    x * ∏ i ∈ Finset.range n, (-x ^ 2 / ((2 * (0 + i) + 2) * (2 * (0 + i) + 3) : ℕ)) =
      (-1) ^ n * x ^ (2 * n + 1) / (2 * n + 1).factorial := by
  induction n with
  | zero => simp
  | succ n ih =>
    rw [Finset.prod_range_succ, ← mul_assoc, ih, Nat.zero_add,
      show 2 * (n + 1) + 1 = 2 * n + 1 + 1 + 1 by ring, Nat.factorial_succ (2 * n + 1 + 1),
      Nat.factorial_succ (2 * n + 1)]
    push_cast
    field_simp
    ring

/-- The divisors of the cosine and of the sine series, as `fxCos` and `fxSin` use them. -/
def cosDivisor (j : ℕ) : ℕ := (2 * j + 1) * (2 * j + 2)

def sinDivisor (j : ℕ) : ℕ := (2 * j + 2) * (2 * j + 3)

theorem two_le_cosDivisor (j : ℕ) : 2 ≤ cosDivisor j := by unfold cosDivisor; nlinarith

theorem two_le_sinDivisor (j : ℕ) : 2 ≤ sinDivisor j := by unfold sinDivisor; nlinarith

theorem cos_eq_altTail (x : ℝ) : Real.cos x = altTail cosDivisor (x ^ 2) 0 := by
  rw [Real.cos_eq_tsum]
  exact tsum_congr fun n => (prod_cos_terms x n).symm

theorem sin_eq_altTail (x : ℝ) : Real.sin x = x * altTail sinDivisor (x ^ 2) 0 := by
  rw [Real.sin_eq_tsum, altTail, ← tsum_mul_left]
  exact tsum_congr fun n => (prod_sin_terms x n).symm

/-! ### The series in units of 2^-640 -/

theorem fxOne_cast : (fxOne : ℝ) = 2 ^ 640 := by
  simp only [fxOne, Nat.cast_pow, Nat.cast_ofNat, ← pow_mul]

theorem fxOne_cast_pos : (0 : ℝ) < fxOne := by rw [fxOne_cast]; positivity

theorem fxOne_pos : 0 < fxOne := by exact_mod_cast fxOne_cast_pos

/-- A quotient rounded down, in units: at most one unit is lost. -/
theorem abs_div_units_le (a b : ℕ) :
    |((a / b : ℕ) : ℝ) / fxOne - (a : ℝ) / b / fxOne| ≤ 1 / fxOne := by
  have hU := fxOne_cast_pos
  rw [← sub_div, abs_div, abs_of_pos hU]
  gcongr
  have h := Nat.floor_div_eq_div (K := ℝ) a b
  rw [← h, abs_sub_comm, abs_of_nonneg (sub_nonneg.mpr (Nat.floor_le (by positivity)))]
  linarith [Nat.lt_floor_add_one ((a : ℝ) / b)]

/-- One step of the series: nothing is cut off at zero, and at most one unit is lost. -/
theorem fxSeries_succ_error {z : ℕ} {d : ℕ → ℕ} (hd : ∀ i, 2 ≤ d i) (hz : z ≤ fxOne) (fuel j : ℕ) :
    |(fxSeries z d (fuel + 1) j : ℝ) / fxOne -
      (1 - z / fxOne * (fxSeries z d fuel (j + 1) / fxOne) / d j)| ≤ 1 / fxOne := by
  have hU := fxOne_cast_pos
  have hS := fxSeries_le z d fuel (j + 1)
  have hdiv := abs_div_units_le (z * fxSeries z d fuel (j + 1)) (d j * fxOne)
  have hle : z * fxSeries z d fuel (j + 1) / (d j * fxOne) ≤ fxOne := by
    refine Nat.div_le_of_le_mul ?_
    have := hd j
    calc z * fxSeries z d fuel (j + 1) ≤ fxOne * fxOne := Nat.mul_le_mul hz hS
      _ ≤ d j * fxOne * fxOne := by
        rw [Nat.mul_assoc]; exact Nat.le_mul_of_pos_left _ (by omega)
  rw [fxSeries, Nat.cast_sub hle, sub_div, div_self hU.ne', sub_sub_sub_cancel_left, abs_sub_comm]
  convert hdiv using 3
  have : (d j : ℝ) ≠ 0 := by exact_mod_cast (by have := hd j; omega : d j ≠ 0)
  push_cast
  field_simp

/-- The error halves with every term, up to twice the unit and the error of the argument. -/
theorem fxSeries_error {z : ℕ} {d : ℕ → ℕ} {y δ : ℝ} (hd : ∀ i, 2 ≤ d i) (hy0 : 0 ≤ y) (hy1 : y ≤ 1)
    (hz : z ≤ fxOne) (hδ : |(z : ℝ) / fxOne - y| ≤ δ) (fuel j : ℕ) :
    |(fxSeries z d fuel j : ℝ) / fxOne - altTail d y j| ≤ 3 / 2 ^ fuel + 2 * (1 / fxOne + δ) := by
  have hU := fxOne_cast_pos
  have hδ0 : 0 ≤ δ := (abs_nonneg _).trans hδ
  induction fuel generalizing j with
  | zero =>
    have h := abs_le.mp (abs_altTail_le hd hy0 hy1 j)
    have : (0 : ℝ) ≤ 2 * (1 / fxOne + δ) := by positivity
    rw [fxSeries, div_self hU.ne', pow_zero, div_one, abs_le]
    constructor <;> linarith
  | succ fuel ih =>
    have hstep := fxSeries_succ_error hd hz fuel j
    have htail := abs_altTail_le hd hy0 hy1 (j + 1)
    have hih := ih (j + 1)
    have hz1 : (z : ℝ) / fxOne ≤ 1 := (div_le_one hU).mpr (by exact_mod_cast hz)
    have hz0 : 0 ≤ (z : ℝ) / fxOne := by positivity
    have h2 : (2 : ℝ) ≤ d j := by exact_mod_cast hd j
    rw [altTail_succ hd hy0 hy1 j]
    generalize (fxSeries z d (fuel + 1) j : ℝ) / fxOne = A at hstep ⊢
    generalize (fxSeries z d fuel (j + 1) : ℝ) / fxOne = S at hstep hih
    generalize altTail d y (j + 1) = T at htail hih ⊢
    generalize (z : ℝ) / fxOne = w at hstep hδ hz0 hz1
    have hprod : |y * T - w * S| ≤ 3 / 2 ^ fuel + 2 * (1 / fxOne + δ) + 2 * δ := by
      have hsplit : y * T - w * S = -(w * (S - T)) - (w - y) * T := by ring
      have h1 : |w * (S - T)| ≤ 3 / 2 ^ fuel + 2 * (1 / fxOne + δ) := by
        rw [abs_mul, abs_of_nonneg hz0]
        exact (mul_le_of_le_one_left (abs_nonneg _) hz1).trans hih
      have h2 : |(w - y) * T| ≤ δ * 2 := by
        rw [abs_mul]
        exact mul_le_mul hδ htail (abs_nonneg _) hδ0
      rw [hsplit]
      refine (abs_sub _ _).trans ?_
      rw [abs_neg]
      linarith
    have hquot : |(y * T - w * S) / d j| ≤ (3 / 2 ^ fuel + 2 * (1 / fxOne + δ) + 2 * δ) / 2 := by
      rw [abs_div, abs_of_pos (by linarith : (0 : ℝ) < d j)]
      exact div_le_div₀ ((abs_nonneg _).trans hprod) hprod two_pos h2
    have hsum : A - (1 - y / d j * T) = (A - (1 - w * S / d j)) + (y * T - w * S) / d j := by ring
    rw [hsum]
    refine (abs_add_le _ _).trans ((add_le_add hstep hquot).trans_eq ?_)
    rw [pow_succ]
    ring

/-- The unit, against the accuracy that the bounds below use. -/
theorem unit_le_two_pow {m : ℕ} (h : m ≤ 640) : (1 : ℝ) / fxOne ≤ 1 / 2 ^ m := by
  rw [fxOne_cast]
  gcongr
  exact one_le_two

theorem unit_le : (1 : ℝ) / fxOne ≤ 1 / 2 ^ 60 := unit_le_two_pow (by norm_num)

/-- After 64 terms, with the roundings: far more than the fixed-point functions lose. -/
theorem series_error_le : (3 : ℝ) / 2 ^ 64 + 2 * (1 / fxOne + 1 / fxOne) + 1 / fxOne ≤ 1 / 2 ^ 60 := by
  have hU : (1 : ℝ) / fxOne ≤ 1 / 2 ^ 80 := unit_le_two_pow (by norm_num)
  have : (3 : ℝ) / 2 ^ 64 + 5 * (1 / 2 ^ 80) ≤ 1 / 2 ^ 60 := by norm_num
  linarith

section Argument
variable {x : ℕ} (hx : x ≤ fxOne)
include hx

theorem unit_argument : 0 ≤ (x : ℝ) / fxOne ∧ (x : ℝ) / fxOne ≤ 1 :=
  ⟨by positivity, (div_le_one fxOne_cast_pos).mpr (by exact_mod_cast hx)⟩

/-- The series at the square of an argument of at most one radian. -/
theorem fxSeries_square_error {d : ℕ → ℕ} (hd : ∀ i, 2 ≤ d i) :
    |(fxSeries (x * x / fxOne) d 64 0 : ℝ) / fxOne - altTail d (((x : ℝ) / fxOne) ^ 2) 0| ≤
      3 / 2 ^ 64 + 2 * (1 / fxOne + 1 / fxOne) := by
  obtain ⟨h0, h1⟩ := unit_argument hx
  refine fxSeries_error hd (by positivity) (pow_le_one₀ h0 h1) ?_ ?_ 64 0
  · exact Nat.div_le_of_le_mul (Nat.mul_le_mul hx hx)
  · convert abs_div_units_le (x * x) fxOne using 3
    push_cast
    field_simp

theorem fxCos_error : |(fxCos x : ℝ) / fxOne - Real.cos (x / fxOne)| ≤ 1 / 2 ^ 60 := by
  have hU : (0 : ℝ) ≤ 1 / fxOne := by positivity
  have h := fxSeries_square_error hx two_le_cosDivisor
  rw [← cos_eq_altTail] at h
  exact h.trans (by linarith [series_error_le])

theorem fxSin_error : |(fxSin x : ℝ) / fxOne - Real.sin (x / fxOne)| ≤ 1 / 2 ^ 60 := by
  obtain ⟨h0, h1⟩ := unit_argument hx
  have hseries := fxSeries_square_error hx two_le_sinDivisor
  have hdiv := abs_div_units_le (x * fxSeries (x * x / fxOne) sinDivisor 64 0) fxOne
  rw [sin_eq_altTail]
  change |((x * fxSeries (x * x / fxOne) sinDivisor 64 0 / fxOne : ℕ) : ℝ) / fxOne - _| ≤ _
  have hmul : ((x * fxSeries (x * x / fxOne) sinDivisor 64 0 : ℕ) : ℝ) / fxOne / fxOne =
      x / fxOne * (fxSeries (x * x / fxOne) sinDivisor 64 0 / fxOne) := by
    push_cast
    field_simp
  rw [hmul] at hdiv
  generalize ((x * fxSeries (x * x / fxOne) sinDivisor 64 0 / fxOne : ℕ) : ℝ) / fxOne = A at hdiv ⊢
  generalize (fxSeries (x * x / fxOne) sinDivisor 64 0 : ℝ) / fxOne = S at hdiv hseries
  generalize (x : ℝ) / fxOne = w at *
  have hscaled : |w * S - w * altTail sinDivisor (w ^ 2) 0| ≤
      3 / 2 ^ 64 + 2 * (1 / fxOne + 1 / fxOne) := by
    rw [← mul_sub, abs_mul, abs_of_nonneg h0]
    exact (mul_le_of_le_one_left (abs_nonneg _) h1).trans hseries
  calc _ ≤ |A - w * S| + |w * S - w * altTail sinDivisor (w ^ 2) 0| := abs_sub_le _ _ _
    _ ≤ 1 / 2 ^ 60 := by linarith [series_error_le]

end Argument

/-! ### The angles -/

theorem fxPi_error : |(fxPi : ℝ) / fxOne - Real.pi| ≤ 1 / 2 ^ 60 := by
  have hlo : 314159265358979323846 * fxOne ≤ fxPi * 10 ^ 20 := by
    norm_num [fxPi, fxPiWide, fxOne]
  have hhi : fxPi * 10 ^ 20 ≤ 314159265358979323847 * fxOne := by
    norm_num [fxPi, fxPiWide, fxOne]
  have hU := fxOne_cast_pos
  have hlo' : (314159265358979323846 / 10 ^ 20 : ℝ) ≤ fxPi / fxOne := by
    rw [div_le_div_iff₀ (by positivity) hU]
    exact_mod_cast hlo
  have hhi' : (fxPi / fxOne : ℝ) ≤ 314159265358979323847 / 10 ^ 20 := by
    rw [div_le_div_iff₀ hU (by positivity)]
    exact_mod_cast hhi
  have h1 := Real.pi_gt_d20
  have h2 := Real.pi_lt_d20
  norm_num at hlo' hhi' h1 h2 ⊢
  rw [abs_le]
  constructor <;> linarith

/-- The fixed-point angle `a * fxPi / b` of at most a quarter turn is accurate, and at most one radian if
it is at most an eighth of a turn. -/
theorem angle_error {a b : ℕ} (hb : 0 < b) (hab : a ≤ b) :
    |((a * fxPi / b : ℕ) : ℝ) / fxOne - a * Real.pi / b| ≤ 1 / 2 ^ 59 := by
  have hbR : (0 : ℝ) < b := by exact_mod_cast hb
  have hratio : (a : ℝ) / b ≤ 1 := (div_le_one hbR).mpr (by exact_mod_cast hab)
  have hdiv := abs_div_units_le (a * fxPi) b
  have hpi : |((a * fxPi : ℕ) : ℝ) / b / fxOne - a * Real.pi / b| ≤ 1 / 2 ^ 60 := by
    have : ((a * fxPi : ℕ) : ℝ) / b / fxOne - a * Real.pi / b = a / b * (fxPi / fxOne - Real.pi) := by
      push_cast
      field_simp
    rw [this, abs_mul, abs_of_nonneg (by positivity)]
    exact (mul_le_of_le_one_left (abs_nonneg _) hratio).trans fxPi_error
  calc _ ≤ _ := abs_sub_le _ (((a * fxPi : ℕ) : ℝ) / b / fxOne) _
    _ ≤ 1 / 2 ^ 60 + 1 / 2 ^ 60 := add_le_add (hdiv.trans unit_le) hpi
    _ = 1 / 2 ^ 59 := by norm_num

theorem fxPi_le_four : fxPi ≤ 4 * fxOne := by norm_num [fxPi, fxPiWide, fxOne]

theorem angle_le {a b : ℕ} (hab : 4 * a ≤ b) : a * fxPi / b ≤ fxOne := by
  refine Nat.div_le_of_le_mul ?_
  calc a * fxPi ≤ a * (4 * fxOne) := Nat.mul_le_mul_left a fxPi_le_four
    _ = 4 * a * fxOne := by ring
    _ ≤ b * fxOne := Nat.mul_le_mul_right _ hab

/-! ### The cosine and the sine of a turn's fraction -/

/-- The fixed-point number `c` is the cosine of `θ` but for 2^-58, and at most 1. -/
def IsCosine (c : ℤ) (θ : ℝ) : Prop :=
  c.natAbs ≤ fxOne ∧ |(c : ℝ) / fxOne - Real.cos θ| ≤ 1 / 2 ^ 58

theorem IsCosine.congr {c : ℤ} {θ φ : ℝ} (h : IsCosine c θ) (heq : Real.cos θ = Real.cos φ) :
    IsCosine c φ := by
  rwa [IsCosine, heq] at h

theorem IsCosine.neg {c : ℤ} {θ : ℝ} (h : IsCosine c θ) : IsCosine (-c) (Real.pi - θ) := by
  obtain ⟨hle, herr⟩ := h
  refine ⟨by rwa [Int.natAbs_neg], ?_⟩
  rw [Real.cos_pi_sub, Int.cast_neg, neg_div, neg_sub_neg, abs_sub_comm]
  exact herr

/-- Up to a quarter turn: by the cosine series, or by the sine series of what is missing to it. -/
theorem isCosine_fxCosQuarter {k n : ℕ} (hn : 0 < n) (hk : 4 * k ≤ n) :
    IsCosine (fxCosQuarter k n) (2 * Real.pi * k / n) := by
  have hnR : (n : ℝ) ≠ 0 := by exact_mod_cast hn.ne'
  have hsum : (1 : ℝ) / 2 ^ 60 + 1 / 2 ^ 59 ≤ 1 / 2 ^ 58 := by norm_num
  unfold fxCosQuarter
  split
  · next h8 =>
    have harg : 2 * fxPi * k / n = 2 * k * fxPi / n := by congr 1; ring
    have hle : 2 * k * fxPi / n ≤ fxOne := angle_le (by omega)
    have hang := angle_error (a := 2 * k) hn (by omega)
    rw [harg]
    refine ⟨by rw [Int.natAbs_natCast]; exact fxCos_le _, ?_⟩
    have hlip := (Real.abs_cos_sub_cos_le _ _).trans hang
    rw [show ((2 * k : ℕ) : ℝ) * Real.pi / n = 2 * Real.pi * k / n by push_cast; ring] at hlip
    exact ((abs_sub_le _ _ _).trans (add_le_add (fxCos_error hle) hlip)).trans hsum
  · next h8 =>
    have harg : 2 * fxPi * (n - 4 * k) / (4 * n) = 2 * (n - 4 * k) * fxPi / (4 * n) := by
      congr 1; ring
    have hle : 2 * (n - 4 * k) * fxPi / (4 * n) ≤ fxOne := angle_le (by omega)
    have hang := angle_error (a := 2 * (n - 4 * k)) (b := 4 * n) (by omega) (by omega)
    rw [harg]
    refine ⟨by rw [Int.natAbs_natCast]; exact (fxSin_le _).trans hle, ?_⟩
    have hlip := (Real.abs_sin_sub_sin_le _ _).trans hang
    rw [show ((2 * (n - 4 * k) : ℕ) : ℝ) * Real.pi / (4 * n : ℕ) = Real.pi / 2 - 2 * Real.pi * k / n by
      rw [Nat.cast_mul, Nat.cast_sub hk]; push_cast; field_simp; ring, Real.sin_pi_div_two_sub] at hlip
    exact ((abs_sub_le _ _ _).trans (add_le_add (fxSin_error hle) hlip)).trans hsum

/-- Up to half a turn: the second quarter mirrors the first, negated. -/
theorem isCosine_fxCosHalf {k n : ℕ} (hn : 0 < n) (hk : 2 * k ≤ n) :
    IsCosine (fxCosHalf k n) (2 * Real.pi * k / n) := by
  have hnR : (n : ℝ) ≠ 0 := by exact_mod_cast hn.ne'
  unfold fxCosHalf
  split
  · next h4 => exact isCosine_fxCosQuarter hn h4
  · next h4 =>
    refine (isCosine_fxCosQuarter (k := n - 2 * k) (n := 2 * n) (by omega) (by omega)).neg.congr ?_
    congr 1
    rw [Nat.cast_sub hk]
    push_cast
    field_simp
    ring

/-- Up to a turn: the second half mirrors the first. -/
theorem isCosine_fxCosTurn {k n : ℕ} (hn : 0 < n) (hk : k ≤ n) :
    IsCosine (fxCosTurn k n) (2 * Real.pi * k / n) := by
  have hnR : (n : ℝ) ≠ 0 := by exact_mod_cast hn.ne'
  unfold fxCosTurn
  split
  · next h2 => exact isCosine_fxCosHalf hn h2
  · next h2 =>
    refine (isCosine_fxCosHalf (k := n - k) hn (by omega)).congr ?_
    rw [← Real.cos_two_pi_sub]
    congr 1
    rw [Nat.cast_sub hk]
    field_simp
    ring

/-- The sine up to half a turn: the cosine of the angle less a quarter turn. -/
theorem isCosine_fxSinTurn {k n : ℕ} (hn : 0 < n) (hk : 2 * k ≤ n) :
    IsCosine (fxSinTurn k n) (2 * Real.pi * k / n - Real.pi / 2) := by
  have hnR : (n : ℝ) ≠ 0 := by exact_mod_cast hn.ne'
  refine (isCosine_fxCosTurn (n := 4 * n) (by omega) (by omega)).congr ?_
  rcases Nat.le_total (4 * k) n with h | h
  · rw [← Real.cos_neg, Nat.sub_eq_zero_of_le h, Nat.zero_add, Nat.cast_sub h]
    congr 1
    push_cast
    field_simp
    ring
  · rw [Nat.sub_eq_zero_of_le h, Nat.add_zero, Nat.cast_sub h]
    congr 1
    push_cast
    field_simp
    ring

/-! ### Rounding to a Num -/

/-- Up to 1.0, a rounding errs by at most 2^-25. -/
theorem IsRounding.abs_sub_le {P : ℕ} {X : ℝ} (h : IsRounding P X) (hX : X ≤ 2 ^ 149) :
    |(magOf P : ℝ) - X| ≤ 2 ^ 124 := by
  have hfin : P ≠ infMag := fun hP => by
    have := h.overflow_iff.mp hP
    norm_num at this hX
    linarith
  obtain ⟨s, q, m, hq, hs, hlo, hhi, hm, rfl⟩ := h
  have hmag : (magOf (min (s * 2 ^ 23 + m) infMag) : ℝ) = m * 2 ^ s := by
    rw [min_eq_left (by omega)]
    exact_mod_cast magOf_scale_le (m := m) (by omega) (by omega)
  have hpow : (q : ℝ) * 2 ^ s ≤ 2 ^ 149 := hlo.trans hX
  have hpowN : q * 2 ^ s ≤ 2 ^ 149 := by exact_mod_cast hpow
  rw [hmag]
  rcases Nat.lt_trichotomy s 126 with hs' | rfl | hs'
  · have hstep : (2 : ℝ) ^ s ≤ 2 ^ 125 := pow_le_pow_right₀ one_le_two (by omega)
    have h2 : (2 : ℝ) ^ 125 = 2 * 2 ^ 124 := by norm_num
    have hnear : |(m : ℝ) * 2 ^ s - X| ≤ 2 ^ s / 2 := by
      rw [abs_le]
      rcases hm with ⟨rfl, hm⟩ | ⟨rfl, hm⟩
      · constructor <;> rcases hm with hm | hm <;> linarith
      · push_cast
        constructor <;> rcases hm with hm | hm <;> linarith
    linarith
  · have hq23 : q = 2 ^ 23 := by omega
    subst hq23
    have hXeq : X = 2 ^ 149 := le_antisymm hX (by norm_num at hlo ⊢; linarith)
    rcases hm with ⟨rfl, -⟩ | ⟨-, hm | ⟨hm, -⟩⟩
    · rw [hXeq]; norm_num
    · rw [hXeq] at hm; norm_num at hm
    · rw [hXeq] at hm; norm_num at hm
  · have h23 := hs.resolve_left (by omega)
    have : 2 ^ 23 * 2 ^ 127 ≤ q * 2 ^ s := Nat.mul_le_mul h23 (Nat.pow_le_pow_right two_pos hs')
    omega

theorem fxLeast_cast : (fxLeast : ℝ) = 2 ^ 491 := by
  simp only [fxLeast, Nat.cast_pow, Nat.cast_ofNat, ← pow_add]

theorem fxLeast_pos : 0 < fxLeast := by
  have : (0 : ℝ) < fxLeast := by rw [fxLeast_cast]; positivity
  exact_mod_cast this

theorem fxOne_eq_units : (fxOne : ℝ) = 2 ^ 149 * fxLeast := by
  rw [fxOne_cast, fxLeast_cast, ← pow_add]

/-- A ROM constant: the sign of the value, and the rounding of its absolute value. -/
theorem fxRound_eq (v : ℤ) :
    fxRound false v = packNum (decide (v < 0)) (roundMag v.natAbs fxLeast) := by
  unfold fxRound
  split
  · next h => rw [h]; rfl
  · rfl

/-- A fixed-point number of at most 1 is rounded to a finite Num within 2^-25. -/
theorem fxRound_error {v : ℤ} (hv : v.natAbs ≤ fxOne) :
    isFin (fxRound false v) = true ∧ |numReal (fxRound false v) - (v : ℝ) / fxOne| ≤ 1 / 2 ^ 25 := by
  have hL : (0 : ℝ) < fxLeast := by exact_mod_cast fxLeast_pos
  have hX : ((v.natAbs : ℕ) : ℝ) / fxLeast ≤ 2 ^ 149 := by
    rw [div_le_iff₀ hL, ← fxOne_eq_units]
    exact_mod_cast hv
  have hround := isRounding_roundMag v.natAbs fxLeast_pos
  have hfin : roundMag v.natAbs fxLeast < infMag :=
    lt_of_le_of_ne (roundMag_le _ _) fun hP => by
      have := hround.overflow_iff.mp hP
      norm_num at this hX
      linarith
  have hunits : inUnits (decide (v < 0)) ((v : ℝ) / fxOne) = (v.natAbs : ℝ) / fxLeast := by
    rw [fxOne_eq_units, ← div_div, inUnits_div_right, inUnits_int]
  rw [fxRound_eq]
  refine ⟨isFin_packNum _ hfin, ?_⟩
  rw [abs_sub_eq_inUnits (decide (v < 0)), inUnits_numReal_packNum _ (roundMag_lt _ _), hunits,
    div_le_iff₀ (by positivity)]
  exact (hround.abs_sub_le hX).trans_eq (by norm_num)

/-- A rounded fixed-point cosine is within 2^-24. -/
theorem IsCosine.fxRound {c : ℤ} {θ : ℝ} (h : IsCosine c θ) :
    isFin (fxRound false c) = true ∧ |numReal (fxRound false c) - Real.cos θ| ≤ 1 / 2 ^ 24 := by
  obtain ⟨hle, herr⟩ := h
  obtain ⟨hfin, hround⟩ := fxRound_error hle
  refine ⟨hfin, (abs_sub_le _ _ _).trans ((add_le_add hround herr).trans ?_)⟩
  norm_num

/-! ### The window -/

/-- The window in units of 2^-640: half of one less the cosine, between 0 and 1. -/
def fxWindow (c : ℤ) : ℤ := ((fxOne : ℤ) - c) / 2

theorem winConst_eq (n k : ℕ) : winConst n k = fxRound false (fxWindow (fxCosTurn k n)) := rfl

theorem fxWindow_bounds {c : ℤ} (h : c.natAbs ≤ fxOne) :
    0 ≤ fxWindow c ∧ (fxWindow c).natAbs ≤ fxOne := by
  unfold fxWindow
  omega

theorem fxWindow_error (c : ℤ) :
    |(fxWindow c : ℝ) / fxOne - (1 / 2 - (c : ℝ) / fxOne / 2)| ≤ 1 / fxOne := by
  have hU := fxOne_cast_pos
  have hlo : ((fxOne : ℤ) - c : ℝ) - 2 ≤ 2 * fxWindow c := by
    have : (fxOne : ℤ) - c - 2 ≤ 2 * fxWindow c := by unfold fxWindow; omega
    exact_mod_cast this
  have hhi : (2 * fxWindow c : ℝ) ≤ (fxOne : ℤ) - c := by
    have : 2 * fxWindow c ≤ (fxOne : ℤ) - c := by unfold fxWindow; omega
    exact_mod_cast this
  have heq : (fxWindow c : ℝ) / fxOne - (1 / 2 - (c : ℝ) / fxOne / 2) =
      (2 * fxWindow c - ((fxOne : ℤ) - c)) / 2 / fxOne := by
    push_cast
    field_simp
  rw [heq, abs_div, abs_of_pos hU]
  gcongr
  rw [abs_le]
  constructor <;> linarith

/-- The window of a fixed-point cosine, rounded, is within 2^-24. -/
theorem IsCosine.fxRound_fxWindow {c : ℤ} {θ : ℝ} (h : IsCosine c θ) :
    isFin (Machine.fxRound false (fxWindow c)) = true ∧
      |numReal (Machine.fxRound false (fxWindow c)) - (1 / 2 - Real.cos θ / 2)| ≤ 1 / 2 ^ 24 := by
  obtain ⟨hle, herr⟩ := h
  obtain ⟨hfin, hround⟩ := fxRound_error (fxWindow_bounds hle).2
  refine ⟨hfin, ?_⟩
  have hwin := (fxWindow_error c).trans unit_le
  rw [abs_le] at *
  constructor <;> norm_num at * <;> linarith

/-! ### The ROM elements -/

theorem twConst_even (n j : ℕ) : twConst n (2 * j) = fxRound false (fxCosTurn j n) := by
  rw [twConst, if_pos (by omega), Nat.mul_div_cancel_left _ two_pos]

theorem twConst_odd (n j : ℕ) : twConst n (2 * j + 1) = fxRound false (fxSinTurn j n) := by
  rw [twConst, if_neg (by omega), show (2 * j + 1) / 2 = j by omega]

/-- Settles O60: the fixed-point cosine is far closer than 2^-25, and rounding to a Num adds at most
2^-25. -/
theorem romElementsAreAccurate : Obligations.RomElementsAreAccurate := by
  intro p _ _
  have hn : 0 < 2 ^ p := Nat.two_pow_pos p
  have hcast : ((2 ^ p : ℕ) : ℝ) = 2 ^ p := by push_cast; rfl
  refine ⟨fun k hk => ?_, fun j hj => ?_⟩
  · rw [winConst_eq, ← hcast]
    exact (isCosine_fxCosTurn hn hk.le).fxRound_fxWindow
  · have hcos := (isCosine_fxCosTurn (k := j) hn (by omega)).fxRound
    have hsin := (isCosine_fxSinTurn (k := j) hn (by omega)).fxRound
    rw [Real.cos_sub_pi_div_two] at hsin
    rw [twConst_even, twConst_odd, ← hcast]
    exact ⟨hcos.1, hsin.1, hcos.2, hsin.2⟩

end Sys2Proof.Machine
end

section
/-! PROOFS. The landmarks of the ROMs, where the fixed-point cosine is exact (10_state.md R37, R38). -/

namespace Sys2Proof.Machine

/-! ### The exact values of the fixed-point cosine -/

theorem fxSeries_zero (d : ℕ → ℕ) (fuel j : ℕ) : fxSeries 0 d fuel j = fxOne := by
  cases fuel with
  | zero => rfl
  | succ fuel => rw [fxSeries, Nat.zero_mul, Nat.zero_div, Nat.sub_zero]

theorem fxCos_zero : fxCos 0 = fxOne := by
  rw [fxCos, Nat.zero_mul, Nat.zero_div, fxSeries_zero]

theorem fxSin_zero : fxSin 0 = 0 := by
  rw [fxSin, Nat.zero_mul, Nat.zero_div]

theorem fxCosQuarter_zero (n : ℕ) : fxCosQuarter 0 n = fxOne := by
  rw [fxCosQuarter, if_pos (Nat.zero_le n), Nat.mul_zero, Nat.zero_div, fxCos_zero]

theorem fxCosQuarter_quarter {k n : ℕ} (hn : 0 < n) (hk : 4 * k = n) : fxCosQuarter k n = 0 := by
  rw [fxCosQuarter, if_neg (by omega), hk, Nat.sub_self, Nat.mul_zero, Nat.zero_div, fxSin_zero]

theorem fxCosTurn_zero (n : ℕ) : fxCosTurn 0 n = fxOne := by
  rw [fxCosTurn, if_pos (Nat.zero_le n), fxCosHalf, if_pos (Nat.zero_le n), fxCosQuarter_zero]

theorem fxCosTurn_quarter {k n : ℕ} (hn : 0 < n) (hk : 4 * k = n) : fxCosTurn k n = 0 := by
  rw [fxCosTurn, if_pos (by omega), fxCosHalf, if_pos (by omega), fxCosQuarter_quarter hn hk]
  rfl

theorem fxCosTurn_half {k n : ℕ} (hn : 0 < n) (hk : 2 * k = n) : fxCosTurn k n = -(fxOne : ℤ) := by
  rw [fxCosTurn, if_pos (by omega), fxCosHalf, if_neg (by omega), hk, Nat.sub_self, fxCosQuarter_zero]

/-- The second half of the turn mirrors the first. -/
theorem fxCosTurn_mirror {k n : ℕ} (hk : k ≤ n) : fxCosTurn (n - k) n = fxCosTurn k n := by
  unfold fxCosTurn
  rcases Nat.lt_trichotomy (2 * k) n with h | h | h
  · rw [if_neg (by omega), if_pos (by omega), Nat.sub_sub_self hk]
  · simp only [show n - k = k by omega]
  · rw [if_pos (by omega), if_neg (by omega)]

theorem fxSinTurn_zero {n : ℕ} (hn : 0 < n) : fxSinTurn 0 n = 0 := by
  rw [fxSinTurn, fxCosTurn_quarter (by omega) (by omega)]

theorem fxSinTurn_quarter {k n : ℕ} (hk : 4 * k = n) : fxSinTurn k n = fxOne := by
  rw [fxSinTurn, hk, Nat.sub_self, fxCosTurn_zero]

/-! ### Their roundings -/

theorem fxRound_zero : fxRound false 0 = 0x00000000#32 := by decide

theorem fxRound_fxOne : fxRound false fxOne = 0x3F800000#32 := by decide

theorem fxRound_fxWindow_fxOne : fxRound false (fxWindow fxOne) = 0x00000000#32 := by decide

theorem fxRound_fxWindow_zero : fxRound false (fxWindow 0) = 0x3F000000#32 := by decide

theorem fxRound_fxWindow_neg_fxOne : fxRound false (fxWindow (-fxOne)) = 0x3F800000#32 := by decide

/-- A window element lies between 0 and 1. -/
theorem fxRound_fxWindow_range {c : ℤ} (h : c.natAbs ≤ fxOne) :
    isFin (fxRound false (fxWindow c)) = true ∧ 0 ≤ numReal (fxRound false (fxWindow c)) ∧
      numReal (fxRound false (fxWindow c)) ≤ 1 := by
  obtain ⟨hpos, hle⟩ := fxWindow_bounds h
  obtain ⟨hfin, habs⟩ := fxRound_bounded (zneg := false) (c := numOne) (by decide)
    (numReal_numOne ▸ zero_le_one) (hle.trans fxOne_le)
  rw [numReal_numOne] at habs
  refine ⟨hfin, ?_, (le_abs_self _).trans habs⟩
  rw [fxRound_eq, decide_eq_false (not_lt.mpr hpos), numReal_packNum false (roundMag_lt _ _),
    if_neg Bool.false_ne_true]
  positivity

/-- Settles O59: each landmark is an exact value of the cosine, rounded. -/
theorem romLandmarks : Obligations.RomLandmarks := by
  intro p hp _
  have hn : 0 < 2 ^ p := Nat.two_pow_pos p
  have hhalf : 2 * (2 ^ p / 2) = 2 ^ p :=
    Nat.mul_div_cancel' (dvd_pow_self 2 (by omega : p ≠ 0))
  have hquarter : 2 ≤ p → 4 * (2 ^ p / 4) = 2 ^ p := fun h2 =>
    Nat.mul_div_cancel' (pow_dvd_pow 2 h2)
  generalize 2 ^ p = n at hn hhalf hquarter
  have hmid : 2 ≤ p → 2 * (n / 4) = n / 2 := fun h2 => by have := hquarter h2; omega
  refine ⟨?_, ?_, fun h2 => ⟨?_, ?_⟩, fun k _ hk => ?_, fun k hk => ?_, ?_, ?_, fun h2 => ⟨?_, ?_⟩⟩
  · rw [winConst_eq, fxCosTurn_zero, fxRound_fxWindow_fxOne]
  · rw [winConst_eq, fxCosTurn_half hn hhalf, fxRound_fxWindow_neg_fxOne]
  · rw [winConst_eq, fxCosTurn_quarter hn (hquarter h2), fxRound_fxWindow_zero]
  · have h4 := hquarter h2
    rw [winConst_eq, show 3 * (n / 4) = n - n / 4 by omega, fxCosTurn_mirror (by omega),
      fxCosTurn_quarter hn h4, fxRound_fxWindow_zero]
  · rw [winConst_eq, winConst_eq, fxCosTurn_mirror hk.le]
  · rw [winConst_eq]
    exact fxRound_fxWindow_range (isCosine_fxCosTurn hn hk.le).1
  · rw [← Nat.mul_zero 2, twConst_even, fxCosTurn_zero, fxRound_fxOne]
  · rw [← Nat.zero_add 1, ← Nat.mul_zero 2, twConst_odd, fxSinTurn_zero hn, fxRound_zero]
  · rw [← hmid h2, twConst_even, fxCosTurn_quarter hn (hquarter h2), fxRound_zero]
  · rw [← hmid h2, twConst_odd, fxSinTurn_quarter (hquarter h2), fxRound_fxOne]

end Sys2Proof.Machine
end

section
/-! PROOFS. What a command can do, said once: an error, or the completion of its row. -/

namespace Sys2Proof.Machine

/-! ### How a command ends -/

theorem raise_eq_errorState (e : Err) (s : State) : raise e s = .next (errorState e s) := by
  cases e <;> rfl

theorem respond_eq_okState (v : Word) (s : State) : respond v s = .next (okState v s) := rfl

theorem errorState_eq (e : Err) (s : State) :
    errorState e s = { setSticky e s with resp := some ⟨errCode e, 0#32⟩ } := by
  cases e <;> rfl

theorem next_inj {s t : State} (h : (.next s : Result) = .next t) : s = t := by cases h; rfl

/-- `Completes i s v u`: in the state `s` the command `i` completes with the read data `v`; `u` is the state
it leaves, but for the response. -/
inductive Completes : Instr → State → Word → State → Prop
  | nop (s) : Completes .nop s 0#32 s
  | reset (s) : Completes .reset s 0#32 (resetKeepingHost s)
  | config {s p} (hlegal : configLegal Config.log2nMax p.toNat s = true) :
      Completes (.config p) s 0#32 (configure p s)
  | osamp {s v} (hlegal : legalOsamp v.toNat (osampExponent s) = true) :
      Completes (.wrreg 2#24 v) s 0#32 { s with osamp := v.extractLsb' 0 6 }
  | srate {s v} (hlegal : legalPos v = true) : Completes (.wrreg 3#24 v) s 0#32 { s with srate := v }
  | ratio {s v} (hlegal : legalPos v = true) : Completes (.wrreg 4#24 v) s 0#32 { s with ratio := v }
  | rdreg (s reg) : Completes (.rdreg reg) s (regValue s reg.toNat) s
  | wrmem {s sel idx v m} (hsel : memOfSel sel = some m) (hc : s.cfgd = true)
      (hidx : idx.toNat < depth s m) (hram : isRom m = false) :
      Completes (.wrmem sel idx v) s 0#32 (memWrite s m idx.toNat v)
  | rdmem {s sel idx m} (hsel : memOfSel sel = some m) (hc : s.cfgd = true)
      (hidx : idx.toNat < depth s m) : Completes (.rdmem sel idx) s (memRead s m idx.toNat) s
  | fft {s p dir} (hc : s.cfgd = true) (hp : p.toNat ≤ s.log2n.toNat) :
      Completes (.fft p dir) s 0#32 (transform Config.numerics p.toNat dir s)
  | push {s v} (hc : s.cfgd = true) :
      Completes (.push v) s (s.outfifo.read (outIndex s)) (pushSample Config.numerics v s)
  | analyze {s} (hc : s.cfgd = true) : Completes .analyze s 0#32 (analyze Config.numerics s)
  | remap {s} (hc : s.cfgd = true) : Completes .remap s 0#32 (remap Config.numerics s)
  | synth {s} (hc : s.cfgd = true) : Completes .synth s 0#32 (synthesize Config.numerics s)
  | ola {s} (hc : s.cfgd = true) : Completes .ola s 0#32 (overlapAdd Config.numerics s)
  | cycle {s} (hc : s.cfgd = true) :
      Completes .cycle s 0#32 { cycle Config.numerics s with cyc := true }
  | clrerr (s) : Completes .clrerr s 0#32 (clearSticky s)

/-- A command ends with an error, or completes. -/
def Ends (i : Instr) (s t : State) : Prop :=
  (∃ e, t = errorState e s) ∨ ∃ v u, Completes i s v u ∧ t = okState v u

theorem ends_raise {i : Instr} {e : Err} {s t : State} (h : raise e s = .next t) : Ends i s t :=
  .inl ⟨e, next_inj (h.symm.trans (raise_eq_errorState e s))⟩

theorem ends_respond {i : Instr} {s t u : State} {v : Word} (hc : Completes i s v u)
    (h : respond v u = .next t) : Ends i s t := .inr ⟨v, u, hc, next_inj h.symm⟩

theorem ends_ifConfigured {i : Instr} {s t : State} {r : Result} (h : ifConfigured s r = .next t)
    (hr : s.cfgd = true → r = .next t → Ends i s t) : Ends i s t := by
  cases hc : s.cfgd with
  | true => exact hr hc (by rwa [ifConfigured_of_cfgd hc] at h)
  | false => exact ends_raise (by rwa [ifConfigured_of_not hc] at h)

/-- A command that needs memories and can fail in no other way. -/
theorem ends_stage {i : Instr} {s t u : State} {v : Word} (hc : s.cfgd = true → Completes i s v u)
    (h : ifConfigured s (respond v u) = .next t) : Ends i s t :=
  ends_ifConfigured h fun hcfgd => ends_respond (hc hcfgd)

theorem ends_ite {i : Instr} {s t : State} {c : Prop} [Decidable c] {r r' : Result}
    (h : (if c then r else r') = .next t) (hr : c → r = .next t → Ends i s t)
    (hr' : ¬ c → r' = .next t → Ends i s t) : Ends i s t := by
  split at h
  · next hc => exact hr hc h
  · next hc => exact hr' hc h

theorem ends_execWrreg {reg : BitVec 24} {v : Word} {s t : State} (h : execWrreg reg v s = .next t) :
    Ends (.wrreg reg v) s t := by
  have hreg : ∀ n : Nat, reg.toNat = n → n < 2 ^ 24 → reg = BitVec.ofNat 24 n := fun n hn hlt =>
    BitVec.eq_of_toNat_eq (by rw [hn, BitVec.toNat_ofNat, Nat.mod_eq_of_lt hlt])
  unfold execWrreg at h
  split at h
  case h_3 hn =>
    obtain rfl := hreg 2 hn (by decide)
    exact ends_ite h (fun hl => ends_respond (.osamp hl)) fun _ => ends_raise
  case h_4 hn =>
    obtain rfl := hreg 3 hn (by decide)
    exact ends_ite h (fun hl => ends_respond (.srate hl)) fun _ => ends_raise
  case h_5 hn =>
    obtain rfl := hreg 4 hn (by decide)
    exact ends_ite h (fun hl => ends_respond (.ratio hl)) fun _ => ends_raise
  all_goals exact ends_raise h

theorem ends_execRdmem {sel : BitVec 4} {idx : BitVec 24} {s t : State}
    (h : execRdmem sel idx s = .next t) : Ends (.rdmem sel idx) s t := by
  unfold execRdmem at h
  cases hsel : memOfSel sel with
  | none => rw [hsel] at h; exact ends_raise h
  | some m =>
    rw [hsel] at h
    exact ends_ifConfigured h fun hc h => ends_ite h (fun _ => ends_raise) fun hidx =>
      ends_respond (.rdmem hsel hc (by omega))

theorem ends_execWrmem {sel : BitVec 4} {idx : BitVec 24} {v : Word} {s t : State}
    (h : execWrmem sel idx v s = .next t) : Ends (.wrmem sel idx v) s t := by
  unfold execWrmem at h
  cases hsel : memOfSel sel with
  | none => rw [hsel] at h; exact ends_raise h
  | some m =>
    rw [hsel] at h
    exact ends_ifConfigured h fun hc h => ends_ite h (fun _ => ends_raise) fun hidx h =>
      ends_ite h (fun _ => ends_raise) fun hram =>
        ends_respond (.wrmem hsel hc (by omega) (Bool.eq_false_iff.mpr hram))

/-- All that a command can do. -/
theorem exec_ends {i : Instr} {s t : State} (h : exec i s = .next t) : Ends i s t := by
  cases i with
  | nop => exact ends_respond (.nop s) h
  | reset => exact ends_respond (.reset s) h
  | config p => exact ends_ite h (fun hl => ends_respond (.config hl)) fun _ => ends_raise
  | wrreg reg v => exact ends_execWrreg h
  | rdreg reg => exact ends_ite h (fun _ => ends_raise) fun _ => ends_respond (.rdreg s reg)
  | wrmem sel idx v => exact ends_execWrmem h
  | rdmem sel idx => exact ends_execRdmem h
  | fft p dir =>
    exact ends_ifConfigured h fun hc h => ends_ite h (fun _ => ends_raise) fun hp =>
      ends_respond (.fft hc (by omega))
  | push v => exact ends_stage .push h
  | analyze => exact ends_stage .analyze h
  | remap => exact ends_stage .remap h
  | synth => exact ends_stage .synth h
  | ola => exact ends_stage .ola h
  | cycle => exact ends_stage .cycle h
  | clrerr => exact ends_respond (.clrerr s) h

/-- What an error leaves and what the completion leaves, the command leaves. -/
theorem Ends.elim {P : State → Prop} {i : Instr} {s t : State} (h : Ends i s t)
    (herr : ∀ e, P (errorState e s)) (hok : ∀ v u, Completes i s v u → P (okState v u)) : P t := by
  rcases h with ⟨e, rfl⟩ | ⟨v, u, hc, rfl⟩
  · exact herr e
  · exact hok v u hc

/-! ### What the end of a command leaves unchanged -/

@[simp] theorem mem_okState (v : Word) (s : State) (m : MemId) : (okState v s).mem m = s.mem m :=
  mem_withResp s m _

@[simp] theorem mem_errorState (e : Err) (s : State) (m : MemId) : (errorState e s).mem m = s.mem m := by
  rw [errorState_eq, mem_withResp, mem_setSticky]

@[simp] theorem registersOf_okState (v : Word) (s : State) :
    registersOf (okState v s) = registersOf s := rfl

theorem registersOf_errorState (e : Err) (s : State) :
    registersOf (errorState e s) = registersOf (setSticky e s) := by
  rw [errorState_eq]; rfl

end Sys2Proof.Machine
end

section
/-! PROOFS. The stages as sequences of writes below the depths of the memories they may change
(10_state.md R30; 20_memory.md R61, R64). -/

namespace Sys2Proof.Machine

/-- `t` is reached from `s` by writes into memories of the set `A`, each below the memory's depth for the
frame size `n`. -/
inductive Writes (n : Nat) (A : MemId → Bool) (s : State) : State → Prop
  | refl : Writes n A s s
  | write {t : State} {m : MemId} {i : Nat} (v : Num) (h : Writes n A s t) (hA : A m = true)
      (hi : i < depthFor n m) : Writes n A s (memWrite t m i v)

/-! ### What such writes keep -/

@[simp] theorem registersOf_setMem (s : State) (m : MemId) (x : Memory) :
    registersOf (s.setMem m x) = registersOf s := by cases m <;> rfl

theorem mem_memWrite (s : State) (m m' : MemId) (i : Nat) (v : Num) :
    (memWrite s m i v).mem m' = if m = m' then (s.mem m).write i v else s.mem m' :=
  mem_setMem s m m' _

section Kept
variable {n : Nat} {A : MemId → Bool} {s t u : State}

theorem Writes.trans (h : Writes n A s t) (h' : Writes n A t u) : Writes n A s u := by
  induction h' with
  | refl => exact h
  | write v _ hA hi ih => exact .write v ih hA hi

theorem Writes.mono {B : MemId → Bool} (h : Writes n A s t) (hAB : ∀ m, A m = true → B m = true) :
    Writes n B s t := by
  induction h with
  | refl => exact .refl
  | write v _ hA hi ih => exact .write v ih (hAB _ hA) hi

theorem Writes.registersOf_eq (h : Writes n A s t) : registersOf t = registersOf s := by
  induction h with
  | refl => rfl
  | write v _ _ _ ih => rw [memWrite, registersOf_setMem, ih]

theorem Writes.resp_eq (h : Writes n A s t) : t.resp = s.resp := by
  induction h with
  | refl => rfl
  | write v _ _ _ ih => rw [memWrite, setMem_resp, ih]

theorem Writes.mem_eq (h : Writes n A s t) {m : MemId} (hm : A m = false) : t.mem m = s.mem m := by
  induction h with
  | refl => rfl
  | write v _ hA _ ih =>
    rw [mem_memWrite, if_neg (by rintro rfl; simp [hm] at hA), ih]

/-- The writes keep the canonical form and the depths. -/
theorem Writes.canonical (h : Writes n A s t)
    (hs : ∀ m, (s.mem m).wf = true ∧ (s.mem m).within (depthFor n m) = true) (m : MemId) :
    (t.mem m).wf = true ∧ (t.mem m).within (depthFor n m) = true := by
  induction h with
  | refl => exact hs m
  | @write t m' i v _ _ hi ih =>
    rw [mem_memWrite]
    split
    · next hm =>
      subst hm
      exact ⟨Memory.wf_write i v ih.1, Memory.within_write v hi ih.2⟩
    · exact ih

theorem Writes.frameSize_eq (h : Writes n A s t) : frameSize t = frameSize s :=
  congrArg (fun r => 2 ^ r.log2n.toNat) h.registersOf_eq

/-- Two stages one after the other. -/
theorem Writes.andThen {B : MemId → Bool} (h : Writes (frameSize s) A s t)
    (h' : Writes (frameSize t) B t u) (hBA : ∀ m, B m = true → A m = true) :
    Writes (frameSize s) A s u := by
  rw [h.frameSize_eq] at h'
  exact h.trans (h'.mono hBA)

end Kept

/-! ### Destinations of the remapper -/

/-- A power of two converts exactly. -/
theorem numVal_numOfNat_two_pow {p : Nat} (h : p ≤ 127) :
    numVal (numOfNat (2 ^ p)) = (2 ^ p : Nat) * 2 ^ 149 := by
  have hround := magOf_roundMag_exact (m := 2 ^ 23) (s := 126 + p) (den := 1) (by decide) (by decide)
    (.inr le_rfl) (by unfold infMag; omega)
  rw [Nat.mul_one, show 2 ^ 23 * 2 ^ (126 + p) = 2 ^ p * 2 ^ 149 by
    rw [← Nat.pow_add, ← Nat.pow_add]; congr 1; omega] at hround
  rw [numVal_of_not_sign (numSign_numOfNat _), numOfNat, numMag_packNum _ (roundMag_lt _ _), hround]
  push_cast
  rfl

/-- No source bin goes beyond `N/2` (43_remapper.md R182). -/
theorem destBin_le_half {nm : Numerics} {ratio : Num} {p k d : Nat} (hp : p ≤ 127)
    (h : destBin nm ratio (2 ^ p / 2) k = some d) : d ≤ 2 ^ p / 2 := by
  have hhalf : numVal (numOfNat (2 ^ p / 2)) = (2 ^ p / 2 : Nat) * 2 ^ 149 := by
    cases p with
    | zero => exact numVal_numOfNat (by decide)
    | succ p => rw [Nat.pow_succ, Nat.mul_div_cancel _ two_pos]; exact numVal_numOfNat_two_pow (by omega)
  unfold destBin at h
  split at h
  · next hle =>
    obtain rfl := Option.some.inj h
    unfold numLe at hle
    simp only [Bool.and_eq_true, decide_eq_true_eq] at hle
    have hval := hle.2
    rw [hhalf] at hval
    unfold numFloorInt
    generalize 2 ^ p / 2 = half at hval ⊢
    omega
  · cases h

/-! ### The stages -/

/-- A cycle may write what one of its stages may write. -/
theorem mayWrite_cycle_of_stage {i : Instr} (hi : i ∈ [Instr.analyze, .remap, .synth, .ola]) (m : MemId) :
    mayWrite i m = true → mayWrite .cycle m = true := by
  revert i
  cases m <;> decide

theorem subset_of_ws {A : MemId → Bool} (h : A .ws = true) (m : MemId) (hm : (m == .ws) = true) :
    A m = true := by
  rwa [beq_iff_eq.mp hm]

section Stages
variable (nm : Numerics) (s : State)

/-- A transform of at most the frame. -/
theorem transform_writes {p : Nat} (hp : p ≤ s.log2n.toNat) (dir : Dir) :
    Writes (frameSize s) (· == .ws) s (transform nm p dir s) := by
  have hpow : 2 * 2 ^ p ≤ depthFor (frameSize s) .ws :=
    Nat.mul_le_mul_left 2 (Nat.pow_le_pow_right two_pos hp)
  exact network_keeps (P := fun x => Writes (frameSize s) (· == .ws) s { s with ws := x }) .refl
    fun _ _ v hi h => h.write v rfl (lt_of_lt_of_le hi hpow)

theorem windowFrame_writes : Writes (frameSize s) (· == .ws) s (windowFrame nm s) :=
  loop_keeps _ 0 (frameSize s) s .refl fun k t _ hk h =>
    (h.write (m := .ws) (i := 2 * k) (numMul nm (t.infifo.read k) (t.win.read k)) rfl
      (by simp only [depthFor]; omega)).write (m := .ws) (i := 2 * k + 1) numZero rfl
        (by simp only [depthFor]; omega)

/-- What `Analyze` may change (42_analyzer.md R161). -/
theorem analyze_writes : Writes (frameSize s) (mayWrite .analyze) s (analyze nm s) := by
  have hfft := transform_writes nm (windowFrame nm s) (p := s.log2n.toNat)
    (le_of_eq (by rw [windowFrame_eq])) .fwd
  have hpre := ((windowFrame_writes nm s).mono (subset_of_ws (A := mayWrite .analyze) rfl)).andThen
    hfft (subset_of_ws rfl)
  have hpos := frameSize_pos s
  unfold analyze analyzeBins
  rw [hpre.frameSize_eq]
  exact loop_keeps _ 0 (frameSize s / 2 + 1) _ hpre fun k _ _ hk h =>
    ((h.write (m := .lastph) _ rfl (by simp only [depthFor]; omega)).write (m := .anamag) _ rfl
      (by simp only [depthFor]; omega)).write (m := .anafrq) _ rfl (by simp only [depthFor]; omega)

theorem clearSynthesis_writes : Writes (frameSize s) (mayWrite .remap) s (clearSynthesis s) :=
  loop_keeps _ 0 (frameSize s) s .refl fun k _ _ hk h =>
    (h.write (m := .synmag) (i := k) numZero rfl (by simp only [depthFor]; omega)).write
      (m := .synfrq) (i := k) numZero rfl (by simp only [depthFor]; omega)

/-- What `Remap` may change (43_remapper.md R181). -/
theorem remap_writes : Writes (frameSize s) (mayWrite .remap) s (remap nm s) := by
  refine loop_keeps _ 0 (frameSize s / 2 + 1) _ (clearSynthesis_writes s) fun k t _ _ h => ?_
  unfold remapBin
  rw [h.frameSize_eq]
  cases hd : destBin nm t.ratio (frameSize s / 2) k with
  | none => exact h
  | some d =>
    have hpos := frameSize_pos s
    have hle : d ≤ frameSize s / 2 := destBin_le_half (by have := s.log2n.isLt; omega) hd
    exact (h.write (m := .synmag) _ rfl (by simp only [depthFor]; omega)).write (m := .synfrq) _ rfl
      (by simp only [depthFor]; omega)

/-- What `Synth` may change (44_synth_ola.md R190). -/
theorem synthesize_writes : Writes (frameSize s) (mayWrite .synth) s (synthesize nm s) := by
  have hpos := frameSize_pos s
  have hbins : Writes (frameSize s) (mayWrite .synth) s
      (loop (synthBin nm) 0 (frameSize s / 2 + 1) s) :=
    loop_keeps _ 0 (frameSize s / 2 + 1) s .refl fun k _ _ hk h =>
      ((h.write (m := .sumph) _ rfl (by simp only [depthFor]; omega)).write (m := .ws) _ rfl
        (by simp only [depthFor]; omega)).write (m := .ws) _ rfl (by simp only [depthFor]; omega)
  have hzero : Writes (frameSize s) (mayWrite .synth) s
      (zeroMirror (loop (synthBin nm) 0 (frameSize s / 2 + 1) s)) := by
    unfold zeroMirror
    rw [hbins.frameSize_eq]
    exact loop_keeps _ (frameSize s + 2) _ _ hbins fun k _ _ hk h =>
      h.write (m := .ws) _ rfl (by simp only [depthFor]; omega)
  have hfft := transform_writes nm (zeroMirror (loop (synthBin nm) 0 (frameSize s / 2 + 1) s))
    (p := s.log2n.toNat) (le_of_eq (by rw [zeroMirror_eq, synthBins_eq])) .inv
  exact hzero.andThen hfft (subset_of_ws rfl)

theorem olaAccumulate_writes : Writes (frameSize s) (mayWrite .ola) s (olaAccumulate nm s) :=
  loop_keeps _ 0 (frameSize s) s .refl fun k t _ hk h =>
    h.write (m := .acc) (i := k) (numAdd nm (t.acc.read k) (olaContribution nm t k)) rfl
      (by simp only [depthFor]; omega)

theorem olaEmit_writes : Writes (frameSize s) (mayWrite .ola) s (olaEmit s) :=
  loop_keeps _ 0 (hopSize s) s .refl fun k t _ hk h =>
    h.write (m := .outfifo) (i := k) (t.acc.read k) rfl
      (by have := hopSize_le s; simp only [depthFor]; omega)

theorem olaShiftAcc_writes : Writes (frameSize s) (mayWrite .ola) s (olaShiftAcc s) := by
  have hhop := hopSize_le s
  refine loop_keeps _ _ (hopSize s) _ (loop_keeps _ 0 _ s .refl fun i t _ hi h => ?_)
    fun i t _ hi h => ?_
  · exact h.write (m := .acc) (i := i) (t.acc.read (i + hopSize s)) rfl
      (by simp only [depthFor]; omega)
  · exact h.write (m := .acc) (i := i) numZero rfl (by simp only [depthFor]; omega)

theorem olaShiftInput_writes : Writes (frameSize s) (mayWrite .ola) s (olaShiftInput s) :=
  loop_keeps _ 0 (latency s) s .refl fun k t _ hk h =>
    h.write (m := .infifo) (i := k) (t.infifo.read (k + hopSize s)) rfl
      (by have := latency_le s; simp only [depthFor]; omega)

/-- What `Ola` may change (44_synth_ola.md R195). -/
theorem overlapAdd_writes : Writes (frameSize s) (mayWrite .ola) s (overlapAdd nm s) :=
  (((olaAccumulate_writes nm s).andThen (olaEmit_writes _) fun _ => id).andThen (olaShiftAcc_writes _)
    fun _ => id).andThen (olaShiftInput_writes _) fun _ => id

/-- What a cycle may change: the RAMs (41_stream_driver.md R141). -/
theorem cycle_writes : Writes (frameSize s) (mayWrite .cycle) s (cycle nm s) :=
  ((((analyze_writes nm s).mono (mayWrite_cycle_of_stage (by decide))).andThen (remap_writes nm _)
    (mayWrite_cycle_of_stage (by decide))).andThen (synthesize_writes nm _)
    (mayWrite_cycle_of_stage (by decide))).andThen (overlapAdd_writes nm _)
    (mayWrite_cycle_of_stage (by decide))

end Stages

end Sys2Proof.Machine
end

section
/-! PROOFS. The invariant of an engine, and where the cursor stands (10_state.md R26, R27, R41). -/

namespace Sys2Proof.Machine

/-! ### The hop under a legal oversampling factor -/

theorem legalOsamp_iff {v p : Nat} :
    legalOsamp v p = true ↔ v ∈ [1, 2, 4, 8, 16, 32] ∧ v ≤ 2 ^ p := by
  unfold legalOsamp
  rw [Bool.and_eq_true, List.contains_iff_mem, decide_eq_true_iff]

theorem hop_pos_of_legalOsamp {v p : Nat} (h : legalOsamp v p = true) : 0 < 2 ^ p / v := by
  obtain ⟨hv, hle⟩ := legalOsamp_iff.mp h
  refine Nat.div_pos hle (Nat.pos_of_ne_zero ?_)
  rintro rfl
  exact absurd hv (by decide)

theorem hopSize_pos {s : State} (h : legalOsamp s.osamp.toNat s.log2n.toNat = true) : 0 < hopSize s :=
  hop_pos_of_legalOsamp h

theorem latency_lt {s : State} (h : legalOsamp s.osamp.toNat s.log2n.toNat = true) :
    latency s < frameSize s := Nat.sub_lt (frameSize_pos s) (hopSize_pos h)

/-- A legal factor fits the six bits of OSAMP. -/
theorem osamp_bits_toNat {v : Word} {p : Nat} (h : legalOsamp v.toNat p = true) :
    (v.extractLsb' 0 6).toNat = v.toNat := by
  have hle : v.toNat ≤ 32 := by
    have hv := (legalOsamp_iff.mp h).1
    simp only [List.mem_cons, List.not_mem_nil, or_false] at hv
    omega
  rw [BitVec.extractLsb'_toNat, Nat.shiftRight_zero]
  exact Nat.mod_eq_of_lt (by omega)

/-! ### States of the same setup -/

/-- `registersOf`, read field by field. -/
structure SameRegisters (s u : State) : Prop where
  cfgd : u.cfgd = s.cfgd
  cyc : u.cyc = s.cyc
  log2n : u.log2n = s.log2n
  osamp : u.osamp = s.osamp
  srate : u.srate = s.srate
  ratio : u.ratio = s.ratio
  rover : u.rover = s.rover
  sticky : ∀ e, stickyFlag e u = stickyFlag e s

theorem sameRegisters_of_registersOf_eq {s u : State} (h : registersOf u = registersOf s) :
    SameRegisters s u := by
  simp only [registersOf, State.mk.injEq] at h
  constructor
  case sticky => intro e; cases e <;> simp only [stickyFlag, h]
  all_goals simp only [h]

/-- The parameters of `u` and its ROMs are those of `s`. -/
structure SameSetup (s u : State) : Prop where
  cfgd : u.cfgd = s.cfgd
  log2n : u.log2n = s.log2n
  osamp : u.osamp = s.osamp
  srate : u.srate = s.srate
  ratio : u.ratio = s.ratio
  win : u.win = s.win
  tw : u.tw = s.tw

section Setup
variable {s t u : State}

theorem SameSetup.trans (h : SameSetup s t) (h' : SameSetup t u) : SameSetup s u :=
  ⟨h'.cfgd.trans h.cfgd, h'.log2n.trans h.log2n, h'.osamp.trans h.osamp, h'.srate.trans h.srate,
    h'.ratio.trans h.ratio, h'.win.trans h.win, h'.tw.trans h.tw⟩

/-- Writes into RAMs keep the setup. -/
theorem Writes.sameSetup {n : Nat} {A : MemId → Bool} (h : Writes n A s u)
    (hA : ∀ m, isRom m = true → A m = false) : SameSetup s u :=
  have hr := sameRegisters_of_registersOf_eq h.registersOf_eq
  ⟨hr.cfgd, hr.log2n, hr.osamp, hr.srate, hr.ratio, h.mem_eq (m := .win) (hA _ rfl),
    h.mem_eq (m := .tw) (hA _ rfl)⟩

theorem mayWrite_cycle_rom (m : MemId) (h : isRom m = true) : mayWrite .cycle m = false := by
  simp only [mayWrite, h, Bool.not_true]

theorem cycle_sameSetup (nm : Numerics) (s : State) : SameSetup s (cycle nm s) :=
  (cycle_writes nm s).sameSetup mayWrite_cycle_rom

theorem cycle_rover (nm : Numerics) (s : State) : (cycle nm s).rover = s.rover :=
  (sameRegisters_of_registersOf_eq (cycle_writes nm s).registersOf_eq).rover

/-- PUSH stores the sample and then advances the cursor inside a hop, or ends the hop with a cycle
(41_stream_driver.md R143). -/
theorem pushSample_cases (nm : Numerics) (v : Word) (s : State) :
    (s.rover.toNat + 1 < frameSize s ∧ pushSample nm v s =
        { memWrite s .infifo s.rover.toNat v with
          rover := BitVec.ofNat 32 (s.rover.toNat + 1), cyc := false }) ∨
      (frameSize s ≤ s.rover.toNat + 1 ∧ pushSample nm v s =
        { cycle nm { memWrite s .infifo s.rover.toNat v with
            rover := BitVec.ofNat 32 (latency s) } with cyc := true }) := by
  unfold pushSample
  dsimp only
  split
  · next h => exact .inr ⟨h, rfl⟩
  · next h => exact .inl ⟨by omega, rfl⟩

theorem pushSample_sameSetup (nm : Numerics) (v : Word) (s : State) :
    SameSetup s (pushSample nm v s) := by
  rcases pushSample_cases nm v s with ⟨-, h⟩ | ⟨-, h⟩
  · rw [h]
    exact ⟨rfl, rfl, rfl, rfl, rfl, rfl, rfl⟩
  · rw [h]
    have hc := cycle_sameSetup nm
      { memWrite s .infifo s.rover.toNat v with rover := BitVec.ofNat 32 (latency s) }
    exact ⟨hc.cfgd, hc.log2n, hc.osamp, hc.srate, hc.ratio, hc.win, hc.tw⟩

theorem errorState_sameSetup (e : Err) (s : State) : SameSetup s (errorState e s) := by
  cases e <;> exact ⟨rfl, rfl, rfl, rfl, rfl, rfl, rfl⟩

end Setup

/-! ### The invariant -/

@[simp] theorem mem_withRegisters (s : State) (o : BitVec 6) (f a : Num) (r : BitVec 32) (c : Bool)
    (m : MemId) :
    ({ s with osamp := o, srate := f, ratio := a, rover := r, cyc := c } : State).mem m = s.mem m := by
  cases m <;> rfl

/-- A state whose setup is that of a state that meets the invariant meets it too, if its memories are
canonical, its cursor lies in the frame and its response is legal. -/
theorem Inv.of_sameSetup {s u : State} (h : Inv s) (hset : SameSetup s u)
    (hmems : ∀ m, (u.mem m).wf = true ∧ (u.mem m).within (depth s m) = true)
    (hunconf : s.cfgd = false → u.rover = s.rover ∧ u.cyc = s.cyc)
    (hrover : s.cfgd = true → u.rover.toNat < frameSize s)
    (hresp : ∀ r, u.resp = some r → r.code.toNat ≤ 6 ∧ (r.code ≠ okCode → r.rdata = 0#32)) :
    Inv u := by
  have hsize : frameSize u = frameSize s := (derived_congr hset.log2n hset.osamp).1
  constructor
  case mems =>
    intro m
    rw [show depth u m = depth s m by unfold depth; rw [hsize, hset.cfgd]]
    exact hmems m
  case unconf =>
    intro hc
    rw [hset.cfgd] at hc
    obtain ⟨hr, hcyc⟩ := hunconf hc
    rw [hr, hcyc, hset.log2n]
    exact h.unconf hc
  case frame =>
    intro hc
    rw [hset.cfgd] at hc
    obtain ⟨h1, h2, h3, h4, -⟩ := h.frame hc
    rw [hsize, hset.log2n, hset.osamp, hset.srate]
    exact ⟨h1, h2, h3, h4, hrover hc⟩
  case roms =>
    intro hc
    rw [hset.cfgd] at hc
    rw [hsize, hset.win, hset.tw]
    exact h.roms hc
  case osampLegal => rw [hset.osamp]; exact h.osampLegal
  case srateLegal => rw [hset.srate]; exact h.srateLegal
  case ratioLegal => rw [hset.ratio]; exact h.ratioLegal
  case respLegal => exact hresp

theorem Inv.rover_lt {s : State} (h : Inv s) (hc : s.cfgd = true) : s.rover.toNat < frameSize s := by
  obtain ⟨-, -, -, -, hr⟩ := h.frame hc
  exact hr

theorem Inv.legalOsamp {s : State} (h : Inv s) (hc : s.cfgd = true) :
    legalOsamp s.osamp.toNat s.log2n.toNat = true := by
  obtain ⟨-, -, ho, -, -⟩ := h.frame hc
  exact ho

theorem depth_of_cfgd {s : State} (hc : s.cfgd = true) (m : MemId) :
    depth s m = depthFor (frameSize s) m := by
  rw [depth, if_pos hc]

/-- The end of a command keeps the invariant. -/
theorem Inv.okState {s : State} (h : Inv s) (v : Word) : Inv (okState v s) :=
  h.of_sameSetup ⟨rfl, rfl, rfl, rfl, rfl, rfl, rfl⟩ (fun m => by rw [mem_okState]; exact h.mems m)
    (fun _ => ⟨rfl, rfl⟩) h.rover_lt fun r hr => by
      obtain rfl : ⟨0#4, v⟩ = r := Option.some.inj hr
      exact ⟨(by decide : okCode.toNat ≤ 6), fun hne => absurd rfl hne⟩

theorem Inv.errorState {s : State} (h : Inv s) (e : Err) : Inv (errorState e s) :=
  h.of_sameSetup (errorState_sameSetup e s) (fun m => by rw [mem_errorState]; exact h.mems m)
    (fun _ => by rw [errorState_eq]; exact ⟨setSticky_rover s e, setSticky_cyc s e⟩)
    (fun hc => by rw [errorState_eq]; exact (setSticky_rover s e).symm ▸ h.rover_lt hc)
    fun r hr => by
      rw [errorState_eq] at hr
      obtain rfl : ⟨errCode e, 0#32⟩ = r := Option.some.inj hr
      exact ⟨errCode_le e, fun _ => rfl⟩

theorem Inv.withHost {s : State} (h : Inv s) (hs : List HostEvent) : Inv { s with host := hs } :=
  h.of_sameSetup ⟨rfl, rfl, rfl, rfl, rfl, rfl, rfl⟩ (fun m => by rw [mem_withHost]; exact h.mems m)
    (fun _ => ⟨rfl, rfl⟩) h.rover_lt h.respLegal

/-- Writes into RAMs of a configured engine keep the invariant. -/
theorem Inv.writes {s u : State} {A : MemId → Bool} (h : Inv s) (hc : s.cfgd = true)
    (hw : Writes (frameSize s) A s u) (hA : ∀ m, isRom m = true → A m = false) : Inv u := by
  have hmems : ∀ m, (s.mem m).wf = true ∧ (s.mem m).within (depthFor (frameSize s) m) = true :=
    fun m => depth_of_cfgd hc m ▸ h.mems m
  have hrover := (sameRegisters_of_registersOf_eq hw.registersOf_eq).rover
  exact h.of_sameSetup (hw.sameSetup hA)
    (fun m => (depth_of_cfgd hc m).symm ▸ hw.canonical hmems m)
    (fun hn => by rw [hc] at hn; cases hn) (fun _ => hrover ▸ h.rover_lt hc)
    (hw.resp_eq ▸ h.respLegal)

/-- The cursor and CYC of a configured engine may move inside the frame. -/
theorem Inv.withCursor {s : State} (h : Inv s) (hc : s.cfgd = true) {r : BitVec 32}
    (hr : r.toNat < frameSize s) (c : Bool) : Inv { s with rover := r, cyc := c } :=
  h.of_sameSetup ⟨rfl, rfl, rfl, rfl, rfl, rfl, rfl⟩
    (fun m => by rw [mem_withRegisters]; exact h.mems m)
    (fun hn => by rw [hc] at hn; cases hn) (fun _ => hr) h.respLegal

theorem Inv.cycle {s : State} (nm : Numerics) (h : Inv s) (hc : s.cfgd = true) : Inv (cycle nm s) :=
  h.writes hc (cycle_writes nm s) mayWrite_cycle_rom

theorem ofNat_toNat_lt {a b : Nat} (h : a < b) : (BitVec.ofNat 32 a).toNat < b :=
  lt_of_le_of_lt (by rw [BitVec.toNat_ofNat]; exact Nat.mod_le _ _) h

theorem Inv.pushSample {s : State} (nm : Numerics) (v : Word) (h : Inv s) (hc : s.cfgd = true) :
    Inv (pushSample nm v s) := by
  have hw : Inv (memWrite s .infifo s.rover.toNat v) :=
    h.writes (A := mayWrite .cycle) hc (.write v .refl rfl (h.rover_lt hc)) mayWrite_cycle_rom
  rcases pushSample_cases nm v s with ⟨hr, heq⟩ | ⟨-, heq⟩ <;> rw [heq]
  · exact hw.withCursor hc (ofNat_toNat_lt hr) false
  · have hlat := hw.withCursor hc (ofNat_toNat_lt (latency_lt (h.legalOsamp hc))) s.cyc
    have hcyc := hlat.cycle nm hc
    exact hcyc.withCursor ((cycle_sameSetup nm _).cfgd.trans hc)
      (hcyc.rover_lt ((cycle_sameSetup nm _).cfgd.trans hc)) true

/-- Settles O45. -/
theorem invAtReset : Obligations.InvAtReset where
  mems m := by cases m <;> decide
  unconf _ := ⟨rfl, rfl, rfl⟩
  frame h := by cases h
  roms h := by cases h
  osampLegal := .inl rfl
  srateLegal := .inl rfl
  ratioLegal := by decide
  respLegal _ h := by cases h

theorem configLegal_iff {pmax p : Nat} {s : State} : configLegal pmax p s = true ↔
    legalOsamp s.osamp.toNat p = true ∧ legalPos s.srate = true ∧ 1 ≤ p ∧ p ≤ pmax := by
  unfold configLegal
  simp only [Bool.and_eq_true, decide_eq_true_eq, and_assoc]

/-- CONFIG establishes the invariant (45_system.md R213; 10_state.md R41). -/
theorem Inv.configure {s : State} {p : BitVec 5} (h : Inv s)
    (hlegal : configLegal Config.log2nMax p.toNat s = true) : Inv (configure p s) := by
  obtain ⟨hosamp, hsrate, hp1, hp2⟩ := configLegal_iff.mp hlegal
  constructor
  case mems =>
    intro m
    cases m
    case win => exact ⟨wf_tabulate _ _, within_tabulate _ _⟩
    case tw => exact ⟨wf_tabulate _ _, within_tabulate _ _⟩
    all_goals exact ⟨rfl, rfl⟩
  case unconf => intro hc; cases hc
  case frame =>
    exact fun _ => ⟨hp1, hp2, hosamp, hsrate,
      ofNat_toNat_lt (Nat.sub_lt (Nat.two_pow_pos _) (hop_pos_of_legalOsamp hosamp))⟩
  case roms => exact fun _ => ⟨rfl, rfl⟩
  case osampLegal => exact h.osampLegal
  case srateLegal => exact .inr hsrate
  case ratioLegal => exact h.ratioLegal
  case respLegal => exact h.respLegal

/-- A legal write to OSAMP keeps the invariant (45_system.md R215). -/
theorem Inv.writeOsamp {s : State} {v : Word} (h : Inv s)
    (hlegal : Machine.legalOsamp v.toNat (osampExponent s) = true) :
    Inv { s with osamp := v.extractLsb' 0 6 } := by
  have hbits := osamp_bits_toNat hlegal
  obtain ⟨hmem, -⟩ := legalOsamp_iff.mp hlegal
  have h31 : v.toNat ≤ 2 ^ 31 := by
    simp only [List.mem_cons, List.not_mem_nil, or_false] at hmem
    omega
  refine ⟨fun m => ?_, h.unconf, fun hc => ?_, h.roms, .inr ?_, h.srateLegal, h.ratioLegal, h.respLegal⟩
  · rw [mem_withRegisters]; exact h.mems m
  · obtain ⟨h1, h2, -, h4, h5⟩ := h.frame hc
    refine ⟨h1, h2, ?_, h4, h5⟩
    rwa [osampExponent, if_pos hc, ← hbits] at hlegal
  · rw [hbits]
    exact legalOsamp_iff.mpr ⟨hmem, h31⟩

theorem Inv.writeSrate {s : State} {v : Word} (h : Inv s) (hlegal : legalPos v = true) :
    Inv { s with srate := v } := by
  refine ⟨fun m => ?_, h.unconf, fun hc => ?_, h.roms, h.osampLegal, .inr hlegal, h.ratioLegal,
    h.respLegal⟩
  · rw [mem_withRegisters]; exact h.mems m
  · obtain ⟨h1, h2, h3, -, h5⟩ := h.frame hc
    exact ⟨h1, h2, h3, hlegal, h5⟩

theorem Inv.writeRatio {s : State} {v : Word} (h : Inv s) (hlegal : legalPos v = true) :
    Inv { s with ratio := v } := by
  refine ⟨fun m => ?_, h.unconf, h.frame, h.roms, h.osampLegal, h.srateLegal, hlegal, h.respLegal⟩
  rw [mem_withRegisters]
  exact h.mems m

/-- Every command that completes keeps the invariant. -/
theorem Completes.inv {i : Instr} {s u : State} {v : Word} (hi : Completes i s v u) (h : Inv s) :
    Inv u := by
  cases hi with
  | nop => exact h
  | reset => exact invAtReset.withHost s.host
  | config hlegal => exact h.configure hlegal
  | osamp hlegal => exact h.writeOsamp hlegal
  | srate hlegal => exact h.writeSrate hlegal
  | ratio hlegal => exact h.writeRatio hlegal
  | rdreg => exact h
  | wrmem _ hc hidx hram =>
    rw [depth_of_cfgd hc] at hidx
    exact h.writes (A := (! isRom ·)) hc (.write _ .refl (by rw [hram]; rfl) hidx) fun _ hm => by simp [hm]
  | rdmem => exact h
  | fft hc hp => exact h.writes hc (transform_writes _ s hp _) (by intro m; cases m <;> decide)
  | push hc => exact h.pushSample _ _ hc
  | analyze hc => exact h.writes hc (analyze_writes _ s) (by intro m; cases m <;> decide)
  | remap hc => exact h.writes hc (remap_writes _ s) (by intro m; cases m <;> decide)
  | synth hc => exact h.writes hc (synthesize_writes _ s) (by intro m; cases m <;> decide)
  | ola hc => exact h.writes hc (overlapAdd_writes _ s) (by intro m; cases m <;> decide)
  | cycle hc =>
    have hcyc := h.cycle Config.numerics hc
    exact hcyc.withCursor ((cycle_sameSetup _ s).cfgd.trans hc)
      (hcyc.rover_lt ((cycle_sameSetup _ s).cfgd.trans hc)) true
  | clrerr =>
    exact h.of_sameSetup ⟨rfl, rfl, rfl, rfl, rfl, rfl, rfl⟩
      (fun m => by rw [mem_clearSticky]; exact h.mems m) (fun _ => ⟨rfl, rfl⟩) h.rover_lt h.respLegal

theorem Inv.exec {i : Instr} {s t : State} (h : Inv s) (he : exec i s = .next t) : Inv t :=
  (exec_ends he).elim h.errorState fun v _ hi => (hi.inv h).okState v

/-- Settles O46: by the host's next act, and for a request by what its command can do. -/
theorem invKeptByStep : Obligations.InvKeptByStep := by
  intro s t h hstep
  unfold step at hstep
  cases htake : takeEvent s with
  | none =>
    rw [htake] at hstep
    exact next_inj hstep ▸ h
  | some et =>
    obtain ⟨ev, s'⟩ := et
    obtain ⟨rest, -, rfl⟩ := takeEvent_some htake
    rw [htake] at hstep
    have h' := h.withHost rest
    cases ev with
    | request cmd d =>
      dsimp only at hstep
      cases hdec : decode cmd d with
      | ok i => rw [hdec] at hstep; exact h'.exec hstep
      | error e =>
        rw [hdec] at hstep
        exact next_inj ((raise_eq_errorState _ _).symm.trans hstep) ▸ h'.errorState .illegal
    | hardReset => exact next_inj hstep ▸ invAtReset.withHost rest
    | violation => cases hstep

/-! ### The cursor inside the hop -/

theorem SameSetup.latency_eq {s u : State} (h : SameSetup s u) : latency u = latency s :=
  (derived_congr h.log2n h.osamp).2.2

/-- PUSH keeps the cursor at or above `L`: it advances it, or puts it back to `L`. -/
theorem latency_le_rover_pushSample {s : State} (nm : Numerics) (v : Word) (h : Inv s)
    (hc : s.cfgd = true) (hl : latency s ≤ s.rover.toNat) :
    latency (pushSample nm v s) ≤ (pushSample nm v s).rover.toNat := by
  have hsize : frameSize s ≤ 2 ^ 13 := by
    obtain ⟨-, hmax, -⟩ := h.frame hc
    exact Nat.pow_le_pow_right two_pos hmax
  have hlat := latency_le s
  rw [(pushSample_sameSetup nm v s).latency_eq]
  rcases pushSample_cases nm v s with ⟨hr, heq⟩ | ⟨-, heq⟩ <;> rw [heq]
  · dsimp only
    rw [BitVec.toNat_ofNat, Nat.mod_eq_of_lt (by omega)]
    omega
  · dsimp only
    rw [cycle_rover, BitVec.toNat_ofNat, Nat.mod_eq_of_lt (by omega)]

/-- Writes into memories leave the cursor where it is. -/
theorem Writes.latency_le_rover {n : Nat} {A : MemId → Bool} {s u : State} (h : Writes n A s u)
    (hl : latency s ≤ s.rover.toNat) : latency u ≤ u.rover.toNat := by
  have hr := sameRegisters_of_registersOf_eq h.registersOf_eq
  have hlat : latency u = latency s := (derived_congr hr.log2n hr.osamp).2.2
  rwa [hlat, hr.rover]

theorem Completes.latency_le_rover {i : Instr} {s u : State} {v : Word} (hi : Completes i s v u)
    (h : Inv s) (hosamp : ∀ w : Word, i ≠ .wrreg 2#24 w) (hl : s.cfgd = true → latency s ≤ s.rover.toNat)
    (hc : u.cfgd = true) : latency u ≤ u.rover.toNat := by
  cases hi with
  | nop => exact hl hc
  | reset => cases hc
  | @config _ p hlegal =>
    have hsize : 2 ^ p.toNat < 2 ^ 32 := Nat.pow_lt_pow_right (by decide) p.isLt
    show 2 ^ p.toNat - 2 ^ p.toNat / s.osamp.toNat ≤ (BitVec.ofNat 32 _).toNat
    rw [BitVec.toNat_ofNat, Nat.mod_eq_of_lt (lt_of_le_of_lt (Nat.sub_le _ _) hsize)]
  | osamp => exact absurd rfl (hosamp _)
  | srate => exact hl hc
  | ratio => exact hl hc
  | rdreg => exact hl hc
  | wrmem _ hcs hidx hram =>
    rw [depth_of_cfgd hcs] at hidx
    exact (Writes.write (A := fun _ => true) _ .refl rfl hidx).latency_le_rover (hl hcs)
  | rdmem => exact hl hc
  | fft hcs hp => exact (transform_writes _ s hp _).latency_le_rover (hl hcs)
  | push hcs => exact latency_le_rover_pushSample _ _ h hcs (hl hcs)
  | analyze hcs => exact (analyze_writes _ s).latency_le_rover (hl hcs)
  | remap hcs => exact (remap_writes _ s).latency_le_rover (hl hcs)
  | synth hcs => exact (synthesize_writes _ s).latency_le_rover (hl hcs)
  | ola hcs => exact (overlapAdd_writes _ s).latency_le_rover (hl hcs)
  | cycle hcs => exact (cycle_writes _ s).latency_le_rover (hl hcs)
  | clrerr => exact hl hc

/-- Settles O44: the upper bound is the invariant's, the lower one is kept by every command. -/
theorem roverStaysInHop : Obligations.RoverStaysInHop := by
  intro s t i h hl hosamp he hc
  refine ⟨?_, (h.exec he).rover_lt hc⟩
  rcases exec_ends he with ⟨e, rfl⟩ | ⟨v, u, hi, rfl⟩
  · rw [(errorState_sameSetup e s).latency_eq]
    rw [(errorState_sameSetup e s).cfgd] at hc
    rw [errorState_eq]
    simpa using hl hc
  · exact hi.latency_le_rover h hosamp hl hc

end Sys2Proof.Machine
end

section
/-! PROOFS. Which command changes which memory, register and flag (10_state.md R23, R26, R27, R30). -/

namespace Sys2Proof.Machine

/-! ### Memories -/

theorem mem_pushSample (nm : Numerics) (v : Word) (s : State) {m : MemId} (hm : isRom m = true) :
    (pushSample nm v s).mem m = s.mem m := by
  have hne : MemId.infifo ≠ m := by rintro rfl; cases hm
  have hcycle : mayWrite .cycle m = false := mayWrite_cycle_rom m hm
  rcases pushSample_cases nm v s with ⟨-, h⟩ | ⟨-, h⟩ <;> rw [h, mem_withRegisters]
  · rw [mem_memWrite, if_neg hne]
  · rw [(cycle_writes nm _).mem_eq hcycle, mem_withRegisters, mem_memWrite, if_neg hne]

/-- A command that completes leaves a memory outside its row of R30 as it was. -/
theorem Completes.mem_eq {i : Instr} {s u : State} {v : Word} (hi : Completes i s v u) {m : MemId}
    (hm : mayWrite i m = false) : u.mem m = s.mem m := by
  cases hi with
  | nop => rfl
  | reset => cases hm
  | config => cases hm
  | osamp => exact mem_withRegisters s _ _ _ _ _ m
  | srate => exact mem_withRegisters s _ _ _ _ _ m
  | ratio => exact mem_withRegisters s _ _ _ _ _ m
  | rdreg => rfl
  | wrmem hsel _ _ hram =>
    rw [mem_memWrite, if_neg]
    rintro rfl
    simp [mayWrite, hsel, hram] at hm
  | rdmem => rfl
  | fft _ hp => exact (transform_writes _ s hp _).mem_eq hm
  | push => exact mem_pushSample _ _ s (by simpa [mayWrite] using hm)
  | analyze => exact (analyze_writes _ s).mem_eq hm
  | remap => exact (remap_writes _ s).mem_eq hm
  | synth => exact (synthesize_writes _ s).mem_eq hm
  | ola => exact (overlapAdd_writes _ s).mem_eq hm
  | cycle => rw [mem_withRegisters]; exact (cycle_writes _ s).mem_eq hm
  | clrerr => exact mem_clearSticky s m

/-- Settles O51. -/
theorem memoryWriters : Obligations.MemoryWriters := by
  intro i m s t hm he
  exact (exec_ends he).elim (P := fun t => t.mem m = s.mem m) (fun e => mem_errorState e s m)
    fun v u hi => (mem_okState v u m).trans (hi.mem_eq hm)

/-! ### Registers and flags -/

/-- `i` changes from `s` to `t` only registers and flags that it may change. -/
structure OwnRegistersOnly (i : Instr) (s t : State) : Prop where
  frame : (∀ p, i ≠ .config p) → t.log2n = s.log2n ∧ t.cfgd = s.cfgd
  rover : (∀ p, i ≠ .config p) → (∀ v, i ≠ .push v) → t.rover = s.rover
  cyc : (∀ p, i ≠ .config p) → (∀ v, i ≠ .push v) → i ≠ .cycle → t.cyc = s.cyc
  osamp : (∀ v, i ≠ .wrreg 2#24 v) → t.osamp = s.osamp
  srate : (∀ v, i ≠ .wrreg 3#24 v) → t.srate = s.srate
  ratio : (∀ v, i ≠ .wrreg 4#24 v) → t.ratio = s.ratio
  sticky : i ≠ .clrerr → ∀ e, stickyFlag e s = true → stickyFlag e t = true

theorem SameRegisters.ownRegistersOnly {i : Instr} {s t : State} (h : SameRegisters s t) :
    OwnRegistersOnly i s t where
  frame _ := ⟨h.log2n, h.cfgd⟩
  rover _ _ := h.rover
  cyc _ _ _ := h.cyc
  osamp _ := h.osamp
  srate _ := h.srate
  ratio _ := h.ratio
  sticky _ e he := (h.sticky e).trans he

theorem Writes.sameRegisters {n : Nat} {A : MemId → Bool} {s t : State} (h : Writes n A s t) :
    SameRegisters s t := sameRegisters_of_registersOf_eq h.registersOf_eq

@[simp] theorem stickyFlag_withCursor (e : Err) (s : State) (r : BitVec 32) (c : Bool) :
    stickyFlag e { s with rover := r, cyc := c } = stickyFlag e s := by cases e <;> rfl

theorem stickyFlag_pushSample (nm : Numerics) (v : Word) (s : State) (e : Err) :
    stickyFlag e (pushSample nm v s) = stickyFlag e s := by
  have hstore := (sameRegisters_of_registersOf_eq
    (registersOf_setMem s .infifo (s.infifo.write s.rover.toNat v))).sticky e
  rcases pushSample_cases nm v s with ⟨-, h⟩ | ⟨-, h⟩ <;> rw [h, stickyFlag_withCursor]
  · exact hstore
  · rw [(cycle_writes nm _).sameRegisters.sticky e, stickyFlag_withCursor]
    exact hstore

theorem Completes.ownRegistersOnly {i : Instr} {s u : State} {v : Word} (hi : Completes i s v u)
    (hreset : i ≠ .reset) : OwnRegistersOnly i s u := by
  have hsame : OwnRegistersOnly i s s := (sameRegisters_of_registersOf_eq rfl).ownRegistersOnly
  cases hi with
  | nop => exact hsame
  | reset => exact absurd rfl hreset
  | config =>
    exact ⟨fun h => absurd rfl (h _), fun h => absurd rfl (h _), fun h => absurd rfl (h _), fun _ => rfl,
      fun _ => rfl, fun _ => rfl, fun _ e he => by cases e <;> exact he⟩
  | osamp => exact { hsame with osamp := fun h => absurd rfl (h _) }
  | srate => exact { hsame with srate := fun h => absurd rfl (h _) }
  | ratio => exact { hsame with ratio := fun h => absurd rfl (h _) }
  | rdreg => exact hsame
  | wrmem => exact (sameRegisters_of_registersOf_eq (registersOf_setMem s _ _)).ownRegistersOnly
  | rdmem => exact hsame
  | fft _ hp => exact (transform_writes _ s hp _).sameRegisters.ownRegistersOnly
  | @push _ w =>
    have hset := pushSample_sameSetup Config.numerics w s
    exact ⟨fun _ => ⟨hset.log2n, hset.cfgd⟩, fun _ h => absurd rfl (h _), fun _ h => absurd rfl (h _),
      fun _ => hset.osamp, fun _ => hset.srate, fun _ => hset.ratio,
      fun _ e he => (stickyFlag_pushSample _ _ s e).trans he⟩
  | analyze => exact (analyze_writes _ s).sameRegisters.ownRegistersOnly
  | remap => exact (remap_writes _ s).sameRegisters.ownRegistersOnly
  | synth => exact (synthesize_writes _ s).sameRegisters.ownRegistersOnly
  | ola => exact (overlapAdd_writes _ s).sameRegisters.ownRegistersOnly
  | cycle =>
    have h := (cycle_writes Config.numerics s).sameRegisters.ownRegistersOnly (i := .cycle)
    exact { h with
      cyc := fun _ _ hne => absurd rfl hne
      sticky := fun hne e he => (stickyFlag_withCursor e _ _ true).trans (h.sticky hne e he) }
  | clrerr => exact { hsame with sticky := fun h => absurd rfl h }

/-- An error sets a flag and changes no other. -/
theorem errorState_ownRegistersOnly (i : Instr) (e : Err) (s : State) :
    OwnRegistersOnly i s (errorState e s) := by
  rw [errorState_eq]
  constructor
  case sticky =>
    intro _ e' he'
    show stickyFlag e' (setSticky e s) = true
    rw [stickyFlag_setSticky, he', Bool.or_true]
  all_goals simp

/-- Settles O52. -/
theorem registerWriters : Obligations.RegisterWriters := by
  intro i s t he hreset
  have h : OwnRegistersOnly i s t := (exec_ends he).elim (errorState_ownRegistersOnly i · s)
    fun v u hi => { hi.ownRegistersOnly hreset with }
  exact ⟨h.frame, h.rover, h.cyc, h.osamp, h.srate, h.ratio, h.sticky⟩

end Sys2Proof.Machine
end

section
/-! PROOFS. The reset state and the STATUS word (10_state.md R25, R40). -/

namespace Sys2Proof.Machine

/-! ### Commands on an unconfigured engine -/

theorem ifConfigured_errorState {s : State} (hc : s.cfgd = false) (r : Result) :
    ifConfigured s r = .next (errorState .unconf s) :=
  (ifConfigured_of_not hc r).trans (raise_eq_errorState .unconf s)

/-- An id of the memory table names a memory. -/
theorem exists_memOfSel {sel : BitVec 4} (h : decide (sel.toNat ≤ 11) = true) :
    ∃ m, memOfSel sel = some m :=
  Option.isSome_iff_exists.mp (memOfSel_isSome.trans h)

theorem execWrmem_unconf {sel : BitVec 4} {s : State} (hc : s.cfgd = false)
    (hsel : decide (sel.toNat ≤ 11) = true) (idx : BitVec 24) (v : Word) :
    execWrmem sel idx v s = .next (errorState .unconf s) := by
  obtain ⟨m, hm⟩ := exists_memOfSel hsel
  unfold execWrmem
  rw [hm]
  exact ifConfigured_errorState hc _

theorem execRdmem_unconf {sel : BitVec 4} {s : State} (hc : s.cfgd = false)
    (hsel : decide (sel.toNat ≤ 11) = true) (idx : BitVec 24) :
    execRdmem sel idx s = .next (errorState .unconf s) := by
  obtain ⟨m, hm⟩ := exists_memOfSel hsel
  unfold execRdmem
  rw [hm]
  exact ifConfigured_errorState hc _

/-- Every command that needs memories ends with E_UNCONF on an unconfigured engine. -/
theorem exec_unconf {s : State} {i : Instr} (hc : s.cfgd = false) (hwf : i.wf = true)
    (hi : i.mnemonic ∈ ["RDMEM", "WRMEM", "FFT", "PUSH", "ANALYZE", "REMAP", "SYNTH", "OLA", "CYCLE"]) :
    exec i s = .next (errorState .unconf s) := by
  cases i with
  | nop | reset | config | wrreg | rdreg | clrerr => simp [Instr.mnemonic] at hi
  | wrmem sel idx v => exact execWrmem_unconf hc hwf idx v
  | rdmem sel idx => exact execRdmem_unconf hc hwf idx
  | fft | push | analyze | remap | synth | ola | cycle => exact ifConfigured_errorState hc _

/-! ### The reset state -/

theorem depth_of_not_cfgd {s : State} (hc : s.cfgd = false) (m : MemId) : depth s m = 0 := by
  rw [depth, hc]; rfl

theorem step_hardReset (s : State) (rest : List HostEvent) :
    step { s with host := .hardReset :: rest } =
      .next { State.reset with host := rest, resp := State.reset.resp } := rfl

theorem exec_reset (s : State) :
    exec .reset s = .next { State.reset with host := s.host, resp := some ⟨0#4, 0#32⟩ } := rfl

/-- Settles O8: the three states are `State.reset` but for the host's list and the response. -/
theorem resetState : Obligations.ResetState := by
  refine ⟨fun s rest => ⟨_, _, step_hardReset s rest, exec_reset s, fun t ht => ?_⟩,
    fun t i hc hwf hi => exec_unconf hc hwf hi⟩
  have hreset : ∃ h r, t = { State.reset with host := h, resp := r } := by
    simp only [List.mem_cons, List.not_mem_nil, or_false] at ht
    rcases ht with rfl | rfl | rfl
    · exact ⟨[], none, rfl⟩
    · exact ⟨_, _, rfl⟩
    · exact ⟨_, _, rfl⟩
  obtain ⟨h, r, rfl⟩ := hreset
  exact ⟨rfl, rfl, rfl, rfl, rfl, rfl, rfl, rfl, rfl, rfl, rfl, rfl, rfl,
    fun m => ⟨depth_of_not_cfgd rfl m, by cases m <;> rfl⟩⟩

/-! ### STATUS -/

/-- The fields of STATUS in the order of their bits. -/
def statusFields (s : State) : List Bool :=
  [s.cfgd, s.cyc, false, false, false, false, false, false, s.fIllegal, s.fUnconf, s.fRange, s.fRo, s.fParam,
    s.fCfg]

theorem statusWord_getLsbD (s : State) (i : Nat) :
    (statusWord s).getLsbD i = (statusFields s).getD i false := by
  unfold statusWord flagBit statusFields
  simp only [BitVec.getLsbD_append, BitVec.getLsbD_ofBool, BitVec.getLsbD_zero]
  by_cases h : i < 14
  · interval_cases i <;> rfl
  · rw [List.getD_eq_default _ _ (Nat.le_of_not_lt h)]
    repeat rw [if_neg (by omega)]

theorem exec_rdreg_status (s : State) : exec (.rdreg 0#24) s = .next (okState (statusWord s) s) := rfl

theorem exec_rdreg_range {reg : BitVec 24} (h : 7 < reg.toNat) (s : State) :
    exec (.rdreg reg) s = .next (errorState .range s) := if_pos h

/-- Settles O13. -/
theorem statusBits : Obligations.StatusBits := by
  intro s
  refine ⟨⟨_, exec_rdreg_status s, ?_⟩, fun reg hreg =>
    ⟨_, _, exec_rdreg_range hreg s, exec_rdreg_status _, statusWord_getLsbD _ 10⟩⟩
  simp only [statusWord_getLsbD]
  refine ⟨rfl, rfl, rfl, rfl, rfl, rfl, rfl, rfl, fun i hi => ?_⟩
  rcases hi with ⟨h2, h7⟩ | h14
  · interval_cases i <;> rfl
  · exact List.getD_eq_default _ _ h14

end Sys2Proof.Machine
end

section
/-! PROOFS. The upper half of the accumulator stays +0.0 (10_state.md R34; 44_synth_ola.md R196, R198). -/

namespace Sys2Proof.Machine

/-- `ACC[N .. 2N-1]` is +0.0. -/
def UpperAccZero (s : State) : Prop :=
  ∀ k : Nat, frameSize s ≤ k → k < 2 * frameSize s → s.acc.read k = 0#32

theorem UpperAccZero.congr {s t : State} (h : UpperAccZero s) (hsize : frameSize t = frameSize s)
    (hacc : t.acc = s.acc) : UpperAccZero t := by
  unfold UpperAccZero
  rw [hsize, hacc]
  exact h

theorem Writes.upperAccZero {n : Nat} {A : MemId → Bool} {s t : State} (hw : Writes n A s t)
    (hA : A .acc = false) (h : UpperAccZero s) : UpperAccZero t :=
  h.congr (derived_congr hw.sameRegisters.log2n hw.sameRegisters.osamp).1 (hw.mem_eq (m := .acc) hA)

/-! ### OLA -/

/-- The contributions of a cycle go into the lower half. -/
theorem UpperAccZero.olaAccumulate {s : State} (nm : Numerics) (h : UpperAccZero s) :
    UpperAccZero (olaAccumulate nm s) := by
  rw [olaAccumulate_eq]
  intro k hk hk2
  refine loop_keeps (P := fun m : Memory => m.read k = 0#32) _ 0 (frameSize s) s.acc (h k hk hk2)
    fun i m _ hi hm => ?_
  have hne : k ≠ i := by
    change frameSize s ≤ k at hk
    omega
  rw [Memory.read_write_of_ne m _ hne]
  exact hm

/-- The shift moves elements of the upper half down and fills up with zeros. -/
theorem UpperAccZero.olaShiftAcc {s : State} (h : UpperAccZero s) : UpperAccZero (olaShiftAcc s) := by
  have hhop := hopSize_le s
  rw [olaShiftAcc_eq]
  intro k hk hk2
  change frameSize s ≤ k at hk
  change k < 2 * frameSize s at hk2
  rw [read_loop_write (fun _ => numZero)]
  split
  · rfl
  · rw [read_shiftDown, if_pos (by omega)]
    exact h _ (by omega) (by omega)

theorem acc_olaShiftInput (s : State) : (olaShiftInput s).acc = s.acc := by rw [olaShiftInput_eq]

theorem UpperAccZero.overlapAdd {s : State} (nm : Numerics) (h : UpperAccZero s) :
    UpperAccZero (overlapAdd nm s) := by
  have hemit : UpperAccZero (olaEmit (Machine.olaAccumulate nm s)) :=
    (h.olaAccumulate nm).congr (by rw [olaEmit_eq]; rfl) (by rw [olaEmit_eq])
  exact hemit.olaShiftAcc.congr (olaShiftInput_writes _).frameSize_eq
    (acc_olaShiftInput _)

/-! ### The commands -/

theorem UpperAccZero.cycle {s : State} (nm : Numerics) (h : UpperAccZero s) :
    UpperAccZero (cycle nm s) :=
  ((synthesize_writes nm _).upperAccZero rfl ((remap_writes nm _).upperAccZero rfl
    ((analyze_writes nm s).upperAccZero rfl h))).overlapAdd nm

theorem UpperAccZero.pushSample {s : State} (nm : Numerics) (v : Word) (h : UpperAccZero s) :
    UpperAccZero (pushSample nm v s) := by
  rcases pushSample_cases nm v s with ⟨-, heq⟩ | ⟨-, heq⟩ <;> rw [heq]
  · exact h.congr rfl rfl
  · have hstored : UpperAccZero { memWrite s .infifo s.rover.toNat v with
        rover := BitVec.ofNat 32 (latency s) } := h.congr rfl rfl
    exact (hstored.cycle nm).congr rfl rfl

theorem eq_of_memOfSel_acc {sel : BitVec 4} (h : memOfSel sel = some .acc) : sel = 3#4 := by
  revert sel
  decide

/-- WRMEM into the lower half of ACC. -/
theorem UpperAccZero.writeAcc {s : State} {i : Nat} (h : UpperAccZero s) (hi : i < frameSize s) (v : Num) :
    UpperAccZero (memWrite s .acc i v) := by
  intro k hk hk2
  have hne : k ≠ i := by
    change frameSize s ≤ k at hk
    omega
  exact (Memory.read_write_of_ne s.acc v hne).trans (h k hk hk2)

theorem Completes.upperAccZero {i : Instr} {s u : State} {v : Word} (hi : Completes i s v u)
    (hidx : ∀ (idx : BitVec 24) (v : Word), i = .wrmem 3#4 idx v → idx.toNat < frameSize s)
    (h : s.cfgd = true → UpperAccZero s) (hc : u.cfgd = true) : UpperAccZero u := by
  have hother : mayWrite i .acc = false → UpperAccZero u := by
    intro hacc
    have hreset : i ≠ .reset := by rintro rfl; cases hacc
    have hconfig : ∀ p, i ≠ .config p := by rintro p rfl; cases hacc
    obtain ⟨hlog, hcfgd⟩ := (hi.ownRegistersOnly hreset).frame hconfig
    exact (h (hcfgd ▸ hc)).congr (congrArg (fun p : BitVec 5 => 2 ^ p.toNat) hlog)
      (hi.mem_eq (m := .acc) hacc)
  cases hi with
  | nop | osamp | srate | ratio | rdreg | rdmem | fft | analyze | remap | synth | clrerr =>
    exact hother rfl
  | reset => cases hc
  | config => exact fun _ _ _ => rfl
  | @wrmem _ sel idx w m hsel hcs _ hram =>
    by_cases hm : m = .acc
    · subst hm
      exact (h hcs).writeAcc (hidx idx w (by rw [eq_of_memOfSel_acc hsel])) w
    · exact hother (by simp [mayWrite, hsel, hm])
  | push hcs => exact (h hcs).pushSample _ _
  | ola hcs => exact (h hcs).overlapAdd _
  | cycle hcs => exact ((h hcs).cycle _).congr rfl rfl

/-- Settles O36. -/
theorem upperAccumulatorStaysZero : Obligations.UpperAccumulatorStaysZero := by
  intro s t i hidx h he
  rcases exec_ends he with ⟨e, rfl⟩ | ⟨v, u, hi, rfl⟩
  · have hset := errorState_sameSetup e s
    intro hc
    exact (show UpperAccZero s from h (hset.cfgd ▸ hc)).congr (derived_congr hset.log2n hset.osamp).1
      (mem_errorState e s .acc)
  · exact fun hc => (hi.upperAccZero hidx h hc).congr rfl rfl

end Sys2Proof.Machine
end

section
/-! PROOFS. CYC and the sticky flags are read by RDREG STATUS only (10_state.md R23): every other command
does the same on a state whose flags are forgotten. -/

namespace Sys2Proof.Machine

/-- The state with CYC and the sticky flags cleared and without the host's list: what `sameButFlags`
compares. -/
def withoutFlags (s : State) : State := { clearSticky s with cyc := false, host := [] }

theorem sameButFlags_iff {s t : State} : sameButFlags s t ↔ withoutFlags s = withoutFlags t := Iff.rfl

/-! ### The stages do not see the flags -/

/-- A loop whose rounds do not see the flags does not see them. -/
theorem loop_withoutFlags {f : Nat → State → State} (lo n : Nat) (s : State)
    (h : ∀ k t, f k (withoutFlags t) = withoutFlags (f k t)) :
    loop f lo n (withoutFlags s) = withoutFlags (loop f lo n s) :=
  (loop_map f withoutFlags lo n s fun k t _ _ => (h k t).symm).symm

section Stages
variable (nm : Numerics) (s : State)

theorem windowFrame_withoutFlags : windowFrame nm (withoutFlags s) = withoutFlags (windowFrame nm s) :=
  loop_withoutFlags _ _ s fun _ _ => rfl

theorem analyzeBins_withoutFlags : analyzeBins nm (withoutFlags s) = withoutFlags (analyzeBins nm s) :=
  loop_withoutFlags _ _ s fun _ _ => rfl

theorem transform_withoutFlags (p : Nat) (dir : Dir) :
    transform nm p dir (withoutFlags s) = withoutFlags (transform nm p dir s) := rfl

theorem analyze_withoutFlags : analyze nm (withoutFlags s) = withoutFlags (analyze nm s) := by
  unfold analyze
  rw [windowFrame_withoutFlags, transform_withoutFlags, analyzeBins_withoutFlags]
  rfl

theorem remapBin_withoutFlags (k : Nat) :
    remapBin nm k (withoutFlags s) = withoutFlags (remapBin nm k s) := by
  change (destBin nm s.ratio (frameSize s / 2) k).elim _ _ = withoutFlags (Option.elim _ _ _)
  cases destBin nm s.ratio (frameSize s / 2) k <;> rfl

theorem remap_withoutFlags : remap nm (withoutFlags s) = withoutFlags (remap nm s) := by
  have hclear : clearSynthesis (withoutFlags s) = withoutFlags (clearSynthesis s) :=
    loop_withoutFlags _ _ s fun _ _ => rfl
  unfold remap
  rw [hclear]
  exact loop_withoutFlags _ _ _ fun k y => remapBin_withoutFlags nm y k

theorem zeroMirror_withoutFlags : zeroMirror (withoutFlags s) = withoutFlags (zeroMirror s) :=
  loop_withoutFlags _ _ s fun _ _ => rfl

theorem synthesize_withoutFlags : synthesize nm (withoutFlags s) = withoutFlags (synthesize nm s) := by
  have hbins : loop (synthBin nm) 0 (frameSize s / 2 + 1) (withoutFlags s) =
      withoutFlags (loop (synthBin nm) 0 (frameSize s / 2 + 1) s) :=
    loop_withoutFlags _ _ s fun _ _ => rfl
  unfold synthesize
  change transform nm _ .inv (zeroMirror (loop (synthBin nm) 0 (frameSize s / 2 + 1) _)) = _
  rw [hbins, zeroMirror_withoutFlags]
  rfl

theorem olaAccumulate_withoutFlags :
    olaAccumulate nm (withoutFlags s) = withoutFlags (olaAccumulate nm s) :=
  loop_withoutFlags _ _ s fun _ _ => rfl

theorem olaEmit_withoutFlags : olaEmit (withoutFlags s) = withoutFlags (olaEmit s) :=
  loop_withoutFlags _ _ s fun _ _ => rfl

theorem olaShiftAcc_withoutFlags : olaShiftAcc (withoutFlags s) = withoutFlags (olaShiftAcc s) := by
  rw [olaShiftAcc_eq, olaShiftAcc_eq]
  rfl

theorem olaShiftInput_withoutFlags : olaShiftInput (withoutFlags s) = withoutFlags (olaShiftInput s) :=
  loop_withoutFlags _ _ s fun _ _ => rfl

theorem overlapAdd_withoutFlags : overlapAdd nm (withoutFlags s) = withoutFlags (overlapAdd nm s) := by
  unfold overlapAdd
  rw [olaAccumulate_withoutFlags, olaEmit_withoutFlags, olaShiftAcc_withoutFlags,
    olaShiftInput_withoutFlags]

theorem cycle_withoutFlags : cycle nm (withoutFlags s) = withoutFlags (cycle nm s) := by
  unfold cycle
  rw [analyze_withoutFlags, remap_withoutFlags, synthesize_withoutFlags, overlapAdd_withoutFlags]

theorem pushSample_withoutFlags (v : Word) :
    withoutFlags (pushSample nm v (withoutFlags s)) = withoutFlags (pushSample nm v s) := by
  rcases pushSample_cases nm v s with ⟨h, heq⟩ | ⟨h, heq⟩
  · rcases pushSample_cases nm v (withoutFlags s) with ⟨-, heq'⟩ | ⟨h', -⟩
    · rw [heq, heq']; rfl
    · exact absurd h (Nat.not_lt.mpr h')
  · rcases pushSample_cases nm v (withoutFlags s) with ⟨h', -⟩ | ⟨-, heq'⟩
    · exact absurd h' (Nat.not_lt.mpr h)
    · rw [heq, heq']
      have hcycle := congrArg withoutFlags (cycle_withoutFlags nm
        { memWrite s .infifo s.rover.toNat v with rover := BitVec.ofNat 32 (latency s) })
      exact hcycle

end Stages

/-! ### The commands -/

/-- Two results that are next states alike but for the flags. -/
def AgreeButFlags (r r' : Result) : Prop :=
  ∃ t t', r = .next t ∧ r' = .next t' ∧ withoutFlags t = withoutFlags t'

section Agree
variable {s s' u u' : State} {r r' q q' : Result}

theorem agree_respond (h : withoutFlags u = withoutFlags u') (v : Word) :
    AgreeButFlags (respond v u) (respond v u') :=
  ⟨_, _, rfl, rfl, congrArg (fun t : State => { t with resp := some ⟨okCode, v⟩ }) h⟩

theorem agree_raise (e : Err) (s : State) : AgreeButFlags (raise e s) (raise e (withoutFlags s)) :=
  ⟨_, _, rfl, rfl, by cases e <;> rfl⟩

theorem agree_ite {c : Prop} [Decidable c] (h : AgreeButFlags r r') (h' : AgreeButFlags q q') :
    AgreeButFlags (if c then r else q) (if c then r' else q') := by
  split
  · exact h
  · exact h'

theorem agree_ifConfigured (h : AgreeButFlags r r') :
    AgreeButFlags (ifConfigured s r) (ifConfigured (withoutFlags s) r') :=
  agree_ite (c := s.cfgd = true) h (agree_raise .unconf s)

/-- A stage that commutes with forgetting the flags. -/
theorem agree_stage {F : State → State} (h : F (withoutFlags s) = withoutFlags (F s)) :
    AgreeButFlags (ifConfigured s (respond 0#32 (F s)))
      (ifConfigured (withoutFlags s) (respond 0#32 (F (withoutFlags s)))) :=
  agree_ifConfigured (agree_respond (by rw [h]; rfl) 0#32)

end Agree

/-- No register but STATUS holds a flag. -/
theorem regValue_withoutFlags {reg : Nat} (h : reg ≠ 0) (s : State) :
    regValue (withoutFlags s) reg = regValue s reg := by
  match reg, h with
  | 1, _ | 2, _ | 3, _ | 4, _ | 5, _ | 6, _ | 7, _ | _ + 8, _ => rfl

theorem agree_execRdreg {reg : BitVec 24} (h : reg ≠ 0#24) (s : State) :
    AgreeButFlags (execRdreg reg s) (execRdreg reg (withoutFlags s)) := by
  have hreg : reg.toNat ≠ 0 := fun h0 => h (BitVec.eq_of_toNat_eq h0)
  refine agree_ite (agree_raise .range s) ?_
  rw [regValue_withoutFlags hreg]
  exact agree_respond (by rfl) _

theorem agree_execWrreg (reg : BitVec 24) (v : Word) (s : State) :
    AgreeButFlags (execWrreg reg v s) (execWrreg reg v (withoutFlags s)) := by
  unfold execWrreg
  split
  case h_3 => exact agree_ite (agree_respond (by rfl) _) (agree_raise .param s)
  case h_4 => exact agree_ite (agree_respond (by rfl) _) (agree_raise .param s)
  case h_5 => exact agree_ite (agree_respond (by rfl) _) (agree_raise .param s)
  all_goals exact agree_raise _ s

theorem agree_execRdmem (sel : BitVec 4) (idx : BitVec 24) (s : State) :
    AgreeButFlags (execRdmem sel idx s) (execRdmem sel idx (withoutFlags s)) := by
  unfold execRdmem
  cases memOfSel sel with
  | none => exact agree_raise .illegal s
  | some m =>
    have hread : memRead (withoutFlags s) m idx.toNat = memRead s m idx.toNat := by cases m <;> rfl
    dsimp only
    rw [hread]
    exact agree_ifConfigured (agree_ite (agree_raise .range s) (agree_respond (by rfl) _))

theorem agree_execWrmem (sel : BitVec 4) (idx : BitVec 24) (v : Word) (s : State) :
    AgreeButFlags (execWrmem sel idx v s) (execWrmem sel idx v (withoutFlags s)) := by
  unfold execWrmem
  cases memOfSel sel with
  | none => exact agree_raise .illegal s
  | some m =>
    exact agree_ifConfigured (agree_ite (agree_raise .range s) (agree_ite (agree_raise .ro s)
      (agree_respond (by cases m <;> rfl) _)))

theorem agree_exec {i : Instr} (hi : i ≠ .rdreg 0#24) (s : State) :
    AgreeButFlags (exec i s) (exec i (withoutFlags s)) := by
  cases i with
  | nop => exact agree_respond (by rfl) _
  | reset => exact agree_respond (by rfl) _
  | config p => exact agree_ite (agree_respond (by rfl) _) (agree_raise .cfg s)
  | wrreg reg v => exact agree_execWrreg reg v s
  | rdreg reg => exact agree_execRdreg (fun h => hi (h ▸ rfl)) s
  | wrmem sel idx v => exact agree_execWrmem sel idx v s
  | rdmem sel idx => exact agree_execRdmem sel idx s
  | fft p dir => exact agree_ifConfigured (agree_ite (agree_raise .range s) (agree_respond (by rfl) _))
  | push v =>
    exact agree_ifConfigured (agree_respond (pushSample_withoutFlags Config.numerics s v).symm _)
  | analyze => exact agree_stage (analyze_withoutFlags _ s)
  | remap => exact agree_stage (remap_withoutFlags _ s)
  | synth => exact agree_stage (synthesize_withoutFlags _ s)
  | ola => exact agree_stage (overlapAdd_withoutFlags _ s)
  | cycle =>
    have hcyc : withoutFlags { cycle Config.numerics (withoutFlags s) with cyc := true } =
        withoutFlags { cycle Config.numerics s with cyc := true } := by
      rw [cycle_withoutFlags]
      rfl
    exact agree_ifConfigured (agree_respond hcyc.symm _)
  | clrerr => exact agree_respond (by rfl) _

/-- Settles O50: both runs do what the run without flags does. -/
theorem flagsAreNotRead : Obligations.FlagsAreNotRead := by
  intro i s s' t t' hi hs he he'
  obtain ⟨u, w, hu, hw, huw⟩ := agree_exec hi s
  obtain ⟨u', w', hu', hw', huw'⟩ := agree_exec hi s'
  obtain rfl := next_inj (he.symm.trans hu)
  obtain rfl := next_inj (he'.symm.trans hu')
  rw [sameButFlags_iff] at hs
  rw [hs] at hw
  obtain rfl := next_inj (hw.symm.trans hw')
  exact huw.trans huw'.symm

end Sys2Proof.Machine
end

section
/-! PROOFS. The transient memories WS, ANAMAG, ANAFRQ, SYNMAG and SYNFRQ are written before they are read in
every cycle (10_state.md R30; 70_reset_and_hazards.md R285, R286): two runs side by side. -/

namespace Sys2Proof.Machine

/-! ### Memories that read the same below a bound -/

def AgreeBelow (n : Nat) (m m' : Memory) : Prop := ∀ i, i < n → m.read i = m'.read i

section AgreeBelow
variable {n : Nat} {m m' : Memory}

theorem agreeBelow_zero (m m' : Memory) : AgreeBelow 0 m m' := fun _ hi => absurd hi (Nat.not_lt_zero _)

/-- Equal writes, at least where the bound reaches, keep the agreement. -/
theorem AgreeBelow.write (h : AgreeBelow n m m') {i : Nat} {v v' : Num} (hv : i < n → v = v') :
    AgreeBelow n (m.write i v) (m'.write i v') := by
  intro j hj
  rw [Memory.read_write, Memory.read_write]
  split
  · next hij => exact hv (hij ▸ hj)
  · exact h j hj

/-- A write at the bound moves the bound up. -/
theorem AgreeBelow.snoc (h : AgreeBelow n m m') {v v' : Num} (hv : v = v') :
    AgreeBelow (n + 1) (m.write n v) (m'.write n v') := by
  intro j hj
  rw [Memory.read_write, Memory.read_write]
  split
  · exact hv
  · exact h j (by omega)

theorem AgreeBelow.snocZero (h : AgreeBelow n m m') :
    AgreeBelow (n + 1) (m.write n numZero) (m'.write n numZero) := h.snoc rfl

/-- The two writes of a pair. -/
theorem AgreeBelow.snocPair {j : Nat} (h : AgreeBelow (2 * j) m m') {v v' w w' : Num} (hv : v = v')
    (hw : w = w') : AgreeBelow (2 * (j + 1)) ((m.write (2 * j) v).write (2 * j + 1) w)
      ((m'.write (2 * j) v').write (2 * j + 1) w') := (h.snoc hv).snoc hw

end AgreeBelow

/-- Two loops run side by side, the relation depending on the number of rounds. -/
theorem loop_rel_induct {α β : Type} {f : Nat → α → α} {g : Nat → β → β} {R : Nat → α → β → Prop}
    (lo n : Nat) (x : α) (y : β) (h0 : R 0 x y)
    (hs : ∀ j u v, j < n → R j u v → R (j + 1) (f (lo + j) u) (g (lo + j) v)) :
    R n (loop f lo n x) (loop g lo n y) := by
  induction n with
  | zero => exact h0
  | succ n ih =>
    rw [loop_succ_last, loop_succ_last]
    exact hs n _ _ (Nat.lt_succ_self n) (ih fun j u v hj => hs j u v (by omega))

/-! ### The transform reads and writes inside its pairs -/

section Network
variable {nm : Numerics} {tw : Nat → Num} {log2n p n : Nat} {dir : Dir} {m m' : Memory}

theorem swapElems_agree (h : AgreeBelow n m m') {a b : Nat} (ha : a < n) (hb : b < n) :
    AgreeBelow n (swapElems memStore a b m) (swapElems memStore a b m') :=
  (h.write fun _ => h b hb).write fun _ => h a ha

theorem bitReversePairs_agree (h : AgreeBelow (2 * 2 ^ p) m m') :
    AgreeBelow (2 * 2 ^ p) (bitReversePairs memStore p m) (bitReversePairs memStore p m') := by
  refine loop_rel _ (R := AgreeBelow (2 * 2 ^ p)) 1 (2 ^ p - 2) m m' h fun i u u' _ hi hu => ?_
  have hj := bitrev_lt p i
  dsimp only
  split
  · exact swapElems_agree (swapElems_agree hu (by omega) (by omega)) (by omega) (by omega)
  · exact hu

theorem butterfly_agree (h : AgreeBelow n m m') (wr wi : Num) {a d : Nat} (ha : 2 * a + 1 < n)
    (hd : 2 * d + 1 < n) : AgreeBelow n (butterfly (numArith nm) memStore wr wi a d m)
      (butterfly (numArith nm) memStore wr wi a d m') := by
  have har : memStore.read m (2 * a) = memStore.read m' (2 * a) := h _ (by omega)
  have hai : memStore.read m (2 * a + 1) = memStore.read m' (2 * a + 1) := h _ ha
  have hdr : memStore.read m (2 * d) = memStore.read m' (2 * d) := h _ (by omega)
  have hdi : memStore.read m (2 * d + 1) = memStore.read m' (2 * d + 1) := h _ hd
  unfold butterfly
  rw [har, hai, hdr, hdi]
  exact (((h.write fun _ => rfl).write fun _ => rfl).write fun _ => rfl).write fun _ => rfl

theorem network_agree (h : AgreeBelow (2 * 2 ^ p) m m') :
    AgreeBelow (2 * 2 ^ p) (network (numArith nm) memStore tw log2n p dir m)
      (network (numArith nm) memStore tw log2n p dir m') := by
  refine loop_rel _ (R := AgreeBelow (2 * 2 ^ p)) 1 p _ _ (bitReversePairs_agree h) fun t u u' ht1 htp hu => ?_
  refine loop_rel _ (R := AgreeBelow (2 * 2 ^ p)) 0 (2 ^ t / 2) u u' hu fun j u u' _ hj hu => ?_
  refine loop_rel _ (R := AgreeBelow (2 * 2 ^ p)) 0 (2 ^ p / 2 ^ t) u u' hu fun c u u' _ hc hu => ?_
  have hlt := stage_pairs_lt (p := p) (t := t) (j := j) (c := c) ht1 (by omega) (by omega) (by omega)
  exact butterfly_agree hu _ _ (by omega) (by omega)

end Network

/-! ### Two engines alike but for the transient memories -/

/-- The engines differ at most in the transient memories, and these agree too: WS below `w`, ANAMAG and
ANAFRQ below `a`, SYNMAG and SYNFRQ below `y`. -/
structure SameUpTo (w a y : Nat) (s s' : State) : Prop where
  persistent : persistentPart s = persistentPart s'
  ws : AgreeBelow w s.ws s'.ws
  anamag : AgreeBelow a s.anamag s'.anamag
  anafrq : AgreeBelow a s.anafrq s'.anafrq
  synmag : AgreeBelow y s.synmag s'.synmag
  synfrq : AgreeBelow y s.synfrq s'.synfrq

section Stages
variable {nm : Numerics} {s s' : State} {w a y : Nat}

theorem sameUpTo_zero (h : persistentPart s = persistentPart s') : SameUpTo 0 0 0 s s' :=
  ⟨h, agreeBelow_zero _ _, agreeBelow_zero _ _, agreeBelow_zero _ _, agreeBelow_zero _ _,
    agreeBelow_zero _ _⟩

/-- What does not depend on the transient memories is the same on both engines. -/
theorem apply_eq_of_persistentPart {α : Type} (h : persistentPart s = persistentPart s') (F : State → α)
    (hF : ∀ t, F (persistentPart t) = F t) : F s = F s' :=
  (hF s).symm.trans ((congrArg F h).trans (hF s'))

theorem SameUpTo.apply_eq {α : Type} (h : SameUpTo w a y s s') (F : State → α)
    (hF : ∀ t, F (persistentPart t) = F t) : F s = F s' :=
  apply_eq_of_persistentPart h.persistent F hF

theorem SameUpTo.frameSize_eq (h : SameUpTo w a y s s') : frameSize s' = frameSize s :=
  (h.apply_eq frameSize fun _ => rfl).symm

theorem SameUpTo.transform {p : Nat} (h : SameUpTo (2 * 2 ^ p) a y s s') (dir : Dir) :
    SameUpTo (2 * 2 ^ p) a y (transform nm p dir s) (transform nm p dir s') := by
  refine { h with ws := ?_ }
  unfold Machine.transform
  rw [← h.apply_eq State.tw fun _ => rfl, ← h.apply_eq State.log2n fun _ => rfl]
  exact network_agree h.ws

/-! ### Analyze -/

/-- The frame is written to the whole workspace. -/
theorem SameUpTo.windowFrame (h : SameUpTo 0 0 0 s s') :
    SameUpTo (2 * frameSize s) 0 0 (windowFrame nm s) (windowFrame nm s') := by
  unfold Machine.windowFrame
  rw [h.frameSize_eq]
  refine loop_rel_induct (R := fun j u u' => SameUpTo (2 * j) 0 0 u u') 0 (frameSize s) s s' h
    fun j u u' _ hu => { hu with ws := ?_ }
  rw [Nat.zero_add]
  dsimp only
  refine hu.ws.snocPair ?_ rfl
  rw [hu.apply_eq State.infifo fun _ => rfl, hu.apply_eq State.win fun _ => rfl]

/-- The bins are written from the workspace and the persistent part. -/
theorem SameUpTo.analyzeBins {n : Nat} (h : SameUpTo (2 * n) 0 0 s s') (hn : frameSize s = n) :
    SameUpTo (2 * n) (n / 2 + 1) 0 (analyzeBins nm s) (analyzeBins nm s') := by
  have hpos := frameSize_pos s
  unfold Machine.analyzeBins
  rw [h.frameSize_eq]
  subst hn
  refine loop_rel_induct (f := analyzeBin nm) (g := analyzeBin nm)
    (R := fun j u u' => SameUpTo (2 * frameSize s) j 0 u u') 0 (frameSize s / 2 + 1) s s' h
    fun j u u' hj hu => ?_
  have hre := hu.ws (2 * j) (by omega)
  have him := hu.ws (2 * j + 1) (by omega)
  have hlast := hu.apply_eq State.lastph fun _ => rfl
  rw [Nat.zero_add]
  refine { hu with persistent := ?_, anamag := hu.anamag.snoc ?_, anafrq := hu.anafrq.snoc ?_ }
  · have hphase : u.lastph.write j (numAtan2 nm (u.ws.read (2 * j + 1)) (u.ws.read (2 * j))) =
        u'.lastph.write j (numAtan2 nm (u'.ws.read (2 * j + 1)) (u'.ws.read (2 * j))) := by
      rw [hre, him, hlast]
    exact congrArg₂ (fun (t : State) x => { t with lastph := x }) hu.persistent hphase
  · rw [hre, him]
  · rw [hre, him, hlast, hu.apply_eq (binFrequency nm) fun _ => rfl]

theorem SameUpTo.analyze (h : SameUpTo 0 0 0 s s') :
    SameUpTo 0 (frameSize s / 2 + 1) 0 (analyze nm s) (analyze nm s') := by
  have hfft := (h.windowFrame (nm := nm)).transform (nm := nm) (p := s.log2n.toNat) .fwd
  have hbins := hfft.analyzeBins (nm := nm) (windowFrame_writes nm s).frameSize_eq
  unfold Machine.analyze
  rw [← h.apply_eq State.log2n fun _ => rfl]
  exact { hbins with ws := agreeBelow_zero _ _ }

/-! ### Remap -/

theorem SameUpTo.clearSynthesis (h : SameUpTo 0 a 0 s s') :
    SameUpTo 0 a (frameSize s) (clearSynthesis s) (clearSynthesis s') := by
  unfold Machine.clearSynthesis
  rw [h.frameSize_eq]
  refine loop_rel_induct (R := fun j u u' => SameUpTo 0 a j u u') 0 (frameSize s) s s' h
    fun j u u' _ hu => ?_
  rw [Nat.zero_add]
  exact { hu with synmag := hu.synmag.snocZero, synfrq := hu.synfrq.snocZero }

/-- A source bin, whatever its destination. -/
theorem SameUpTo.remapBin (h : SameUpTo 0 a y s s') {k : Nat} (hk : k < a) :
    SameUpTo 0 a y (remapBin nm k s) (remapBin nm k s') := by
  have hratio : s.ratio = s'.ratio := h.apply_eq State.ratio fun _ => rfl
  have hdest : destBin nm s'.ratio (frameSize s / 2) k = destBin nm s.ratio (frameSize s / 2) k := by
    rw [hratio]
  unfold Machine.remapBin
  rw [h.frameSize_eq, hdest]
  cases destBin nm s.ratio (frameSize s / 2) k with
  | none => exact h
  | some d =>
    exact { h with
      synmag := h.synmag.write fun hd => by rw [h.synmag d hd, h.anamag k hk]
      synfrq := h.synfrq.write fun _ => by rw [h.anafrq k hk, hratio] }

theorem SameUpTo.remap (h : SameUpTo 0 (frameSize s / 2 + 1) 0 s s') :
    SameUpTo 0 0 (frameSize s) (remap nm s) (remap nm s') := by
  have key := loop_rel (Machine.remapBin nm) (g := Machine.remapBin nm)
    (R := SameUpTo 0 (frameSize s / 2 + 1) (frameSize s)) 0 (frameSize s / 2 + 1) _ _ h.clearSynthesis
    fun k u u' _ hk hu => hu.remapBin (by omega)
  unfold Machine.remap
  rw [h.frameSize_eq]
  exact { key with anamag := agreeBelow_zero _ _, anafrq := agreeBelow_zero _ _ }

/-! ### Synth -/

theorem SameUpTo.phaseIncrement_eq (h : SameUpTo w a y s s') {k : Nat} (hk : k < y) :
    phaseIncrement nm s k = phaseIncrement nm s' k := by
  unfold phaseIncrement
  rw [h.synfrq k hk, h.apply_eq (freqPerBin nm) fun _ => rfl, h.apply_eq (hopPhase nm) fun _ => rfl,
    h.apply_eq State.osamp fun _ => rfl]

/-- The bins of the synthesis spectrum. -/
theorem SameUpTo.synthBins (h : SameUpTo 0 0 (frameSize s) s s') :
    SameUpTo (2 * (frameSize s / 2 + 1)) 0 (frameSize s)
      (loop (synthBin nm) 0 (frameSize s / 2 + 1) s) (loop (synthBin nm) 0 (frameSize s / 2 + 1) s') := by
  have hpos := frameSize_pos s
  refine loop_rel_induct (f := synthBin nm) (g := synthBin nm)
    (R := fun j u u' => SameUpTo (2 * j) 0 (frameSize s) u u') 0 (frameSize s / 2 + 1) s s' h
    fun j u u' hj hu => ?_
  have hmag := hu.synmag j (by omega)
  have hphase : numAdd nm (u.sumph.read j) (phaseIncrement nm u j) =
      numAdd nm (u'.sumph.read j) (phaseIncrement nm u' j) := by
    rw [hu.apply_eq State.sumph fun _ => rfl, hu.phaseIncrement_eq (by omega)]
  rw [Nat.zero_add]
  refine { hu with persistent := ?_, ws := hu.ws.snocPair ?_ ?_ }
  · have hsum : u.sumph.write j (numAdd nm (u.sumph.read j) (phaseIncrement nm u j)) =
        u'.sumph.write j (numAdd nm (u'.sumph.read j) (phaseIncrement nm u' j)) := by
      rw [hphase, hu.apply_eq State.sumph fun _ => rfl]
    exact congrArg₂ (fun (t : State) x => { t with sumph := x }) hu.persistent hsum
  · rw [hmag, hphase]
  · rw [hmag, hphase]

/-- The bins and the zeroed mirror fill the workspace. -/
theorem SameUpTo.zeroMirror {n : Nat} (h : SameUpTo (2 * (n / 2 + 1)) a y s s') (hn : frameSize s = n) :
    SameUpTo (2 * n) a y (zeroMirror s) (zeroMirror s') := by
  subst hn
  have heven : frameSize s = 1 ∨ frameSize s % 2 = 0 := by
    unfold frameSize
    cases s.log2n.toNat with
    | zero => exact .inl rfl
    | succ p => exact .inr (by rw [Nat.pow_succ]; exact Nat.mul_mod_left _ _)
  rw [zeroMirror_eq, zeroMirror_eq, h.frameSize_eq]
  refine { h with ws := fun i hi => ?_ }
  dsimp only
  rw [read_loop_write (fun _ => numZero), read_loop_write (fun _ => numZero)]
  split
  · rfl
  · exact h.ws i (by omega)

theorem SameUpTo.synthesize (h : SameUpTo 0 0 (frameSize s) s s') :
    SameUpTo (2 * frameSize s) 0 0 (synthesize nm s) (synthesize nm s') := by
  have hmirror := (h.synthBins (nm := nm)).zeroMirror (by rw [synthBins_eq]; rfl)
  have hfft := hmirror.transform (nm := nm) (p := s.log2n.toNat) .inv
  unfold Machine.synthesize
  rw [h.frameSize_eq, ← h.apply_eq State.log2n fun _ => rfl]
  exact { hfft with synmag := agreeBelow_zero _ _, synfrq := agreeBelow_zero _ _ }

/-! ### Ola -/

/-- The contributions read the workspace below `2N` only; the rest of `Ola` reads no transient memory. -/
theorem SameUpTo.olaAccumulate (h : SameUpTo (2 * frameSize s) 0 0 s s') :
    persistentPart (olaAccumulate nm s) = persistentPart (olaAccumulate nm s') := by
  have hcontribution : ∀ k, k < frameSize s → olaContribution nm s k = olaContribution nm s' k := by
    intro k hk
    unfold olaContribution
    rw [h.ws (2 * k) (by omega), h.apply_eq State.win fun _ => rfl, h.frameSize_eq,
      h.apply_eq State.osamp fun _ => rfl]
  rw [olaAccumulate_eq, olaAccumulate_eq, h.frameSize_eq, ← h.apply_eq State.acc fun _ => rfl]
  have hacc := loop_congr (fun k m => Memory.write m k (numAdd nm (Memory.read m k) (olaContribution nm s k)))
    (g := fun k m => Memory.write m k (numAdd nm (Memory.read m k) (olaContribution nm s' k)))
    0 (frameSize s) s.acc fun k m _ hk => by rw [hcontribution k (by omega)]
  exact congrArg₂ (fun (t : State) x => { t with acc := x }) h.persistent hacc

theorem olaEmit_persistentPart (s : State) :
    olaEmit (persistentPart s) = persistentPart (olaEmit s) := by
  rw [olaEmit_eq, olaEmit_eq]
  rfl

theorem olaShiftAcc_persistentPart (s : State) :
    olaShiftAcc (persistentPart s) = persistentPart (olaShiftAcc s) := by
  rw [olaShiftAcc_eq, olaShiftAcc_eq]
  rfl

theorem olaShiftInput_persistentPart (s : State) :
    olaShiftInput (persistentPart s) = persistentPart (olaShiftInput s) := by
  rw [olaShiftInput_eq, olaShiftInput_eq]
  rfl

theorem SameUpTo.overlapAdd (h : SameUpTo (2 * frameSize s) 0 0 s s') :
    persistentPart (overlapAdd nm s) = persistentPart (overlapAdd nm s') := by
  have hrest := congrArg (fun t => olaShiftInput (olaShiftAcc (olaEmit t))) (h.olaAccumulate (nm := nm))
  simp only [olaEmit_persistentPart, olaShiftAcc_persistentPart, olaShiftInput_persistentPart] at hrest
  exact hrest

end Stages

/-! ### Cycle and PUSH -/

theorem persistentPart_cycle (nm : Numerics) {s s' : State} (h : persistentPart s = persistentPart s') :
    persistentPart (cycle nm s) = persistentPart (cycle nm s') := by
  have hana := (sameUpTo_zero h).analyze (nm := nm)
  have hsize := (analyze_writes nm s).frameSize_eq
  rw [← hsize] at hana
  have hremap := hana.remap (nm := nm)
  rw [← (remap_writes nm _).frameSize_eq] at hremap
  have hsynth := hremap.synthesize (nm := nm)
  rw [← (synthesize_writes nm _).frameSize_eq] at hsynth
  exact hsynth.overlapAdd

theorem persistentPart_withCyc {s s' : State} (h : persistentPart s = persistentPart s') (c : Bool) :
    persistentPart { s with cyc := c } = persistentPart { s' with cyc := c } :=
  congrArg (fun t : State => { t with cyc := c }) h

theorem persistentPart_pushSample (nm : Numerics) (v : Word) {s s' : State}
    (h : persistentPart s = persistentPart s') :
    persistentPart (pushSample nm v s) = persistentPart (pushSample nm v s') := by
  have hstore : persistentPart (memWrite s .infifo s.rover.toNat v) =
      persistentPart (memWrite s' .infifo s'.rover.toNat v) :=
    congrArg (fun t : State => memWrite t .infifo t.rover.toNat v) h
  have hrover : s'.rover = s.rover := (apply_eq_of_persistentPart h State.rover fun _ => rfl).symm
  have hsize : frameSize s' = frameSize s := (apply_eq_of_persistentPart h frameSize fun _ => rfl).symm
  have hlat : latency s' = latency s := (apply_eq_of_persistentPart h latency fun _ => rfl).symm
  have hmoved : ∀ r : BitVec 32, persistentPart { memWrite s .infifo s.rover.toNat v with rover := r } =
      persistentPart { memWrite s' .infifo s'.rover.toNat v with rover := r } := fun r =>
    congrArg (fun t : State => { t with rover := r }) hstore
  rcases pushSample_cases nm v s with ⟨hr, heq⟩ | ⟨hr, heq⟩
  · rcases pushSample_cases nm v s' with ⟨-, heq'⟩ | ⟨hr', -⟩
    · rw [heq, heq']
      have hnext := persistentPart_withCyc (hmoved (BitVec.ofNat 32 (s.rover.toNat + 1))) false
      rw [hrover] at hnext ⊢
      exact hnext
    · rw [hsize, hrover] at hr'
      exact absurd hr (Nat.not_lt.mpr hr')
  · rcases pushSample_cases nm v s' with ⟨hr', -⟩ | ⟨-, heq'⟩
    · rw [hsize, hrover] at hr'
      exact absurd hr' (Nat.not_lt.mpr hr)
    · rw [heq, heq', hlat]
      exact persistentPart_withCyc (persistentPart_cycle nm (hmoved _)) true

/-- A command that needs memories, on two engines alike in their persistent parts. -/
theorem persistentPart_ifConfigured {s s' u u' t t' : State} {v v' : Word}
    (h : persistentPart s = persistentPart s') (hv : v = v') (hu : persistentPart u = persistentPart u')
    (ht : ifConfigured s (respond v u) = .next t) (ht' : ifConfigured s' (respond v' u') = .next t') :
    persistentPart t = persistentPart t' := by
  have hcfgd : s.cfgd = s'.cfgd := apply_eq_of_persistentPart h State.cfgd fun _ => rfl
  cases hc : s.cfgd with
  | true =>
    rw [ifConfigured_of_cfgd hc] at ht
    rw [ifConfigured_of_cfgd (hcfgd ▸ hc)] at ht'
    obtain rfl := next_inj ht
    obtain rfl := next_inj ht'
    subst hv
    exact congrArg (fun t : State => { t with resp := some ⟨okCode, v⟩ }) hu
  | false =>
    rw [ifConfigured_errorState hc] at ht
    rw [ifConfigured_errorState (hcfgd ▸ hc)] at ht'
    obtain rfl := next_inj ht
    obtain rfl := next_inj ht'
    exact congrArg (errorState .unconf) h

/-- Settles O43. -/
theorem transientMemoriesAreDead : Obligations.TransientMemoriesAreDead := by
  intro s s' t t' v h
  have hread : s.outfifo.read (outIndex s) = s'.outfifo.read (outIndex s') :=
    apply_eq_of_persistentPart h (fun t => t.outfifo.read (outIndex t)) fun _ => rfl
  exact ⟨persistentPart_ifConfigured h hread (persistentPart_pushSample _ v h),
    persistentPart_ifConfigured h rfl (persistentPart_withCyc (persistentPart_cycle _ h) true)⟩

end Sys2Proof.Machine
end

section
/-! PROOFS. The memories: the depths and the memory map, and the canonical form as equality of contents
(10_state.md R30; 20_memory.md R61, R62, R65). -/

namespace Sys2Proof.Machine

/-! ### The depths -/

/-- The workspace and the accumulator are the deepest memories. -/
theorem depthFor_le_two_mul {n : Nat} (hn : 0 < n) (m : MemId) : depthFor n m ≤ 2 * n := by
  cases m <;> simp only [depthFor] <;> omega

theorem depth_le_two_mul (s : State) (m : MemId) : depth s m ≤ 2 * frameSize s := by
  cases hc : s.cfgd with
  | true =>
    rw [depth_of_cfgd hc]
    exact depthFor_le_two_mul (frameSize_pos s) m
  | false =>
    rw [depth_of_not_cfgd hc]
    exact Nat.zero_le _

/-- Every index fits the 24-bit field of the access port. -/
theorem depth_le_of_log2n_le {s : State} (h : s.log2n.toNat ≤ 23) (m : MemId) : depth s m ≤ 2 ^ 24 :=
  calc depth s m ≤ 2 * 2 ^ s.log2n.toNat := depth_le_two_mul s m
    _ ≤ 2 * 2 ^ 23 := Nat.mul_le_mul_left 2 (Nat.pow_le_pow_right (by decide) h)
    _ = 2 ^ 24 := rfl

/-- The memories that hold one element for each index of the frame. -/
theorem depthFor_of_mem_frameMemories {m : MemId} (n : Nat)
    (hm : m ∈ [MemId.infifo, .outfifo, .anamag, .anafrq, .synmag, .synfrq, .win, .tw]) :
    depthFor n m = n := by
  cases m with
  | ws | acc | lastph | sumph => exact absurd hm (by decide)
  | infifo | outfifo | anamag | anafrq | synmag | synfrq | win | tw => rfl

/-- Settles O17: the depths, configured, unconfigured and at most; then the ids and the names of the
memories, which the definitions list. -/
theorem memoryDepths : Obligations.MemoryDepths := by
  refine ⟨fun s hc => ?configured, fun s m hc => depth_of_not_cfgd hc m,
    fun sel => memOfSel_eq_none.symm, fun s m h => depth_le_of_log2n_le h m,
    ⟨rfl, rfl, rfl, rfl, rfl, rfl, rfl, rfl, rfl, rfl, rfl, rfl⟩,
    fun s i => ⟨rfl, rfl, rfl, rfl, rfl, rfl, rfl, rfl, rfl, rfl, rfl, rfl⟩⟩
  have hdepth := depth_of_cfgd hc
  exact ⟨hdepth .ws, hdepth .acc,
    fun m hm => (hdepth m).trans (depthFor_of_mem_frameMemories _ hm), hdepth .lastph, hdepth .sumph⟩

/-! ### The canonical form -/

/-- Canonical memories are the same data exactly when they read the same. -/
theorem Memory.read_eq_iff {m n : Memory} (hm : m.wf = true) (hn : n.wf = true) :
    (∀ k, m.read k = n.read k) ↔ m = n :=
  ⟨Memory.ext_read hm hn, fun h _ => by rw [h]⟩

/-- Writing back what an index reads does not show in any read, so the canonical data is the same. -/
theorem Memory.write_read_self {m : Memory} (hm : m.wf = true) (i : Nat) :
    m.write i (m.read i) = m := by
  refine Memory.ext_read (Memory.wf_write i _ hm) hm fun k => ?_
  rw [Memory.read_write]
  split
  · next hk => rw [hk]
  · rfl

/-- Settles O20. -/
theorem canonicalMemoryIsExtensional : Obligations.CanonicalMemoryIsExtensional :=
  fun _ _ v i hm hn =>
    ⟨Memory.read_eq_iff hm hn, Memory.wf_write i v hm, Memory.write_read_self hm i⟩

end Sys2Proof.Machine
end

section
/-! PROOFS. The command word as a number, and the decoder as the inverse of the encoder
(30_encoding.md R91 to R98, R101). -/

namespace Sys2Proof.Machine

open Sys2Proof.Laws.MatchesRow (commandWord_toNat)

/-! ### The fields of a word as numbers -/

theorem fieldOpc_toNat (cmd : Word) : (fieldOpc cmd).toNat = cmd.toNat / 2 ^ 28 := by
  rw [fieldOpc, BitVec.extractLsb'_toNat, Nat.shiftRight_eq_div_pow, Nat.mod_eq_of_lt]
  omega

theorem fieldSel_toNat (cmd : Word) : (fieldSel cmd).toNat = cmd.toNat / 2 ^ 24 % 2 ^ 4 := by
  rw [fieldSel, BitVec.extractLsb'_toNat, Nat.shiftRight_eq_div_pow]

theorem fieldIdx_toNat (cmd : Word) : (fieldIdx cmd).toNat = cmd.toNat % 2 ^ 24 := by
  rw [fieldIdx, BitVec.extractLsb'_toNat, Nat.shiftRight_zero]

theorem fieldP_toNat (cmd : Word) : (fieldP cmd).toNat = cmd.toNat % 2 ^ 5 := by
  rw [fieldP, BitVec.extractLsb'_toNat, Nat.shiftRight_zero]

theorem fieldDir_bit_toNat (cmd : Word) : (fieldDir cmd).bit.toNat = cmd.toNat / 2 ^ 8 % 2 := by
  have hbit : cmd.getLsbD 8 = decide (cmd.toNat / 2 ^ 8 % 2 = 1) := Nat.testBit_eq_decide_div_mod_eq
  unfold fieldDir
  rw [hbit]
  split
  · next h => rw [of_decide_eq_true h]; rfl
  · next h =>
    rw [decide_eq_true_eq] at h
    show 0 = _
    omega

theorem extractLsb'_eq_zero_iff {cmd : Word} {k n : Nat} :
    cmd.extractLsb' k n = 0#n ↔ cmd.toNat / 2 ^ k % 2 ^ n = 0 := by
  rw [← BitVec.toNat_inj, BitVec.extractLsb'_toNat, Nat.shiftRight_eq_div_pow, BitVec.toNat_ofNat,
    Nat.zero_mod]

/-! ### The formats as conditions on the number (30_encoding.md R92 to R96) -/

theorem decodeZ_eq (cmd : Word) (i : Instr) :
    decodeZ cmd i = if cmd.toNat % 2 ^ 28 = 0 then .ok i else .error .formatZ := by
  simp only [decodeZ, extractLsb'_eq_zero_iff, Nat.pow_zero, Nat.div_one]

theorem decodeC_eq (cmd : Word) :
    decodeC cmd = if cmd.toNat / 2 ^ 5 % 2 ^ 23 = 0 then .ok (.config (fieldP cmd))
      else .error .formatC := by
  simp only [decodeC, extractLsb'_eq_zero_iff]

theorem decodeT_eq (cmd : Word) :
    decodeT cmd = if cmd.toNat / 2 ^ 9 % 2 ^ 19 = 0 ∧ cmd.toNat / 2 ^ 5 % 2 ^ 3 = 0 then
      .ok (.fft (fieldP cmd) (fieldDir cmd)) else .error .formatT := by
  simp only [decodeT, extractLsb'_eq_zero_iff]

theorem decodeR_eq (cmd : Word) (i : Instr) :
    decodeR cmd i = if cmd.toNat / 2 ^ 24 % 2 ^ 4 = 0 then .ok i else .error .formatR := by
  simp only [decodeR, fieldSel, extractLsb'_eq_zero_iff]

theorem decodeM_eq (cmd : Word) (i : Instr) :
    decodeM cmd i = if cmd.toNat / 2 ^ 24 % 2 ^ 4 ≤ 11 then .ok i else .error .formatM := by
  simp only [decodeM, fieldSel_toNat]

/-! ### The word of a command as a number (30_encoding.md R101) -/

/-- `IDX` of format C is the exponent. -/
theorem idxC_toNat (p : BitVec 5) : (0#19 ++ p).toNat = p.toNat := by
  rw [BitVec.toNat_append, BitVec.toNat_ofNat, Nat.zero_mod, Nat.zero_shiftLeft, Nat.zero_or]

/-- `IDX` of format T is the direction, from bit 8 on, and the exponent. -/
theorem idxT_toNat (b : BitVec 1) (p : BitVec 5) :
    (0#15 ++ b ++ 0#3 ++ p).toNat = b.toNat * 2 ^ 8 + p.toNat := by
  revert b p
  decide

theorem encodeCmd_config_toNat (p : BitVec 5) :
    (encodeCmd (.config p)).toNat = 0x20000000 + p.toNat := by
  rw [encodeCmd, commandWord_toNat, idxC_toNat]; rfl

theorem encodeCmd_fft_toNat (p : BitVec 5) (dir : Dir) :
    (encodeCmd (.fft p dir)).toNat = 0x70000000 + dir.bit.toNat * 2 ^ 8 + p.toNat := by
  rw [encodeCmd, commandWord_toNat, idxT_toNat, ← Nat.add_assoc]; rfl

theorem encodeCmd_wrreg_toNat (reg : BitVec 24) (v : Word) :
    (encodeCmd (.wrreg reg v)).toNat = 0x30000000 + reg.toNat := by
  rw [encodeCmd, commandWord_toNat]; rfl

theorem encodeCmd_rdreg_toNat (reg : BitVec 24) :
    (encodeCmd (.rdreg reg)).toNat = 0x40000000 + reg.toNat := by
  rw [encodeCmd, commandWord_toNat]; rfl

theorem encodeCmd_wrmem_toNat (mem : BitVec 4) (idx : BitVec 24) (v : Word) :
    (encodeCmd (.wrmem mem idx v)).toNat = 0x50000000 + mem.toNat * 2 ^ 24 + idx.toNat := by
  rw [encodeCmd, commandWord_toNat]; rfl

theorem encodeCmd_rdmem_toNat (mem : BitVec 4) (idx : BitVec 24) :
    (encodeCmd (.rdmem mem idx)).toNat = 0x60000000 + mem.toNat * 2 ^ 24 + idx.toNat := by
  rw [encodeCmd, commandWord_toNat]; rfl

/-- Settles O2: the words without operands are numerals, the others have their sums above. -/
theorem commandWordsAddUp : Obligations.CommandWordsAddUp :=
  ⟨rfl, rfl, encodeCmd_config_toNat, encodeCmd_wrreg_toNat, encodeCmd_rdreg_toNat,
    encodeCmd_wrmem_toNat, encodeCmd_rdmem_toNat, fun p => encodeCmd_fft_toNat p .fwd,
    fun p => encodeCmd_fft_toNat p .inv, fun _ => rfl, rfl, rfl, rfl, rfl, rfl, rfl⟩

/-! ### Decoding an encoding -/

/-- The command with the data word `d` in the place of its own, if it carries one
(30_encoding.md R90). -/
def withData (d : Word) : Instr → Instr
  | .wrreg reg _ => .wrreg reg d
  | .wrmem mem idx _ => .wrmem mem idx d
  | .push _ => .push d
  | i => i

theorem withData_encodeData (i : Instr) : withData (encodeData i) i = i := by cases i <;> rfl

theorem mnemonic_withData (d : Word) (i : Instr) : (withData d i).mnemonic = i.mnemonic := by
  cases i <;> rfl

section Fields

variable (opc sel : BitVec 4) (idx : BitVec 24) (p : BitVec 5) (dir : Dir)

@[simp] theorem fieldOpc_commandWord : fieldOpc (commandWord opc sel idx) = opc :=
  BitVec.eq_of_toNat_eq (by rw [fieldOpc_toNat, commandWord_toNat]; omega)

@[simp] theorem fieldSel_commandWord : fieldSel (commandWord opc sel idx) = sel :=
  BitVec.eq_of_toNat_eq (by rw [fieldSel_toNat, commandWord_toNat]; omega)

@[simp] theorem fieldIdx_commandWord : fieldIdx (commandWord opc sel idx) = idx :=
  BitVec.eq_of_toNat_eq (by rw [fieldIdx_toNat, commandWord_toNat]; omega)

theorem fieldP_config : fieldP (encodeCmd (.config p)) = p :=
  BitVec.eq_of_toNat_eq (by rw [fieldP_toNat, encodeCmd_config_toNat]; omega)

theorem fieldP_fft : fieldP (encodeCmd (.fft p dir)) = p :=
  BitVec.eq_of_toNat_eq (by rw [fieldP_toNat, encodeCmd_fft_toNat]; omega)

theorem dir_eq_of_bit {dir dir' : Dir} (h : dir.bit.toNat = dir'.bit.toNat) : dir = dir' := by
  cases dir <;> cases dir' <;> simp [Dir.bit] at h ⊢

theorem fieldDir_fft : fieldDir (encodeCmd (.fft p dir)) = dir :=
  dir_eq_of_bit (by rw [fieldDir_bit_toNat, encodeCmd_fft_toNat]; omega)

theorem decodeZ_commandWord (i : Instr) : decodeZ (commandWord opc 0#4 0#24) i = .ok i := by
  rw [decodeZ_eq, if_pos (by simp [commandWord_toNat])]

theorem decodeC_config : decodeC (encodeCmd (.config p)) = .ok (.config p) := by
  rw [decodeC_eq, if_pos (by rw [encodeCmd_config_toNat]; omega), fieldP_config]

theorem decodeT_fft : decodeT (encodeCmd (.fft p dir)) = .ok (.fft p dir) := by
  rw [decodeT_eq, if_pos (by rw [encodeCmd_fft_toNat]; omega), fieldP_fft, fieldDir_fft]

theorem decodeR_commandWord (i : Instr) : decodeR (commandWord opc 0#4 idx) i = .ok i := by
  rw [decodeR, fieldSel_commandWord, if_pos rfl]

theorem decodeM_commandWord {sel : BitVec 4} (h : decide (sel.toNat ≤ 11) = true) (i : Instr) :
    decodeM (commandWord opc sel idx) i = .ok i := by
  rw [decodeM, fieldSel_commandWord, if_pos (of_decide_eq_true h)]

end Fields

/-- The word of a well-formed command decodes to the command, with the data word it comes with. -/
theorem decode_encodeCmd (i : Instr) (d : Word) (hwf : i.wf = true) :
    decode (encodeCmd i) d = .ok (withData d i) := by
  cases i with
  | config p =>
    rw [decode, show fieldOpc (encodeCmd (.config p)) = 2#4 from fieldOpc_commandWord _ _ _]
    exact decodeC_config p
  | fft p dir =>
    rw [decode, show fieldOpc (encodeCmd (.fft p dir)) = 7#4 from fieldOpc_commandWord _ _ _]
    exact decodeT_fft p dir
  | wrreg reg v | rdreg reg =>
    simp only [decode, encodeCmd, fieldOpc_commandWord, fieldIdx_commandWord]
    exact decodeR_commandWord _ _ _
  | wrmem mem idx v | rdmem mem idx =>
    simp only [decode, encodeCmd, fieldOpc_commandWord, fieldSel_commandWord, fieldIdx_commandWord]
    exact decodeM_commandWord _ _ hwf _
  | nop | reset | push v | analyze | remap | synth | ola | cycle | clrerr =>
    simp only [decode, encodeCmd, fieldOpc_commandWord]
    exact decodeZ_commandWord _ _

/-- Settles O3. -/
theorem decodeEncodeRoundTrip : Obligations.DecodeEncodeRoundTrip := by
  intro i hwf
  rw [decode_encodeCmd i _ hwf, withData_encodeData]

/-- Settles O1: each of the sixteen words is the encoding of the command it stands for. -/
theorem listedWordsDecode : Obligations.ListedWordsDecode := fun d =>
  ⟨decode_encodeCmd .nop d rfl, decode_encodeCmd .reset d rfl, decode_encodeCmd (.config 11#5) d rfl,
    decode_encodeCmd (.wrreg 4#24 d) d rfl, decode_encodeCmd (.rdreg 7#24) d rfl,
    decode_encodeCmd (.wrmem 5#4 2#24 d) d rfl, decode_encodeCmd (.rdmem 11#4 8#24) d rfl,
    decode_encodeCmd (.fft 3#5 .fwd) d rfl, decode_encodeCmd (.fft 2#5 .inv) d rfl,
    decode_encodeCmd (.push d) d rfl, decode_encodeCmd .analyze d rfl, decode_encodeCmd .remap d rfl,
    decode_encodeCmd .synth d rfl, decode_encodeCmd .ola d rfl, decode_encodeCmd .cycle d rfl,
    decode_encodeCmd .clrerr d rfl⟩

end Sys2Proof.Machine
end

section
/-! PROOFS. Which words the decoder accepts, and what a step does with the others (30_encoding.md R98 to
R100). -/

namespace Sys2Proof.Machine

/-! ### What a decoded word encodes -/

/-- The test of a format passes and leaves the command as it is. -/
theorem eq_of_ite_eq_ok {c : Prop} [Decidable c] {i j : Instr} {e : DecodeError}
    (h : (if c then .ok j else .error e : Except DecodeError Instr) = .ok i) : c ∧ j = i := by
  split at h
  · next hc => exact ⟨hc, Except.ok.inj h⟩
  · cases h

/-- `Encodes i cmd`: the word of the well-formed command `i` is `cmd`. -/
def Encodes (i : Instr) (cmd : Word) : Prop := i.wf = true ∧ encodeCmd i = cmd

section Formats

variable {cmd : Word} {i j : Instr} {k : Nat}

theorem encodes_of_decodeZ (hk : cmd.toNat / 2 ^ 28 = k) (hwf : j.wf = true)
    (hword : (encodeCmd j).toNat = k * 2 ^ 28) (h : decodeZ cmd j = .ok i) : Encodes i cmd := by
  rw [decodeZ_eq] at h
  obtain ⟨hrest, rfl⟩ := eq_of_ite_eq_ok h
  exact ⟨hwf, BitVec.eq_of_toNat_eq (by omega)⟩

theorem encodes_of_decodeC (hk : cmd.toNat / 2 ^ 28 = 2) (h : decodeC cmd = .ok i) : Encodes i cmd := by
  rw [decodeC_eq] at h
  obtain ⟨hrest, rfl⟩ := eq_of_ite_eq_ok h
  refine ⟨rfl, BitVec.eq_of_toNat_eq ?_⟩
  rw [encodeCmd_config_toNat, fieldP_toNat]
  omega

theorem encodes_of_decodeT (hk : cmd.toNat / 2 ^ 28 = 7) (h : decodeT cmd = .ok i) : Encodes i cmd := by
  rw [decodeT_eq] at h
  obtain ⟨⟨hhigh, hmid⟩, rfl⟩ := eq_of_ite_eq_ok h
  refine ⟨rfl, BitVec.eq_of_toNat_eq ?_⟩
  rw [encodeCmd_fft_toNat, fieldDir_bit_toNat, fieldP_toNat]
  omega

theorem encodes_of_decodeR (hk : cmd.toNat / 2 ^ 28 = k) (hwf : j.wf = true)
    (hword : (encodeCmd j).toNat = k * 2 ^ 28 + (fieldIdx cmd).toNat) (h : decodeR cmd j = .ok i) :
    Encodes i cmd := by
  rw [decodeR_eq] at h
  obtain ⟨hsel, rfl⟩ := eq_of_ite_eq_ok h
  refine ⟨hwf, BitVec.eq_of_toNat_eq ?_⟩
  rw [hword, fieldIdx_toNat]
  omega

theorem encodes_of_decodeM (hk : cmd.toNat / 2 ^ 28 = k)
    (hwf : j.wf = decide ((fieldSel cmd).toNat ≤ 11))
    (hword : (encodeCmd j).toNat = k * 2 ^ 28 + (fieldSel cmd).toNat * 2 ^ 24 + (fieldIdx cmd).toNat)
    (h : decodeM cmd j = .ok i) : Encodes i cmd := by
  obtain ⟨hsel, rfl⟩ := eq_of_ite_eq_ok h
  refine ⟨hwf.trans (decide_eq_true hsel), BitVec.eq_of_toNat_eq ?_⟩
  rw [hword, fieldSel_toNat, fieldIdx_toNat]
  omega

end Formats

/-- A word that decodes is the word of the well-formed command it decodes to. -/
theorem encodes_of_decode {cmd d : Word} {i : Instr} (h : decode cmd d = .ok i) : Encodes i cmd := by
  unfold decode at h
  rw [fieldOpc_toNat] at h
  split at h
  case h_3 hk => exact encodes_of_decodeC hk h
  case h_4 hk => exact encodes_of_decodeR hk rfl (encodeCmd_wrreg_toNat _ _) h
  case h_5 hk => exact encodes_of_decodeR hk rfl (encodeCmd_rdreg_toNat _) h
  case h_6 hk => exact encodes_of_decodeM hk rfl (encodeCmd_wrmem_toNat _ _ _) h
  case h_7 hk => exact encodes_of_decodeM hk rfl (encodeCmd_rdmem_toNat _ _) h
  case h_8 hk => exact encodes_of_decodeT hk h
  case h_16 => cases h
  all_goals exact encodes_of_decodeZ ‹_› rfl rfl h

/-- The data word decides only the command's data operand (30_encoding.md R100). -/
theorem decode_of_encodes {cmd : Word} {i : Instr} (h : Encodes i cmd) (d : Word) :
    decode cmd d = .ok (withData d i) := by
  obtain ⟨hwf, rfl⟩ := h
  exact decode_encodeCmd i d hwf

/-! ### The illegal words (30_encoding.md R99) -/

theorem exists_ite_eq_error {c : Prop} [Decidable c] {i : Instr} {e : DecodeError} :
    (∃ e', (if c then .ok i else .error e : Except DecodeError Instr) = .error e') ↔ ¬ c := by
  split <;> simp [*]

/-- The decoder refuses a word exactly when a clause of R99 holds, opcode by opcode. -/
theorem decode_eq_error_iff (cmd d : Word) : (∃ e, decode cmd d = .error e) ↔ illegalWord cmd := by
  have hopc : (fieldOpc cmd).toNat = cmd.toNat / 0x10000000 := fieldOpc_toNat cmd
  unfold decode illegalWord
  rw [hopc]
  split
  case h_3 hk => simp [hk, decodeC_eq, exists_ite_eq_error]; omega
  case h_4 hk | h_5 hk => simp [hk, decodeR_eq, exists_ite_eq_error]
  case h_6 hk | h_7 hk => simp [hk, decodeM_eq, exists_ite_eq_error]; omega
  case h_8 hk => simp [hk, decodeT_eq, exists_ite_eq_error]; omega
  case h_16 =>
    have hk : cmd.toNat / 0x10000000 = 15 := by
      simp only [imp_false] at *
      omega
    simp [hk]
  all_goals
    rename_i hk
    simp [hk, decodeZ_eq, exists_ite_eq_error]

theorem exists_decode_iff (cmd d : Word) : (∃ i, decode cmd d = .ok i) ↔ ¬ illegalWord cmd := by
  rw [← decode_eq_error_iff cmd d]
  cases decode cmd d with
  | ok i => simp
  | error e => simp

/-- An illegal word ends with E_ILLEGAL and changes nothing else. -/
theorem step_of_illegalWord {cmd d : Word} {s : State} {rest : List HostEvent}
    (hhost : s.host = .request cmd d :: rest) (hillegal : illegalWord cmd) :
    step s = .next (errorState .illegal { s with host := rest }) := by
  obtain ⟨e, he⟩ := (decode_eq_error_iff cmd d).mpr hillegal
  unfold step
  rw [takeEvent_cons hhost]
  simp only [he]
  exact raise_eq_errorState _ _

/-- Settles O4. -/
theorem illegalWordsAreRefused : Obligations.IllegalWordsAreRefused := by
  intro cmd d s rest hhost
  refine ⟨step_of_illegalWord hhost, decode_eq_error_iff cmd d, fun hlegal => ?_⟩
  obtain ⟨i, hi⟩ := (exists_decode_iff cmd d).mpr hlegal
  obtain ⟨hwf, hword⟩ := encodes_of_decode hi
  exact ⟨i, hi, hwf, hword⟩

/-! ### The rows of the opcode map (30_encoding.md R98) -/

/-- Where the mask has all `n` bits from bit `k` on, a selected word has the bits of the pattern. -/
theorem field_eq_of_selects {r : OpcodeRow} {cmd : Word} (h : r.selects cmd = true) {k n : Nat}
    (hmask : r.mask.extractLsb' k n = BitVec.allOnes n) :
    cmd.extractLsb' k n = r.pattern.extractLsb' k n := by
  rw [← beq_iff_eq.mp h, BitVec.extractLsb'_and, hmask, BitVec.and_allOnes]

theorem field_toNat_of_selects {r : OpcodeRow} {cmd : Word} (h : r.selects cmd = true)
    (k n : Nat) {v : Nat} (hmask : r.mask.extractLsb' k n = BitVec.allOnes n)
    (hpattern : (r.pattern.extractLsb' k n).toNat = v) : cmd.toNat / 2 ^ k % 2 ^ n = v := by
  rw [← hpattern, ← field_eq_of_selects h hmask, BitVec.extractLsb'_toNat, Nat.shiftRight_eq_div_pow]

/-- The rows of each format: mask and pattern (30_encoding.md R92 to R96). -/
theorem opcodeMap_formats : ∀ r ∈ opcodeMap,
    (r.mask = 0xFFFFFFFF#32 ∧ ¬ illegalWord r.pattern) ∨
    (r.mask = 0xFFFFFFE0#32 ∧ r.pattern = 0x20000000#32) ∨
    (r.mask = 0xFFFFFEE0#32 ∧ r.pattern = 0x70000000#32) ∨
    (r.mask = 0xFF000000#32 ∧ (r.pattern = 0x30000000#32 ∨ r.pattern = 0x40000000#32)) ∨
    (r.mask = 0xF0000000#32 ∧ (r.pattern = 0x50000000#32 ∨ r.pattern = 0x60000000#32) ∧
      (r.mnemonic = "WRMEM" ∨ r.mnemonic = "RDMEM")) := by
  unfold illegalWord
  decide

section Rows

variable {r : OpcodeRow} {cmd : Word}

theorem legal_of_selects_formatZ (h : r.selects cmd = true) (hmask : r.mask = 0xFFFFFFFF#32)
    (hp : ¬ illegalWord r.pattern) : ¬ illegalWord cmd := by
  have hcmd := field_eq_of_selects (k := 0) (n := 32) h (by rw [hmask]; rfl)
  rw [BitVec.extractLsb'_eq_self, BitVec.extractLsb'_eq_self] at hcmd
  rwa [hcmd]

theorem legal_of_selects_formatC (h : r.selects cmd = true) (hmask : r.mask = 0xFFFFFFE0#32)
    (hp : r.pattern = 0x20000000#32) : ¬ illegalWord cmd := by
  have hopc : _ = 2 := field_toNat_of_selects h 28 4 (by rw [hmask]; rfl) (by rw [hp]; rfl)
  have hrest : _ = 0 := field_toNat_of_selects h 5 23 (by rw [hmask]; rfl) (by rw [hp]; rfl)
  simp only [illegalWord, List.mem_cons, List.not_mem_nil, or_false]
  omega

theorem legal_of_selects_formatT (h : r.selects cmd = true) (hmask : r.mask = 0xFFFFFEE0#32)
    (hp : r.pattern = 0x70000000#32) : ¬ illegalWord cmd := by
  have hopc : _ = 7 := field_toNat_of_selects h 28 4 (by rw [hmask]; rfl) (by rw [hp]; rfl)
  have hhigh : _ = 0 := field_toNat_of_selects h 9 19 (by rw [hmask]; rfl) (by rw [hp]; rfl)
  have hmid : _ = 0 := field_toNat_of_selects h 5 3 (by rw [hmask]; rfl) (by rw [hp]; rfl)
  simp only [illegalWord, List.mem_cons, List.not_mem_nil, or_false]
  omega

theorem legal_of_selects_formatR (h : r.selects cmd = true) (hmask : r.mask = 0xFF000000#32)
    (hp : r.pattern = 0x30000000#32 ∨ r.pattern = 0x40000000#32) : ¬ illegalWord cmd := by
  have hfield := field_toNat_of_selects h 24 8 (by rw [hmask]; rfl) rfl
  have hopcSel : _ = 0x30 ∨ _ = 0x40 :=
    hp.imp (fun hp => hfield.trans (by rw [hp]; rfl)) fun hp => hfield.trans (by rw [hp]; rfl)
  simp only [illegalWord, List.mem_cons, List.not_mem_nil, or_false]
  omega

theorem legal_of_selects_formatM (h : r.selects cmd = true) (hmask : r.mask = 0xF0000000#32)
    (hp : r.pattern = 0x50000000#32 ∨ r.pattern = 0x60000000#32)
    (hsel : cmd.toNat / 2 ^ 24 % 2 ^ 4 ≤ 11) : ¬ illegalWord cmd := by
  have hfield := field_toNat_of_selects h 28 4 (by rw [hmask]; rfl) rfl
  have hopc : _ = 5 ∨ _ = 6 :=
    hp.imp (fun hp => hfield.trans (by rw [hp]; rfl)) fun hp => hfield.trans (by rw [hp]; rfl)
  simp only [illegalWord, List.mem_cons, List.not_mem_nil, or_false]
  omega

/-- A word that selects a row is legal, on the rows of format M under the condition on `SEL`. -/
theorem legal_of_selects (hr : r ∈ opcodeMap) (h : r.selects cmd = true)
    (hsel : r.mnemonic = "WRMEM" ∨ r.mnemonic = "RDMEM" → cmd.toNat / 2 ^ 24 % 2 ^ 4 ≤ 11) :
    ¬ illegalWord cmd := by
  rcases opcodeMap_formats r hr with ⟨hm, hp⟩ | ⟨hm, hp⟩ | ⟨hm, hp⟩ | ⟨hm, hp⟩ | ⟨hm, hp, hn⟩
  · exact legal_of_selects_formatZ h hm hp
  · exact legal_of_selects_formatC h hm hp
  · exact legal_of_selects_formatT h hm hp
  · exact legal_of_selects_formatR h hm hp
  · exact legal_of_selects_formatM h hm hp (hsel hn)

end Rows

/-- The word of a command selects the row of the command and no other. -/
theorem mnemonicsOf_encodeCmd (i : Instr) : mnemonicsOf (encodeCmd i) = [i.mnemonic] := by
  cases i with
  | nop => exact Laws.MatchesRow.nop
  | reset => exact Laws.MatchesRow.reset
  | config p => exact Laws.MatchesRow.config p
  | wrreg reg v => exact Laws.MatchesRow.wrreg reg v
  | rdreg reg => exact Laws.MatchesRow.rdreg reg
  | wrmem mem idx v => exact Laws.MatchesRow.wrmem mem idx v
  | rdmem mem idx => exact Laws.MatchesRow.rdmem mem idx
  | fft p dir => exact Laws.MatchesRow.fft p dir
  | push v => exact Laws.MatchesRow.push v
  | analyze => exact Laws.MatchesRow.analyze
  | remap => exact Laws.MatchesRow.remap
  | synth => exact Laws.MatchesRow.synth
  | ola => exact Laws.MatchesRow.ola
  | cycle => exact Laws.MatchesRow.cycle
  | clrerr => exact Laws.MatchesRow.clrerr

/-- A mnemonic stands in `mnemonicsOf` for a row that the word selects. -/
theorem exists_row_of_mnemonicsOf {cmd : Word} {n : String} (h : mnemonicsOf cmd = [n]) :
    ∃ r ∈ opcodeMap, r.selects cmd = true ∧ r.mnemonic = n := by
  have hn : n ∈ mnemonicsOf cmd := by rw [h]; exact List.mem_singleton_self n
  obtain ⟨r, hr, hrn⟩ := List.mem_map.mp hn
  obtain ⟨hmem, hsel⟩ := List.mem_filter.mp hr
  exact ⟨r, hmem, hsel, hrn⟩

theorem sel_le_of_memory_mnemonic {i : Instr} {cmd : Word} (h : Encodes i cmd)
    (hn : i.mnemonic = "WRMEM" ∨ i.mnemonic = "RDMEM") : cmd.toNat / 2 ^ 24 % 2 ^ 4 ≤ 11 := by
  obtain ⟨hwf, rfl⟩ := h
  cases i with
  | wrmem mem idx v =>
    have hle : mem.toNat ≤ 11 := of_decide_eq_true hwf
    rw [encodeCmd_wrmem_toNat]
    omega
  | rdmem mem idx =>
    have hle : mem.toNat ≤ 11 := of_decide_eq_true hwf
    rw [encodeCmd_rdmem_toNat]
    omega
  | _ => simp [Instr.mnemonic] at hn

/-- Settles O5: a word that decodes encodes its command, which selects one row; a word that selects a row
is legal, so it decodes. -/
theorem decoderIsTotal : Obligations.DecoderIsTotal := by
  intro cmd d
  have hrow : ∀ {i}, decode cmd d = .ok i → mnemonicsOf cmd = [i.mnemonic] := fun hi =>
    (encodes_of_decode hi).2 ▸ mnemonicsOf_encodeCmd _
  refine ⟨⟨?_, ?_⟩, fun i hi => ⟨hrow hi, fun d' => ?_⟩⟩
  · rintro ⟨i, hi⟩
    exact ⟨i.mnemonic, hrow hi, sel_le_of_memory_mnemonic (encodes_of_decode hi)⟩
  · rintro ⟨n, hn, hsel⟩
    obtain ⟨r, hr, hselects, rfl⟩ := exists_row_of_mnemonicsOf hn
    exact (exists_decode_iff cmd d).mpr (legal_of_selects hr hselects hsel)
  · exact ⟨withData d' i, decode_of_encodes (encodes_of_decode hi) d', mnemonic_withData d' i⟩

end Sys2Proof.Machine
end

section
/-! PROOFS. The pseudo-instruction SETUP (30_encoding.md R102; 70_reset_and_hazards.md R273). -/

namespace Sys2Proof.Machine

/-- A command that answers OK is followed by the rest of the list. -/
theorem runCommands_cons_of_ok {i : Instr} {s t u : State} {v : Word} {rest : List Instr}
    {rs : List Response} (h : exec i s = .next (okState v t))
    (hrest : runCommands rest (okState v t) = (u, rs)) :
    runCommands (i :: rest) s = (u, ⟨0#4, v⟩ :: rs) := by
  have hresp : (okState v t).resp = some ⟨0#4, v⟩ := rfl
  simp only [runCommands, h, hresp, hrest]
  rfl

theorem exec_wrreg_osamp {v : Word} {s : State} (h : legalOsamp v.toNat (osampExponent s) = true) :
    exec (.wrreg 2#24 v) s = .next (okState 0#32 { s with osamp := v.extractLsb' 0 6 }) := by
  show writeOsamp v s = _
  rw [writeOsamp, if_pos h, respond_eq_okState]

theorem exec_wrreg_srate {v : Word} (h : legalPos v = true) (s : State) :
    exec (.wrreg 3#24 v) s = .next (okState 0#32 { s with srate := v }) := by
  show writeSrate v s = _
  rw [writeSrate, if_pos h, respond_eq_okState]

theorem exec_config {p : BitVec 5} {s : State} (h : configLegal Config.log2nMax p.toNat s = true) :
    exec (.config p) s = .next (okState 0#32 (configure p s)) := by
  show configCommand Config.log2nMax p s = _
  rw [configCommand, if_pos h, respond_eq_okState]

theorem configure_rover_toNat {p : BitVec 5} (hp : p.toNat ≤ 13) (s : State) :
    (configure p s).rover.toNat = 2 ^ p.toNat - 2 ^ p.toNat / s.osamp.toNat := by
  have hN : 2 ^ p.toNat ≤ 2 ^ 13 := Nat.pow_le_pow_right (by decide) hp
  exact Nat.mod_eq_of_lt ((Nat.sub_le _ _).trans_lt (by omega))

/-- The state SETUP configures: the two parameter registers written, each with its answer. -/
def setupState (osamp srate : Word) (s : State) : State :=
  okState 0#32 { okState 0#32 { s with osamp := osamp.extractLsb' 0 6 } with srate := srate }

/-- Settles O53: an unconfigured engine takes any legal factor, and CONFIG checks it against the frame. -/
theorem setupConfigures : Obligations.SetupConfigures := by
  intro s p osamp srate hcfgd hp1 hp13 hmem hle hs1 hs2
  have hosamp : legalOsamp osamp.toNat (osampExponent s) = true := by
    have h31 : osampExponent s = 31 := by rw [osampExponent, hcfgd]; rfl
    have hp31 : 2 ^ p.toNat ≤ 2 ^ 31 := Nat.pow_le_pow_right (by decide) (by omega)
    rw [h31]
    exact legalOsamp_iff.mpr ⟨hmem, hle.trans hp31⟩
  have hsrate : legalPos srate = true := by
    rw [legalPos, decide_eq_true hs1, decide_eq_true hs2]; rfl
  have hbits : (setupState osamp srate s).osamp.toNat = osamp.toNat := osamp_bits_toNat hosamp
  have hconfig : configLegal Config.log2nMax p.toNat (setupState osamp srate s) = true :=
    configLegal_iff.mpr ⟨legalOsamp_iff.mpr (by rw [hbits]; exact ⟨hmem, hle⟩), hsrate, hp1, hp13⟩
  refine ⟨okState 0#32 (configure p (setupState osamp srate s)), ?_, rfl, rfl, hbits, rfl, rfl, ?_⟩
  · exact runCommands_cons_of_ok (exec_wrreg_osamp hosamp)
      (runCommands_cons_of_ok (exec_wrreg_srate hsrate _)
        (runCommands_cons_of_ok (exec_config hconfig) rfl))
  · rw [← hbits]
    exact configure_rover_toNat hp13 _

end Sys2Proof.Machine
end

section
/-! PROOFS. The bit-reversal permutation and one butterfly stage over any store that reads back what was
written (40_transform.md R120). -/

namespace Sys2Proof.Machine

/-! ### Stores that read back what was written -/

/-- A read after a write gives the element written there and the old one elsewhere. -/
def Store.Lawful {σ α : Type} (S : Store σ α) : Prop :=
  ∀ (w : σ) (i j : Nat) (v : α), S.read (S.write w i v) j = if j = i then v else S.read w j

theorem memStore_lawful : memStore.Lawful := fun m i j v => Memory.read_write m i j v

theorem realStore_lawful : realStore.Lawful := fun w i j v => Function.update_apply w i v j

section Store
variable {σ α : Type} {S : Store σ α} {u v ws : σ} {i : Nat}

theorem Store.Lawful.read_write_self (hS : S.Lawful) (x : α) : S.read (S.write ws i x) i = x := by
  rw [hS, if_pos rfl]

theorem Store.Lawful.read_write_of_ne (hS : S.Lawful) (x : α) {j : Nat} (h : j ≠ i) :
    S.read (S.write ws i x) j = S.read ws j := by
  rw [hS, if_neg h]

/-- Two stores read the same at the indices of `P`. -/
def AgreeOn (S : Store σ α) (P : Nat → Prop) (u v : σ) : Prop := ∀ i, P i → S.read u i = S.read v i

theorem AgreeOn.write {P : Nat → Prop} (hS : S.Lawful) (h : AgreeOn S P u v) (i : Nat) (x : α) :
    AgreeOn S P (S.write u i x) (S.write v i x) := by
  intro j hj
  rw [hS, hS, h j hj]

end Store

/-! ### Bit reversal -/

theorem bitrev_two_mul (q c : Nat) : bitrev (q + 1) (2 * c) = bitrev q c := by
  rw [bitrev, Nat.mul_mod_right, Nat.mul_div_cancel_left c two_pos]; omega

theorem bitrev_two_mul_add_one (q c : Nat) : bitrev (q + 1) (2 * c + 1) = 2 ^ q + bitrev q c := by
  rw [bitrev, show (2 * c + 1) % 2 = 1 by omega, show (2 * c + 1) / 2 = c by omega, Nat.one_mul]

theorem bitrev_zero_right (p : Nat) : bitrev p 0 = 0 := by
  induction p with
  | zero => rfl
  | succ p ih => exact (bitrev_two_mul p 0).trans ih

/-- `bitrev_p` reverses the `p` bits (00_scope.md R8). -/
theorem testBit_bitrev {p b : Nat} (i : Nat) (hb : b < p) :
    (bitrev p i).testBit b = i.testBit (p - 1 - b) := by
  induction p generalizing i with
  | zero => omega
  | succ p ih =>
    rw [bitrev, Nat.mul_comm, Nat.testBit_two_pow_mul_add _ (bitrev_lt p _)]
    split
    · next hlt =>
      rw [ih _ hlt, Nat.testBit_div_two]
      congr 1
      omega
    · obtain rfl : b = p := by omega
      rw [Nat.sub_self, show b + 1 - 1 - b = 0 by omega, Nat.testBit_zero, Nat.testBit_zero, Nat.mod_mod]

/-- Reversing twice gives the index back. -/
theorem bitrev_bitrev {p i : Nat} (hi : i < 2 ^ p) : bitrev p (bitrev p i) = i := by
  refine Nat.eq_of_testBit_eq fun b => ?_
  by_cases hb : b < p
  · rw [testBit_bitrev _ hb, testBit_bitrev _ (by omega)]
    congr 1
    omega
  · have hp : 2 ^ p ≤ 2 ^ b := Nat.pow_le_pow_right two_pos (Nat.le_of_not_lt hb)
    rw [Nat.testBit_lt_two_pow ((bitrev_lt p _).trans_le hp), Nat.testBit_lt_two_pow (hi.trans_le hp)]

/-! ### Phase 1 -/

section Permutation
variable {σ α : Type} {S : Store σ α} {p : Nat}

theorem swapElems_read (hS : S.Lawful) (a b j : Nat) (ws : σ) :
    S.read (swapElems S a b ws) j = S.read ws (Equiv.swap a b j) := by
  rw [swapElems, hS, hS, Equiv.swap_apply_def]
  split_ifs <;> simp_all

/-- The exchange of pairs `a` and `b`: element `e` of pair `x` comes from the same place of its partner. -/
theorem swapPairs_read (hS : S.Lawful) (a b x : Nat) {e : Nat} (he : e < 2) (ws : σ) :
    S.read (swapElems S (2 * a + 1) (2 * b + 1) (swapElems S (2 * a) (2 * b) ws)) (2 * x + e) =
      S.read ws (2 * Equiv.swap a b x + e) := by
  rw [swapElems_read hS, swapElems_read hS]
  congr 1
  simp only [Equiv.swap_apply_def]
  split_ifs <;> omega

/-- Where the element of pair `x` comes from when the rounds up to `k` are done: a pair has been exchanged
with its partner once the smaller of the two indices has been met. -/
def permutedSource (p k x : Nat) : Nat := if x ≤ k ∨ bitrev p x ≤ k then bitrev p x else x

theorem permutedSource_zero {x : Nat} (hx : x < 2 ^ p) : permutedSource p 0 x = x := by
  unfold permutedSource
  split
  · next h =>
    have hinv := bitrev_bitrev hx
    rcases h with h | h
    · rw [Nat.le_zero.mp h, bitrev_zero_right]
    · rw [Nat.le_zero.mp h, bitrev_zero_right] at hinv
      omega
  · rfl

/-- The last pair is its own reversal, so the rounds stop before it. -/
theorem permutedSource_last {x : Nat} (hx : x < 2 ^ p) : permutedSource p (2 ^ p - 2) x = bitrev p x := by
  have hlt := bitrev_lt p x
  unfold permutedSource
  split
  · rfl
  · omega

/-- Round `k + 1` exchanges the pair with its partner if the partner comes later. -/
theorem permutedSource_succ {k x : Nat} (hk : k + 1 < 2 ^ p) (hx : x < 2 ^ p) :
    permutedSource p (k + 1) x = permutedSource p k
      (if k + 1 < bitrev p (k + 1) then Equiv.swap (k + 1) (bitrev p (k + 1)) x else x) := by
  have hround := bitrev_bitrev hk
  have hback := bitrev_bitrev hx
  unfold permutedSource
  by_cases hself : x = k + 1
  · subst hself
    rw [Equiv.swap_apply_left]
    split_ifs <;> omega
  · by_cases hpartner : x = bitrev p (k + 1)
    · subst hpartner
      rw [Equiv.swap_apply_right]
      split_ifs <;> omega
    · have hne : bitrev p x ≠ k + 1 := fun h => hpartner (by rw [← h, hback])
      rw [Equiv.swap_apply_of_ne_of_ne hself hpartner, ite_self]
      congr 1
      exact propext (by omega)

/-- Phase 1 moves pair `bitrev_p(x)` to pair `x` (40_transform.md R120). -/
theorem bitReversePairs_read (hS : S.Lawful) (ws : σ) {x e : Nat} (hx : x < 2 ^ p) (he : e < 2) :
    S.read (bitReversePairs S p ws) (2 * x + e) = S.read ws (2 * bitrev p x + e) := by
  rw [← permutedSource_last hx]
  refine loop_induct _ (P := fun k u => ∀ x, x < 2 ^ p →
    S.read u (2 * x + e) = S.read ws (2 * permutedSource p k x + e)) 1 (2 ^ p - 2) ws
    (fun x hx => by rw [permutedSource_zero hx]) (fun k u hk ih x hx => ?_) x hx
  have hlt := bitrev_lt p (k + 1)
  rw [permutedSource_succ (by omega) hx, Nat.add_comm 1 k]
  dsimp only
  split
  · have hswap : Equiv.swap (k + 1) (bitrev p (k + 1)) x < 2 ^ p := by
      rw [Equiv.swap_apply_def]
      split_ifs <;> omega
    rw [swapPairs_read hS _ _ _ he, ih _ hswap]
  · exact ih x hx

end Permutation

/-- What lies beyond the pairs of the transform, phase 1 leaves alone. -/
theorem bitReversePairs_read_beyond {σ α : Type} {S : Store σ α} (hS : S.Lawful) (p : Nat) (ws : σ) {i : Nat}
    (hi : 2 * 2 ^ p ≤ i) : S.read (bitReversePairs S p ws) i = S.read ws i :=
  bitReversePairs_keeps (P := fun u => S.read u i = S.read ws i) rfl fun u j v hj hu => by
    rw [hS.read_write_of_ne v (by omega), hu]

/-- Settles O22. -/
theorem bitReversalPermutes : Obligations.BitReversalPermutes :=
  ⟨fun p ws _ => ⟨fun hi => ⟨bitReversePairs_read memStore_lawful ws (p := p) (e := 0) hi (by decide),
      bitReversePairs_read memStore_lawful ws (e := 1) hi (by decide)⟩,
    bitReversePairs_read_beyond memStore_lawful p ws⟩,
  fun p i => ⟨bitrev_lt p i, fun _ => testBit_bitrev i⟩⟩

end Sys2Proof.Machine
end

section
/-! PROOFS. One stage of butterflies: every pair takes part in one butterfly, so the order of the rounds does
not matter (40_transform.md R120). -/

namespace Sys2Proof.Machine

/-! ### Rounds that keep to their own indices -/

/-- A loop whose round `k` writes only the indices it owns, from the elements at these indices: what stands
at an index of round `k` is what this round alone leaves there. -/
theorem loop_read_owner {σ α : Type} {S : Store σ α} {f : Nat → σ → σ} (owner : Nat → Nat) (n : Nat) (ws : σ)
    (hframe : ∀ k u i, k < n → owner i ≠ k → S.read (f k u) i = S.read u i)
    (hlocal : ∀ k u v, k < n → AgreeOn S (fun i => owner i = k) u v →
      AgreeOn S (fun i => owner i = k) (f k u) (f k v)) (i : Nat) :
    S.read (loop f 0 n ws) i = if owner i < n then S.read (f (owner i) ws) i else S.read ws i := by
  induction n generalizing i with
  | zero => rfl
  | succ n ih =>
    replace ih := ih (fun k u i hk => hframe k u i (by omega)) fun k u v hk => hlocal k u v (by omega)
    rw [loop_succ_last, Nat.zero_add]
    by_cases hi : owner i = n
    · have hagree : AgreeOn S (fun i => owner i = n) (loop f 0 n ws) ws := fun j hj => by
        rw [ih, if_neg (by omega)]
      rw [hlocal n _ ws (by omega) hagree i hi, hi, if_pos (by omega)]
    · rw [hframe n _ i (by omega) hi, ih]
      by_cases hlt : owner i < n
      · rw [if_pos hlt, if_pos (by omega)]
      · rw [if_neg hlt, if_neg (by omega)]

/-! ### One butterfly -/

section Butterfly
variable {σ α : Type} {A : Arith α} {S : Store σ α} {wr wi : α} {a d : Nat}

/-- `out` holds in the pairs `a` and `d` the four sums and differences of a butterfly on `ws`: the second pair is
multiplied by the twiddle, then subtracted from the first and added to it. -/
structure ButterflyResult (A : Arith α) (S : Store σ α) (wr wi : α) (a d : Nat) (ws out : σ) : Prop where
  subRe : S.read out (2 * d) = A.sub (S.read ws (2 * a))
    (A.sub (A.mul (S.read ws (2 * d)) wr) (A.mul (S.read ws (2 * d + 1)) wi))
  subIm : S.read out (2 * d + 1) = A.sub (S.read ws (2 * a + 1))
    (A.add (A.mul (S.read ws (2 * d)) wi) (A.mul (S.read ws (2 * d + 1)) wr))
  addRe : S.read out (2 * a) = A.add (S.read ws (2 * a))
    (A.sub (A.mul (S.read ws (2 * d)) wr) (A.mul (S.read ws (2 * d + 1)) wi))
  addIm : S.read out (2 * a + 1) = A.add (S.read ws (2 * a + 1))
    (A.add (A.mul (S.read ws (2 * d)) wi) (A.mul (S.read ws (2 * d + 1)) wr))

theorem butterfly_result (hS : S.Lawful) (had : a ≠ d) (ws : σ) :
    ButterflyResult A S wr wi a d ws (butterfly A S wr wi a d ws) where
  subRe := (hS.read_write_of_ne _ (by omega)).trans <| (hS.read_write_of_ne _ (by omega)).trans <|
    (hS.read_write_of_ne _ (by omega)).trans <| hS.read_write_self _
  subIm := (hS.read_write_of_ne _ (by omega)).trans <| (hS.read_write_of_ne _ (by omega)).trans <|
    hS.read_write_self _
  addRe := (hS.read_write_of_ne _ (by omega)).trans <| hS.read_write_self _
  addIm := hS.read_write_self _

/-- Only what stands in the two pairs counts. -/
theorem ButterflyResult.congr {ws out out' : σ} (h : ButterflyResult A S wr wi a d ws out)
    (heq : ∀ i, i / 2 = a ∨ i / 2 = d → S.read out' i = S.read out i) :
    ButterflyResult A S wr wi a d ws out' where
  subRe := (heq _ (by omega)).trans h.subRe
  subIm := (heq _ (by omega)).trans h.subIm
  addRe := (heq _ (by omega)).trans h.addRe
  addIm := (heq _ (by omega)).trans h.addIm

/-- A butterfly leaves the other pairs alone. -/
theorem butterfly_read_of_ne (hS : S.Lawful) (ws : σ) {i : Nat} (ha : i / 2 ≠ a) (hd : i / 2 ≠ d) :
    S.read (butterfly A S wr wi a d ws) i = S.read ws i :=
  butterfly_keeps (P := fun u => S.read u i = S.read ws i) rfl fun u j v hj hu => by
    rw [hS.read_write_of_ne v (by omega), hu]

/-- A butterfly reads its own two pairs only. -/
theorem butterfly_agreeOn (hS : S.Lawful) {P : Nat → Prop} {u v : σ} (h : AgreeOn S P u v)
    (ha : ∀ i, i / 2 = a → P i) (hd : ∀ i, i / 2 = d → P i) :
    AgreeOn S P (butterfly A S wr wi a d u) (butterfly A S wr wi a d v) := by
  unfold butterfly
  rw [h (2 * a) (ha _ (by omega)), h (2 * a + 1) (ha _ (by omega)), h (2 * d) (hd _ (by omega)),
    h (2 * d + 1) (hd _ (by omega))]
  exact (((h.write hS _ _).write hS _ _).write hS _ _).write hS _ _

end Butterfly

/-! ### One stage -/

section Stage
variable {σ α : Type} {A : Arith α} {S : Store σ α} {wr wi : α} {p t c j x : Nat}

theorem two_pow_eq_two_mul (ht : 1 ≤ t) : 2 ^ t = 2 * 2 ^ (t - 1) := by
  rw [← Nat.pow_succ', Nat.succ_eq_add_one, Nat.sub_add_cancel ht]

theorem two_pow_half (ht : 1 ≤ t) : 2 ^ t / 2 = 2 ^ (t - 1) := by
  rw [two_pow_eq_two_mul ht, Nat.mul_div_cancel_left _ two_pos]

/-- The butterfly of a pair is found from its index: the block of span `2^t`, and the offset in its half. -/
theorem block_offset_of_pair (ht : 1 ≤ t) (hj : j < 2 ^ t / 2)
    (hx : x = c * 2 ^ t + j ∨ x = c * 2 ^ t + j + 2 ^ t / 2) : x / 2 ^ t = c ∧ x % (2 ^ t / 2) = j := by
  have hspan := two_pow_eq_two_mul ht
  rw [two_pow_half ht] at hj hx ⊢
  constructor
  · obtain ⟨r, hr, rfl⟩ : ∃ r < 2 ^ t, x = 2 ^ t * c + r := by
      rw [Nat.mul_comm]
      rcases hx with rfl | rfl
      · exact ⟨j, by omega, rfl⟩
      · exact ⟨j + 2 ^ (t - 1), by omega, Nat.add_assoc _ _ _⟩
    rw [Nat.mul_add_div (by omega), Nat.div_eq_of_lt hr, Nat.add_zero]
  · obtain ⟨b, rfl⟩ : ∃ b, x = 2 ^ (t - 1) * b + j := by
      rw [hspan] at hx
      rcases hx with rfl | rfl
      · exact ⟨2 * c, by ring⟩
      · exact ⟨2 * c + 1, by ring⟩
    rw [Nat.mul_add_mod, Nat.mod_eq_of_lt hj]

/-- The rounds of a stage with one twiddle: the butterflies at offset `j` of every block. -/
def offsetRounds (A : Arith α) (S : Store σ α) (wr wi : α) (p t j : Nat) (ws : σ) : σ :=
  loop (fun c ws => butterfly A S wr wi (c * 2 ^ t + j) (c * 2 ^ t + j + 2 ^ t / 2) ws) 0 (2 ^ p / 2 ^ t) ws

theorem butterflyStage_eq (tw : Nat → α) (log2n : Nat) (dir : Dir) (ws : σ) :
    butterflyStage A S tw log2n p dir t ws =
      loop (fun j => offsetRounds A S (tw (2 * (j * (2 ^ log2n / 2 ^ t))))
        (twiddleIm A dir (tw (2 * (j * (2 ^ log2n / 2 ^ t)) + 1))) p t j) 0 (2 ^ t / 2) ws := rfl

/-- The butterflies at offset `j` leave the pairs at other offsets alone. -/
theorem offsetRounds_read_of_ne (hS : S.Lawful) (ht : 1 ≤ t) (hj : j < 2 ^ t / 2) (ws : σ) {i : Nat}
    (hi : i / 2 % (2 ^ t / 2) ≠ j) : S.read (offsetRounds A S wr wi p t j ws) i = S.read ws i :=
  loop_keeps _ (P := fun u => S.read u i = S.read ws i) _ _ _ rfl fun c u _ _ hu => by
    rw [butterfly_read_of_ne hS u (fun h => hi (block_offset_of_pair ht hj (.inl h)).2)
      (fun h => hi (block_offset_of_pair ht hj (.inr h)).2), hu]

/-- The butterflies at offset `j` read the pairs at this offset only. -/
theorem offsetRounds_agreeOn (hS : S.Lawful) (ht : 1 ≤ t) (hj : j < 2 ^ t / 2) {u v : σ}
    (h : AgreeOn S (fun i => i / 2 % (2 ^ t / 2) = j) u v) :
    AgreeOn S (fun i => i / 2 % (2 ^ t / 2) = j) (offsetRounds A S wr wi p t j u)
      (offsetRounds A S wr wi p t j v) :=
  loop_rel _ _ _ _ _ h fun _ _ _ _ _ huv => butterfly_agreeOn hS huv
    (fun _ hi => (block_offset_of_pair ht hj (.inl hi)).2)
    (fun _ hi => (block_offset_of_pair ht hj (.inr hi)).2)

/-- What the butterflies at offset `j` leave in a pair at this offset is what the one of its block leaves. -/
theorem offsetRounds_read (hS : S.Lawful) (ht : 1 ≤ t) (hj : j < 2 ^ t / 2) (hc : c < 2 ^ p / 2 ^ t)
    (ws : σ) {i : Nat} (hi : i / 2 / 2 ^ t = c) :
    S.read (offsetRounds A S wr wi p t j ws) i =
      S.read (butterfly A S wr wi (c * 2 ^ t + j) (c * 2 ^ t + j + 2 ^ t / 2) ws) i := by
  rw [offsetRounds, loop_read_owner (S := S) (fun i => i / 2 / 2 ^ t), if_pos (hi ▸ hc), hi]
  · exact fun k u i _ hk => butterfly_read_of_ne hS u
      (fun h => hk (block_offset_of_pair ht hj (.inl h)).1)
      (fun h => hk (block_offset_of_pair ht hj (.inr h)).1)
  · exact fun k u v _ huv => butterfly_agreeOn hS huv
      (fun i h => (block_offset_of_pair ht hj (.inl h)).1)
      (fun i h => (block_offset_of_pair ht hj (.inr h)).1)

/-- What a stage leaves in the two pairs of a butterfly is what this butterfly alone leaves there, from the
workspace before the stage (40_transform.md R120). -/
theorem butterflyStage_result (hS : S.Lawful) {log2n : Nat} (ht : 1 ≤ t) (htp : t ≤ p) (hp : p ≤ log2n)
    (hc : c < 2 ^ (p - t)) (hj : j < 2 ^ (t - 1)) (tw : Nat → α) (dir : Dir) (ws : σ) :
    ButterflyResult A S (tw (2 * (j * 2 ^ (log2n - t))))
      (twiddleIm A dir (tw (2 * (j * 2 ^ (log2n - t)) + 1)))
      (c * 2 ^ t + j) (c * 2 ^ t + j + 2 ^ (t - 1)) ws (butterflyStage A S tw log2n p dir t ws) := by
  have hpos := Nat.two_pow_pos (t - 1)
  refine (butterfly_result hS (by omega) ws).congr fun i hi => ?_
  rw [← two_pow_half ht] at hi hj ⊢
  rw [← Nat.pow_div htp two_pos] at hc
  rw [← Nat.pow_div (htp.trans hp) two_pos]
  obtain ⟨hblock, hoffset⟩ := block_offset_of_pair ht hj hi
  rw [butterflyStage_eq, loop_read_owner (S := S) (fun i => i / 2 % (2 ^ t / 2)), if_pos (hoffset ▸ hj), hoffset,
    offsetRounds_read hS ht hj hc ws hblock]
  · exact fun k u i hk => offsetRounds_read_of_ne hS ht hk u
  · exact fun k u v hk => offsetRounds_agreeOn hS ht hk

/-- What lies beyond the pairs of the transform, a stage leaves alone. -/
theorem butterflyStage_read_beyond (hS : S.Lawful) (ht : 1 ≤ t) (htp : t ≤ p) (tw : Nat → α) (log2n : Nat)
    (dir : Dir) (ws : σ) {i : Nat} (hi : 2 * 2 ^ p ≤ i) :
    S.read (butterflyStage A S tw log2n p dir t ws) i = S.read ws i :=
  butterflyStage_keeps (P := fun u => S.read u i = S.read ws i) ht htp rfl fun u j v hj hu => by
    rw [hS.read_write_of_ne v (by omega), hu]

end Stage

/-- Settles O23. -/
theorem butterflyStageResult : Obligations.ButterflyStageResult := by
  intro nm tw log2n p t dir ws ht htp hp
  refine ⟨fun c j hc hj => ?_, fun i => butterflyStage_read_beyond memStore_lawful ht htp tw log2n dir ws⟩
  obtain ⟨hsubRe, hsubIm, haddRe, haddIm⟩ :=
    butterflyStage_result (A := numArith nm) memStore_lawful ht htp hp hc hj tw dir ws
  cases dir with
  | fwd => exact ⟨hsubRe, hsubIm, haddRe, haddIm⟩
  | inv => exact ⟨hsubRe, hsubIm, haddRe, haddIm⟩

end Sys2Proof.Machine
end

section
/-! PROOFS. The command FFT: its answers, its frame and its purity (40_transform.md R121, R124). -/

namespace Sys2Proof.Machine

/-! ### The answers -/

theorem exec_fft_unconfigured (p : BitVec 5) (dir : Dir) {s : State} (h : s.cfgd = false) :
    exec (.fft p dir) s = .next (errorState .unconf s) := by
  show execFft p dir s = _
  rw [execFft, ifConfigured, if_neg (by simp [h]), raise_eq_errorState]

theorem exec_fft_range {p : BitVec 5} (dir : Dir) {s : State} (h : s.cfgd = true)
    (hp : s.log2n.toNat < p.toNat) : exec (.fft p dir) s = .next (errorState .range s) := by
  show execFft p dir s = _
  rw [execFft, ifConfigured, if_pos h, if_pos hp, raise_eq_errorState]

theorem exec_fft {p : BitVec 5} (dir : Dir) {s : State} (h : s.cfgd = true) (hp : p.toNat ≤ s.log2n.toNat) :
    exec (.fft p dir) s = .next (okState 0#32 (transform Config.numerics p.toNat dir s)) := by
  show execFft p dir s = _
  rw [execFft, ifConfigured, if_pos h, if_neg (by omega), respond_eq_okState]

/-! ### What the network leaves alone -/

section Network
variable {σ α : Type} {A : Arith α} {S : Store σ α} {p log2n : Nat}

/-- The elements beyond the pairs of the transform are not written. -/
theorem network_read_beyond (hS : S.Lawful) (tw : Nat → α) (log2n : Nat) (dir : Dir) (ws : σ) {i : Nat}
    (hi : 2 * 2 ^ p ≤ i) : S.read (network A S tw log2n p dir ws) i = S.read ws i :=
  network_keeps (P := fun u => S.read u i = S.read ws i) rfl fun u j v hj hu => by
    rw [hS.read_write_of_ne v (by omega), hu]

/-- A transform of one pair does nothing. -/
theorem network_zero (tw : Nat → α) (log2n : Nat) (dir : Dir) (ws : σ) :
    network A S tw log2n 0 dir ws = ws := rfl

/-- The twiddle index of a stage lies in the lower half of the frame (40_transform.md R120). -/
theorem twiddle_index_lt {t j : Nat} (ht : 1 ≤ t) (htn : t ≤ log2n) (hj : j < 2 ^ (t - 1)) :
    j * 2 ^ (log2n - t) < 2 ^ log2n / 2 := by
  have hhalf : 2 ^ log2n / 2 = 2 ^ (t - 1) * 2 ^ (log2n - t) := by
    rw [two_pow_half (by omega), ← Nat.pow_add]
    congr 1
    omega
  rw [hhalf]
  exact Nat.mul_lt_mul_of_pos_right hj (Nat.two_pow_pos _)

/-- The network reads the ROM below the frame size only. -/
theorem network_congr_rom {tw tw' : Nat → α} (hp : p ≤ log2n) (h : ∀ i, i < 2 ^ log2n → tw i = tw' i)
    (dir : Dir) (ws : σ) : network A S tw log2n p dir ws = network A S tw' log2n p dir ws := by
  refine loop_congr _ _ _ _ fun t u ht htp => ?_
  rw [butterflyStage_eq, butterflyStage_eq]
  refine loop_congr _ _ _ _ fun j u _ hj => ?_
  have hq := twiddle_index_lt (log2n := log2n) ht (by omega) (by rwa [← two_pow_half ht, ← Nat.zero_add (_ / 2)])
  rw [← Nat.pow_div (by omega) two_pos] at hq
  rw [h _ (by omega), h _ (by omega)]

end Network

/-- Settles O21. -/
theorem fftCommand : Obligations.FftCommand := by
  intro s p dir
  refine ⟨exec_fft_unconfigured p dir, exec_fft_range dir, fun h hp =>
    ⟨_, exec_fft dir h hp, rfl, rfl, fun i => ?_, fun hp0 => ?_⟩⟩
  · exact network_read_beyond memStore_lawful s.tw.read s.log2n.toNat dir s.ws
  · show network _ _ _ _ _ _ _ = _
    rw [hp0, network_zero]

/-- Settles O24: the network is the same function on both engines, and it reads and writes inside its pairs. -/
theorem fftReadsOnlyItsPairs : Obligations.FftReadsOnlyItsPairs := by
  intro s s' t t' p dir hs hs' hlog hp htw hws ht ht'
  obtain rfl := next_inj ((exec_fft dir hs hp).symm.trans ht)
  obtain rfl := next_inj ((exec_fft dir hs' (hlog ▸ hp)).symm.trans ht')
  show AgreeBelow _ (network _ _ _ _ _ _ _) (network _ _ _ _ _ _ _)
  rw [← hlog, network_congr_rom hp htw]
  exact network_agree hws

end Sys2Proof.Machine
end

section
/-! PROOFS. Over the real numbers with exact twiddles the butterfly network is the discrete Fourier transform
(40_transform.md R122, R123). -/

namespace Sys2Proof.Machine

/-! ### The discrete Fourier sum -/

/-- `Σ_{r<n} f r · ω^(r·k)`. -/
def fourierSum (ω : ℂ) (n : Nat) (f : Nat → ℂ) (k : Nat) : ℂ := ∑ r ∈ Finset.range n, f r * ω ^ (r * k)

theorem sum_range_two_mul (f : Nat → ℂ) (n : Nat) :
    ∑ r ∈ Finset.range (2 * n), f r = ∑ r ∈ Finset.range n, f (2 * r) + ∑ r ∈ Finset.range n, f (2 * r + 1) := by
  induction n with
  | zero => simp
  | succ n ih =>
    rw [Nat.mul_succ, Finset.sum_range_succ, Finset.sum_range_succ, ih, Finset.sum_range_succ,
      Finset.sum_range_succ]
    ring

/-- Decimation in time: the sum over the even places and, rotated, the sum over the odd places. -/
theorem fourierSum_two_mul (ω : ℂ) (n : Nat) (f : Nat → ℂ) (k : Nat) :
    fourierSum ω (2 * n) f k =
      fourierSum (ω ^ 2) n (fun r => f (2 * r)) k + ω ^ k * fourierSum (ω ^ 2) n (fun r => f (2 * r + 1)) k := by
  unfold fourierSum
  rw [sum_range_two_mul, Finset.mul_sum]
  congr 1 <;> refine Finset.sum_congr rfl fun r _ => ?_
  · rw [← pow_mul, Nat.mul_assoc]
  · rw [← pow_mul, Nat.add_mul, Nat.one_mul, pow_add, Nat.mul_assoc]
    ring

theorem fourierSum_add_order {ω : ℂ} {n : Nat} (hω : ω ^ n = 1) (f : Nat → ℂ) (k : Nat) :
    fourierSum ω n f (k + n) = fourierSum ω n f k := by
  refine Finset.sum_congr rfl fun r _ => ?_
  rw [Nat.mul_add, pow_add, Nat.mul_comm r n, pow_mul ω n, hω, one_pow, mul_one]

/-- Powers of a root of unity sum to nothing, but for the trivial power. -/
theorem sum_pow_eq_zero {η : ℂ} {n : Nat} (hn : η ^ n = 1) (h1 : η ≠ 1) : ∑ r ∈ Finset.range n, η ^ r = 0 := by
  rw [geom_sum_eq h1, hn, sub_self, zero_div]

/-- The sum with the inverse root undoes the sum with a primitive root, but for the factor `n`. -/
theorem fourierSum_inv {ω : ℂ} {n : Nat} (hω : IsPrimitiveRoot ω n) (f : Nat → ℂ) {k : Nat} (hk : k < n) :
    fourierSum ω n (fourierSum ω⁻¹ n f) k = n * f k := by
  have hterm : ∀ i ∈ Finset.range n, (∑ r ∈ Finset.range n, f i * ω⁻¹ ^ (i * r) * ω ^ (r * k)) =
      if i = k then n * f k else 0 := by
    intro i hi
    have hω0 : ω ≠ 0 := hω.ne_zero (by omega)
    have hpow : ∀ r, f i * ω⁻¹ ^ (i * r) * ω ^ (r * k) = f i * (ω⁻¹ ^ i * ω ^ k) ^ r := fun r => by
      rw [mul_pow, ← pow_mul, ← pow_mul, Nat.mul_comm k r, mul_assoc]
    simp only [hpow, ← Finset.mul_sum]
    split
    · next hik =>
      simp [hik, inv_pow, inv_mul_cancel₀ (pow_ne_zero k hω0), mul_comm]
    · next hik =>
      rw [sum_pow_eq_zero, mul_zero]
      · rw [mul_pow, ← pow_mul, ← pow_mul, Nat.mul_comm i, Nat.mul_comm k, pow_mul, pow_mul, inv_pow,
          hω.pow_eq_one, inv_one, one_pow, one_pow, mul_one]
      · intro h
        rw [inv_pow, inv_mul_eq_one₀ (pow_ne_zero i hω0)] at h
        exact hik (hω.pow_inj (Finset.mem_range.mp hi) hk h)
  have hexpand : ∀ r ∈ Finset.range n, fourierSum ω⁻¹ n f r * ω ^ (r * k) =
      ∑ i ∈ Finset.range n, f i * ω⁻¹ ^ (i * r) * ω ^ (r * k) := fun r _ => Finset.sum_mul _ _ _
  rw [fourierSum, Finset.sum_congr rfl hexpand, Finset.sum_comm, Finset.sum_congr rfl hterm,
    Finset.sum_ite_eq', if_pos (Finset.mem_range.mpr hk)]

/-! ### The kernel -/

/-- The root of unity of order `2^t` in the sense of the direction (40_transform.md R123). -/
noncomputable def kernelRoot (dir : Dir) (t : Nat) : ℂ :=
  Complex.exp (kernelSign dir * (2 * Real.pi * Complex.I / 2 ^ t))

theorem kernelRoot_pow (dir : Dir) (t k : Nat) :
    kernelRoot dir t ^ k = Complex.exp (kernelSign dir * (2 * Real.pi * Complex.I * k / 2 ^ t)) := by
  rw [kernelRoot, ← Complex.exp_nat_mul]
  congr 1
  ring

theorem kernelRoot_inv_isPrimitive (t : Nat) : IsPrimitiveRoot (kernelRoot .inv t) (2 ^ t) := by
  have h := Complex.isPrimitiveRoot_exp (2 ^ t) (by positivity)
  rwa [Nat.cast_pow, Nat.cast_ofNat, ← one_mul (2 * _ * _ / _)] at h

theorem kernelRoot_fwd (t : Nat) : kernelRoot .fwd t = (kernelRoot .inv t)⁻¹ := by
  rw [kernelRoot, kernelRoot, ← Complex.exp_neg, kernelSign, kernelSign, neg_one_mul, one_mul]

theorem kernelRoot_isPrimitive (dir : Dir) (t : Nat) : IsPrimitiveRoot (kernelRoot dir t) (2 ^ t) := by
  cases dir with
  | fwd => exact kernelRoot_fwd t ▸ (kernelRoot_inv_isPrimitive t).inv
  | inv => exact kernelRoot_inv_isPrimitive t

theorem kernelRoot_succ_sq (dir : Dir) (t : Nat) : kernelRoot dir (t + 1) ^ 2 = kernelRoot dir t := by
  rw [kernelRoot_pow, kernelRoot]
  congr 1
  rw [pow_succ]
  push_cast
  field_simp

/-- Half a turn is the factor -1. -/
theorem kernelRoot_succ_half (dir : Dir) (t : Nat) : kernelRoot dir (t + 1) ^ 2 ^ t = -1 :=
  ((kernelRoot_isPrimitive dir (t + 1)).pow (by positivity) (pow_succ 2 t)).eq_neg_one_of_two_right

/-- The twiddle of a stage is the power of its root (10_state.md R38; 40_transform.md R120). -/
theorem twiddle_eq_kernelRoot_pow {log2n t j : Nat} {tw : Nat → ℝ} (htw : exactTwiddles log2n tw) (dir : Dir)
    (ht : 1 ≤ t) (htn : t ≤ log2n) (hj : j < 2 ^ (t - 1)) :
    (tw (2 * (j * 2 ^ (log2n - t))) : ℂ) +
      (twiddleIm realArith dir (tw (2 * (j * 2 ^ (log2n - t)) + 1)) : ℝ) * Complex.I = kernelRoot dir t ^ j := by
  obtain ⟨hcos, hsin⟩ := htw _ (twiddle_index_lt ht htn hj)
  have hangle : 2 * Real.pi * ((j * 2 ^ (log2n - t) : Nat) : ℝ) / 2 ^ log2n = 2 * Real.pi * j / 2 ^ t := by
    rw [← pow_sub_mul_pow 2 htn]
    push_cast
    field_simp
  rw [hangle] at hcos hsin
  rw [hcos, hsin, kernelRoot_pow]
  cases dir with
  | fwd =>
    have hexp : kernelSign .fwd * (2 * Real.pi * Complex.I * j / 2 ^ t) =
        ((-(2 * Real.pi * j / 2 ^ t) : ℝ) : ℂ) * Complex.I := by
      rw [kernelSign]; push_cast; ring
    rw [hexp, Complex.exp_mul_I, ← Complex.ofReal_cos, ← Complex.ofReal_sin, Real.cos_neg, Real.sin_neg]
    rfl
  | inv =>
    have hexp : kernelSign .inv * (2 * Real.pi * Complex.I * j / 2 ^ t) =
        ((2 * Real.pi * j / 2 ^ t : ℝ) : ℂ) * Complex.I := by
      rw [kernelSign]; push_cast; ring
    rw [hexp, Complex.exp_mul_I, ← Complex.ofReal_cos, ← Complex.ofReal_sin]
    rfl

/-! ### A butterfly on complex numbers -/

section Butterfly
variable {wr wi : ℝ} {a d : Nat} {ws out : Nat → ℝ}

theorem ButterflyResult.realPair_sub (h : ButterflyResult realArith realStore wr wi a d ws out) :
    realPair out d = realPair ws a - (wr + wi * Complex.I) * realPair ws d := by
  have hre : out (2 * d) = ws (2 * a) - (ws (2 * d) * wr - ws (2 * d + 1) * wi) := h.subRe
  have him : out (2 * d + 1) = ws (2 * a + 1) - (ws (2 * d) * wi + ws (2 * d + 1) * wr) := h.subIm
  apply Complex.ext <;> simp [realPair, hre, him] <;> ring

theorem ButterflyResult.realPair_add (h : ButterflyResult realArith realStore wr wi a d ws out) :
    realPair out a = realPair ws a + (wr + wi * Complex.I) * realPair ws d := by
  have hre : out (2 * a) = ws (2 * a) + (ws (2 * d) * wr - ws (2 * d + 1) * wi) := h.addRe
  have him : out (2 * a + 1) = ws (2 * a + 1) + (ws (2 * d) * wi + ws (2 * d + 1) * wr) := h.addIm
  apply Complex.ext <;> simp [realPair, hre, him] <;> ring

end Butterfly

/-! ### The stages -/

section Stages
variable {log2n p t : Nat} {dir : Dir} {tw x w : Nat → ℝ}

/-- The part of the input that block `c` of stage `t` transforms: every `2^(p-t)`-th pair. -/
noncomputable def blockInput (x : Nat → ℝ) (p t c r : Nat) : ℂ := realPair x (r * 2 ^ (p - t) + bitrev (p - t) c)

/-- After stage `t` block `c` holds the Fourier sum of length `2^t` of its part of the input. -/
def BlocksTransformed (dir : Dir) (p : Nat) (x : Nat → ℝ) (t : Nat) (w : Nat → ℝ) : Prop :=
  ∀ c k, c < 2 ^ (p - t) → k < 2 ^ t →
    realPair w (c * 2 ^ t + k) = fourierSum (kernelRoot dir t) (2 ^ t) (blockInput x p t c) k

/-- The two halves of a block of the next stage are the even and the odd places of its input. -/
theorem blockInput_two_mul (htp : t < p) (c r : Nat) :
    blockInput x p t (2 * c) r = blockInput x p (t + 1) c (2 * r) := by
  obtain ⟨q, hq⟩ : ∃ q, p - t = q + 1 := ⟨p - t - 1, by omega⟩
  rw [blockInput, blockInput, hq, show p - (t + 1) = q by omega, bitrev_two_mul]
  ring_nf

theorem blockInput_two_mul_add_one (htp : t < p) (c r : Nat) :
    blockInput x p t (2 * c + 1) r = blockInput x p (t + 1) c (2 * r + 1) := by
  obtain ⟨q, hq⟩ : ∃ q, p - t = q + 1 := ⟨p - t - 1, by omega⟩
  rw [blockInput, blockInput, hq, show p - (t + 1) = q by omega, bitrev_two_mul_add_one]
  ring_nf

theorem fourierSum_one (ω : ℂ) (f : Nat → ℂ) (k : Nat) : fourierSum ω 1 f k = f 0 := by
  simp [fourierSum]

/-- Phase 1 puts the input of each block of one pair in its place. -/
theorem blocksTransformed_zero : BlocksTransformed dir p x 0 (bitReversePairs realStore p x) := by
  intro c k hc hk
  obtain rfl : k = 0 := by omega
  have hre := bitReversePairs_read realStore_lawful x hc (e := 0) (by decide)
  have him := bitReversePairs_read realStore_lawful x hc (e := 1) (by decide)
  rw [pow_zero, Nat.mul_one, Nat.add_zero, fourierSum_one, blockInput, Nat.zero_mul, Nat.zero_add]
  exact congrArg₂ (fun a b : ℝ => (a : ℂ) + (b : ℂ) * Complex.I) hre him

/-- A block of the next stage from the Fourier sums of its two halves. -/
theorem fourierSum_blockInput_succ (htp : t < p) (c k : Nat) :
    fourierSum (kernelRoot dir (t + 1)) (2 ^ (t + 1)) (blockInput x p (t + 1) c) k =
      fourierSum (kernelRoot dir t) (2 ^ t) (blockInput x p t (2 * c)) k +
        kernelRoot dir (t + 1) ^ k * fourierSum (kernelRoot dir t) (2 ^ t) (blockInput x p t (2 * c + 1)) k := by
  rw [pow_succ', fourierSum_two_mul, kernelRoot_succ_sq]
  simp only [← blockInput_two_mul htp, ← blockInput_two_mul_add_one htp]

/-- A stage combines the places `j` of two neighbouring blocks into the places `j` and `j + 2^t` of one. -/
theorem realPair_butterflyStage {c j : Nat} (htp : t < p) (hp : p ≤ log2n) (htw : exactTwiddles log2n tw)
    (dir : Dir) (w : Nat → ℝ) (hc : c < 2 ^ (p - (t + 1))) (hj : j < 2 ^ t) :
    realPair (butterflyStage realArith realStore tw log2n p dir (t + 1) w) (c * 2 ^ (t + 1) + j) =
      realPair w (2 * c * 2 ^ t + j) + kernelRoot dir (t + 1) ^ j * realPair w ((2 * c + 1) * 2 ^ t + j) ∧
    realPair (butterflyStage realArith realStore tw log2n p dir (t + 1) w) (c * 2 ^ (t + 1) + (j + 2 ^ t)) =
      realPair w (2 * c * 2 ^ t + j) - kernelRoot dir (t + 1) ^ j * realPair w ((2 * c + 1) * 2 ^ t + j) := by
  have ht : 1 ≤ t + 1 := Nat.le_add_left 1 t
  have hresult := butterflyStage_result (A := realArith) realStore_lawful ht htp hp hc hj tw dir w
  rw [← twiddle_eq_kernelRoot_pow htw dir ht (htp.trans_le hp) hj,
    show 2 * c * 2 ^ t + j = c * 2 ^ (t + 1) + j by ring,
    show (2 * c + 1) * 2 ^ t + j = c * 2 ^ (t + 1) + j + 2 ^ t by ring, ← Nat.add_assoc]
  exact ⟨hresult.realPair_add, hresult.realPair_sub⟩

theorem blocksTransformed_succ (htp : t < p) (hp : p ≤ log2n) (htw : exactTwiddles log2n tw)
    (h : BlocksTransformed dir p x t w) :
    BlocksTransformed dir p x (t + 1) (butterflyStage realArith realStore tw log2n p dir (t + 1) w) := by
  intro c k hc hk
  have hdouble : 2 ^ (p - t) = 2 * 2 ^ (p - (t + 1)) := by
    rw [← pow_succ']
    congr 1
    omega
  rw [fourierSum_blockInput_succ htp]
  by_cases hlow : k < 2 ^ t
  · rw [(realPair_butterflyStage htp hp htw dir w hc hlow).1, h _ _ (by omega) hlow, h _ _ (by omega) hlow]
  · obtain ⟨j, rfl⟩ := Nat.exists_eq_add_of_le' (Nat.le_of_not_lt hlow)
    have hj : j < 2 ^ t := by omega
    have hperiod := (kernelRoot_isPrimitive dir t).pow_eq_one
    rw [(realPair_butterflyStage htp hp htw dir w hc hj).2, h _ _ (by omega) hj, h _ _ (by omega) hj,
      fourierSum_add_order hperiod, fourierSum_add_order hperiod, pow_add, kernelRoot_succ_half]
    ring

/-- The network computes the Fourier sum of the whole input. -/
theorem realPair_network (hp : p ≤ log2n) (htw : exactTwiddles log2n tw) (dir : Dir) (x : Nat → ℝ) {k : Nat}
    (hk : k < 2 ^ p) : realPair (network realArith realStore tw log2n p dir x) k =
      fourierSum (kernelRoot dir p) (2 ^ p) (realPair x) k := by
  have hstages : BlocksTransformed dir p x p (network realArith realStore tw log2n p dir x) :=
    loop_induct _ (P := BlocksTransformed dir p x) 1 p _ blocksTransformed_zero fun t u ht hu =>
      Nat.add_comm 1 t ▸ blocksTransformed_succ ht hp htw hu
  have h := hstages 0 k (Nat.two_pow_pos _) hk
  have hinput : blockInput x p p 0 = realPair x := by
    funext r
    rw [blockInput, bitrev_zero_right, Nat.sub_self, pow_zero, Nat.mul_one, Nat.add_zero]
  rwa [Nat.zero_mul, Nat.zero_add, hinput] at h

end Stages

theorem fourierSum_kernelRoot (dir : Dir) (p : Nat) (f : Nat → ℂ) (k : Nat) :
    fourierSum (kernelRoot dir p) (2 ^ p) f k = ∑ j ∈ Finset.range (2 ^ p), f j *
      Complex.exp (kernelSign dir * (2 * Real.pi * Complex.I * (j * k) / 2 ^ p)) := by
  refine Finset.sum_congr rfl fun j _ => ?_
  rw [kernelRoot_pow, Nat.cast_mul]

/-- Settles O25, by induction on the stages. -/
theorem networkIsFourierTransform : Obligations.NetworkIsFourierTransform :=
  fun _ p dir _ x hp htw k hk =>
    (realPair_network hp htw dir x hk).trans (fourierSum_kernelRoot dir p (realPair x) k)

/-! ### There and back -/

theorem realPair_roundTrip {log2n p : Nat} {tw : Nat → ℝ} (hp : p ≤ log2n) (htw : exactTwiddles log2n tw)
    (x : Nat → ℝ) {k : Nat} (hk : k < 2 ^ p) :
    realPair (network realArith realStore tw log2n p .inv (network realArith realStore tw log2n p .fwd x)) k =
      (2 ^ p : ℝ) * realPair x k := by
  have hfwd : ∀ r ∈ Finset.range (2 ^ p), realPair (network realArith realStore tw log2n p .fwd x) r *
      kernelRoot .inv p ^ (r * k) = fourierSum (kernelRoot .inv p)⁻¹ (2 ^ p) (realPair x) r *
      kernelRoot .inv p ^ (r * k) := fun r hr => by
    rw [realPair_network hp htw .fwd x (Finset.mem_range.mp hr), kernelRoot_fwd]
  rw [realPair_network hp htw .inv _ hk, fourierSum, Finset.sum_congr rfl hfwd]
  have h := fourierSum_inv (kernelRoot_inv_isPrimitive p) (realPair x) hk
  rw [fourierSum] at h
  rw [h]
  push_cast
  rfl

theorem realPair_re (w : Nat → ℝ) (j : Nat) : (realPair w j).re = w (2 * j) := by simp [realPair]

theorem realPair_im (w : Nat → ℝ) (j : Nat) : (realPair w j).im = w (2 * j + 1) := by simp [realPair]

/-- Settles O26: the real and the imaginary part of `realPair_roundTrip`. -/
theorem transformRoundTrip : Obligations.TransformRoundTrip := by
  intro log2n p tw x hp htw i hi
  have h := realPair_roundTrip hp htw x (k := i / 2) (by omega)
  rcases Nat.mod_two_eq_zero_or_one i with hpar | hpar
  · have hre := congrArg Complex.re h
    rwa [Complex.re_ofReal_mul, realPair_re, realPair_re, show 2 * (i / 2) = i by omega] at hre
  · have him := congrArg Complex.im h
    rwa [Complex.im_ofReal_mul, realPair_im, realPair_im, show 2 * (i / 2) + 1 = i by omega] at him

end Sys2Proof.Machine
end

section
/-! PROOFS. The commands CYCLE and PUSH (41_stream_driver.md R141, R143, R145). -/

namespace Sys2Proof.Machine

/-! ### The stages do not see the response -/

/-- A loop whose rounds do not see the response does not see it. -/
theorem loop_okState {f : Nat → State → State} (v : Word) (lo n : Nat) (s : State)
    (h : ∀ k t, f k (okState v t) = okState v (f k t)) :
    loop f lo n (okState v s) = okState v (loop f lo n s) :=
  (loop_map f (okState v) lo n s fun k t _ _ => (h k t).symm).symm

section Stages
variable (nm : Numerics) (v : Word) (s : State)

theorem remap_okState : remap nm (okState v s) = okState v (remap nm s) := by
  have hclear : clearSynthesis (okState v s) = okState v (clearSynthesis s) :=
    loop_okState v _ _ s fun _ _ => rfl
  have hbin : ∀ k t, remapBin nm k (okState v t) = okState v (remapBin nm k t) := by
    intro k t
    change (destBin nm t.ratio (frameSize t / 2) k).elim _ _ = okState v (Option.elim _ _ _)
    cases destBin nm t.ratio (frameSize t / 2) k <;> rfl
  unfold remap
  rw [hclear]
  exact loop_okState v _ _ _ hbin

theorem synthesize_okState : synthesize nm (okState v s) = okState v (synthesize nm s) := by
  have hbins : loop (synthBin nm) 0 (frameSize s / 2 + 1) (okState v s) =
      okState v (loop (synthBin nm) 0 (frameSize s / 2 + 1) s) :=
    loop_okState v _ _ s fun _ _ => rfl
  have hmirror : ∀ t, zeroMirror (okState v t) = okState v (zeroMirror t) :=
    fun t => loop_okState v _ _ t fun _ _ => rfl
  change transform nm _ .inv (zeroMirror (loop (synthBin nm) 0 (frameSize s / 2 + 1) _)) = _
  rw [hbins, hmirror]
  rfl

theorem overlapAdd_okState : overlapAdd nm (okState v s) = okState v (overlapAdd nm s) := by
  have haccumulate : olaAccumulate nm (okState v s) = okState v (olaAccumulate nm s) :=
    loop_okState v _ _ s fun _ _ => rfl
  unfold overlapAdd
  rw [haccumulate]
  simp only [olaEmit_eq, olaShiftAcc_eq, olaShiftInput_eq]
  rfl

end Stages

/-! ### The commands on a configured engine -/

section Exec
variable {s : State} (h : s.cfgd = true)
include h

/-- A command whose stage does not see the response, after another command. -/
theorem next_of_stage_okState {F : State → State} {w : Word} (hF : F (okState w s) = okState w (F s)) :
    ifConfigured (okState w s) (respond 0#32 (F (okState w s))) = .next (okState 0#32 (F s)) := by
  rw [ifConfigured_of_cfgd (s := okState w s) h, hF]
  rfl

theorem exec_analyze : exec .analyze s = .next (okState 0#32 (analyze Config.numerics s)) :=
  ifConfigured_of_cfgd h _

theorem exec_remap_okState (w : Word) :
    exec .remap (okState w s) = .next (okState 0#32 (remap Config.numerics s)) :=
  next_of_stage_okState h (remap_okState _ w s)

theorem exec_synth_okState (w : Word) :
    exec .synth (okState w s) = .next (okState 0#32 (synthesize Config.numerics s)) :=
  next_of_stage_okState h (synthesize_okState _ w s)

theorem exec_ola_okState (w : Word) :
    exec .ola (okState w s) = .next (okState 0#32 (overlapAdd Config.numerics s)) :=
  next_of_stage_okState h (overlapAdd_okState _ w s)

theorem exec_cycle :
    exec .cycle s = .next (okState 0#32 { cycle Config.numerics s with cyc := true }) :=
  ifConfigured_of_cfgd h _

theorem exec_push (v : Word) : exec (.push v) s =
    .next (okState (s.outfifo.read (outIndex s)) (pushSample Config.numerics v s)) :=
  ifConfigured_of_cfgd h _

end Exec

/-- Settles O38: no stage sees the response the stage before it left. -/
theorem cycleIsFourStages : Obligations.CycleIsFourStages := by
  intro s hc
  have hana := (analyze_writes Config.numerics s).sameRegisters.cfgd.trans hc
  have hremap := (remap_writes Config.numerics _).sameRegisters.cfgd.trans hana
  have hsynth := (synthesize_writes Config.numerics _).sameRegisters.cfgd.trans hremap
  exact ⟨_, _, _, okState 0#32 (cycle Config.numerics s), exec_analyze hc, exec_remap_okState hana _,
    exec_synth_okState hremap _, exec_ola_okState hsynth _, exec_cycle hc,
    congrArg (okState 0#32) (cycle_frame _ s)⟩

/-- Settles O39: the state `u` is the one with the sample stored, on both branches of PUSH. -/
theorem pushResult : Obligations.PushResult := by
  intro s v hc
  refine ⟨memWrite s .infifo s.rover.toNat v, rfl,
    fun i => Memory.read_write s.infifo s.rover.toNat i v, fun hr => ?_, fun hr => ?_⟩
  · rcases pushSample_cases Config.numerics v s with ⟨-, heq⟩ | ⟨hge, -⟩
    · rw [exec_push hc, heq]; rfl
    · exact absurd hr (Nat.not_lt.mpr hge)
  · rcases pushSample_cases Config.numerics v s with ⟨hlt, -⟩ | ⟨-, heq⟩
    · exact absurd hlt (Nat.not_lt.mpr hr)
    · exact ⟨_, exec_cycle hc, by rw [exec_push hc, heq]; rfl⟩

end Sys2Proof.Machine
end

section
/-! PROOFS. The cadence of the stream: cursor, CYC, input buffer and responses over any number of pushes
(41_stream_driver.md R143, R147, R150; 10_state.md R32). -/

namespace Sys2Proof.Machine

/-! ### What the stream sees of one command -/

theorem overlapAdd_infifo (nm : Numerics) (s : State) :
    (overlapAdd nm s).infifo = shiftDown (hopSize s) (latency s) s.infifo := by
  unfold overlapAdd
  rw [olaAccumulate_eq, olaEmit_eq, olaShiftAcc_eq, olaShiftInput_eq]
  rfl

/-- A cycle moves the input buffer down by one hop (44_synth_ola.md R199). -/
theorem infifo_cycle_read (nm : Numerics) (s : State) {k : Nat} (hk : k < latency s) :
    (cycle nm s).infifo.read k = s.infifo.read (k + hopSize s) := by
  unfold cycle
  rw [overlapAdd_infifo, synthesize_frame, remap_frame, analyze_frame]
  exact (read_shiftDown _ _ _ _).trans (if_pos hk)

/-- ROVER holds every cursor of the frame exactly (10_state.md R27). -/
theorem Inv.ofNat_cursor_toNat {s : State} (h : Inv s) (hc : s.cfgd = true) {r : Nat}
    (hr : r < frameSize s) : (BitVec.ofNat 32 r).toNat = r := by
  obtain ⟨-, hmax, -⟩ := h.frame hc
  have hsize : frameSize s ≤ 2 ^ 13 := Nat.pow_le_pow_right two_pos hmax
  rw [BitVec.toNat_ofNat, Nat.mod_eq_of_lt (by omega)]

/-- From a cursor at `L + j` PUSH answers with element `j` of OUTFIFO (41_stream_driver.md R143). -/
theorem outIndex_of_rover {s : State} {j : Nat} (hr : s.rover.toNat = latency s + j)
    (hj : j < frameSize s) : outIndex s = j := by
  unfold outIndex
  rw [hr, Nat.cast_add, add_sub_cancel_left, ← Int.natCast_mod, Int.toNat_natCast, Nat.mod_eq_of_lt hj]

/-! ### The samples that have entered the engine -/

/-- The samples of a stream, oldest first: the `L` samples in INFIFO at its start, then the samples pushed. -/
def streamElem (s : State) (ws : List Word) (i : Nat) : Num :=
  if i < latency s then s.infifo.read i else ws.getD (i - latency s) 0#32

theorem streamElem_snoc_of_lt (s : State) (ws : List Word) (v : Word) {i : Nat}
    (hi : i < ws.length + latency s) : streamElem s (ws ++ [v]) i = streamElem s ws i := by
  unfold streamElem
  split
  · rfl
  · rw [List.getD_append _ _ _ _ (by omega)]

theorem streamElem_snoc_last (s : State) (ws : List Word) (v : Word) :
    streamElem s (ws ++ [v]) (ws.length + latency s) = v := by
  unfold streamElem
  rw [if_neg (by omega), Nat.add_sub_cancel, List.getD_append_right _ _ _ _ le_rfl, Nat.sub_self]
  rfl

/-! ### The state after any number of pushes -/

/-- Where the pushes `ws` lead from a state `s` with its cursor at `L`: the invariant that every push keeps.
OUTFIFO is written by the cycle only, so it keeps its contents during the first hop. -/
structure Cadence (s : State) (ws : List Word) (t : State) : Prop where
  inv : Inv t
  setup : SameSetup s t
  rover : t.rover.toNat = latency s + ws.length % hopSize s
  cyc : ws ≠ [] → t.cyc = decide (ws.length % hopSize s = 0)
  infifo : ∀ k : Nat, k < t.rover.toNat →
    t.infifo.read k = streamElem s ws (ws.length + latency s - t.rover.toNat + k)
  outfifo : ws.length < hopSize s → t.outfifo = s.outfifo

section Step
variable {s t : State} {ws : List Word}

theorem Cadence.start (h : Inv s) (hr : s.rover.toNat = latency s) : Cadence s [] s where
  inv := h
  setup := ⟨rfl, rfl, rfl, rfl, rfl, rfl, rfl⟩
  rover := by rw [hr, List.length_nil, Nat.zero_mod, Nat.add_zero]
  cyc := fun hne => absurd rfl hne
  infifo := fun k hk => by
    rw [List.length_nil, hr, Nat.zero_add, Nat.sub_self, Nat.zero_add, streamElem, if_pos (hr ▸ hk)]
  outfifo := fun _ => rfl

/-- The end of a command leaves the place in the stream. -/
theorem Cadence.okState (h : Cadence s ws t) (y : Word) : Cadence s ws (okState y t) where
  inv := h.inv.okState y
  setup := h.setup.trans ⟨rfl, rfl, rfl, rfl, rfl, rfl, rfl⟩
  rover := h.rover
  cyc := h.cyc
  infifo := h.infifo
  outfifo := h.outfifo

/-- With the new sample stored, INFIFO holds the most recent samples up to the cursor itself. -/
theorem Cadence.stored (h : Cadence s ws t) (v : Word) {k : Nat} (hk : k ≤ t.rover.toNat) :
    (t.infifo.write t.rover.toNat v).read k =
      streamElem s (ws ++ [v]) (ws.length + latency s - t.rover.toNat + k) := by
  have hle : t.rover.toNat ≤ ws.length + latency s := by
    have hmod := Nat.mod_le ws.length (hopSize s)
    have hr := h.rover
    omega
  rw [Memory.read_write]
  split
  · next heq => rw [heq, Nat.sub_add_cancel hle, streamElem_snoc_last]
  · rw [h.infifo k (by omega), streamElem_snoc_of_lt _ _ _ (by omega)]

/-- A push inside a hop: one more sample below the cursor. -/
theorem Cadence.push_inside (h : Cadence s ws t) (hc : s.cfgd = true) (v : Word)
    (hlt : t.rover.toNat + 1 < frameSize t)
    (heq : pushSample Config.numerics v t = { memWrite t .infifo t.rover.toNat v with
      rover := BitVec.ofNat 32 (t.rover.toNat + 1), cyc := false }) :
    Cadence s (ws ++ [v]) (pushSample Config.numerics v t) := by
  have hct : t.cfgd = true := h.setup.cfgd.trans hc
  have hmod : (ws ++ [v]).length % hopSize s = ws.length % hopSize s + 1 := by
    have hr := h.rover
    have hsize := (derived_congr h.setup.log2n h.setup.osamp).1
    have hsum := latency_add_hopSize s
    rw [List.length_append, ← Nat.mod_add_mod, List.length_singleton, Nat.mod_eq_of_lt (by omega)]
  have hcursor : (pushSample Config.numerics v t).rover.toNat = t.rover.toNat + 1 := by
    rw [heq]
    exact h.inv.ofNat_cursor_toNat hct hlt
  constructor
  case inv => exact h.inv.pushSample _ v hct
  case setup => exact h.setup.trans (pushSample_sameSetup _ v t)
  case rover => rw [hcursor, hmod, h.rover, Nat.add_assoc]
  case cyc => rw [heq, hmod]; simp
  case infifo =>
    intro k hk
    rw [hcursor] at hk ⊢
    rw [List.length_append, List.length_singleton, Nat.add_right_comm, Nat.add_sub_add_right, heq]
    exact h.stored v (by omega)
  case outfifo =>
    rw [List.length_append, heq]
    exact fun hl => h.outfifo (by omega)

/-- A push at the end of a hop: the cycle moves the samples down, and the cursor with them. -/
theorem Cadence.push_last (h : Cadence s ws t) (hc : s.cfgd = true) (v : Word)
    (hge : frameSize t ≤ t.rover.toNat + 1)
    (heq : pushSample Config.numerics v t = { cycle Config.numerics
      { memWrite t .infifo t.rover.toNat v with rover := BitVec.ofNat 32 (latency t) } with cyc := true }) :
    Cadence s (ws ++ [v]) (pushSample Config.numerics v t) := by
  have hct : t.cfgd = true := h.setup.cfgd.trans hc
  have hlegal := h.inv.legalOsamp hct
  obtain ⟨hsize, hhop, hlat⟩ := derived_congr h.setup.log2n h.setup.osamp
  have hr := h.rover
  have hsum := latency_add_hopSize s
  have hfull : ws.length % hopSize s + 1 = hopSize s := by
    have hlt := Nat.mod_lt ws.length (hhop ▸ hopSize_pos hlegal : 0 < hopSize s)
    omega
  have hle := Nat.mod_le ws.length (hopSize s)
  have hmod : (ws ++ [v]).length % hopSize s = 0 := by
    rw [List.length_append, ← Nat.mod_add_mod, List.length_singleton, hfull, Nat.mod_self]
  have hcursor : (pushSample Config.numerics v t).rover.toNat = latency s := by
    rw [heq, ← hlat]
    dsimp only
    rw [cycle_rover]
    exact h.inv.ofNat_cursor_toNat hct (latency_lt hlegal)
  constructor
  case inv => exact h.inv.pushSample _ v hct
  case setup => exact h.setup.trans (pushSample_sameSetup _ v t)
  case rover => rw [hcursor, hmod, Nat.add_zero]
  case cyc => rw [heq, hmod]; exact fun _ => rfl
  case infifo =>
    intro k hk
    rw [hcursor] at hk ⊢
    have hread : (pushSample Config.numerics v t).infifo.read k =
        (t.infifo.write t.rover.toNat v).read (k + hopSize t) := by
      rw [heq]
      exact infifo_cycle_read _ _ (hk.trans_eq hlat.symm)
    rw [hread, hhop, h.stored v (by omega), List.length_append, List.length_singleton]
    congr 1
    omega
  case outfifo =>
    rw [List.length_append, List.length_singleton]
    exact fun hl => absurd hl (by omega)

/-- One more push, wherever in the hop. -/
theorem Cadence.push (h : Cadence s ws t) (hc : s.cfgd = true) (v : Word) :
    Cadence s (ws ++ [v]) (pushSample Config.numerics v t) := by
  rcases pushSample_cases Config.numerics v t with ⟨hlt, heq⟩ | ⟨hge, heq⟩
  · exact h.push_inside hc v hlt heq
  · exact h.push_last hc v hge heq

/-- The response to the next push, while the first hop lasts. -/
theorem Cadence.outfifo_read (h : Cadence s ws t) (hl : ws.length < hopSize s) :
    t.outfifo.read (outIndex t) = s.outfifo.read ws.length := by
  obtain ⟨hsize, -, hlat⟩ := derived_congr h.setup.log2n h.setup.osamp
  have hrover : t.rover.toNat = latency t + ws.length := by
    rw [h.rover, hlat, Nat.mod_eq_of_lt hl]
  rw [outIndex_of_rover hrover (hsize ▸ hl.trans_le (hopSize_le s)), h.outfifo hl]

end Step

/-! ### Lists of pushes -/

/-- A push that answers is followed by the rest of the list. -/
theorem pushAll_cons {v y : Word} {s t u : State} {vs : List Word} {rs : List Response}
    (h : exec (.push v) s = .next (okState y t)) (hrest : pushAll vs (okState y t) = some (u, rs)) :
    pushAll (v :: vs) s = some (u, ⟨0#4, y⟩ :: rs) := by
  have hresp : (okState y t).resp = some ⟨0#4, y⟩ := rfl
  simp only [pushAll, h, hresp, hrest]

/-- Any list of pushes answers and keeps the cadence; inside the first hop the responses are the elements of
OUTFIFO, in order. -/
theorem Cadence.pushAll {s : State} (hc : s.cfgd = true) (vs : List Word) :
    ∀ {ws : List Word} {t : State}, Cadence s ws t → ∃ (u : State) (rs : List Response),
      pushAll vs t = some (u, rs) ∧ Cadence s (ws ++ vs) u ∧ rs.length = vs.length ∧
      (∀ r ∈ rs, r.code = 0#4) ∧
      ∀ j : Nat, j < vs.length → ws.length + j < hopSize s →
        rs[j]? = some ⟨0#4, s.outfifo.read (ws.length + j)⟩ := by
  induction vs with
  | nil =>
    intro ws t h
    exact ⟨t, [], rfl, by rwa [List.append_nil], rfl, nofun, nofun⟩
  | cons v vs ih =>
    intro ws t h
    obtain ⟨u, rs, hrun, hu, hlen, hcodes, hreads⟩ :=
      ih ((h.push hc v).okState (t.outfifo.read (outIndex t)))
    refine ⟨u, _, pushAll_cons (exec_push (h.setup.cfgd.trans hc) v) hrun, by simpa using hu,
      congrArg (· + 1) hlen, ?_, ?_⟩
    · intro r hr
      rcases List.mem_cons.mp hr with rfl | hr
      · rfl
      · exact hcodes r hr
    · intro j hj hhop
      cases j with
      | zero => rw [List.getElem?_cons_zero, h.outfifo_read hhop, Nat.add_zero]
      | succ j =>
        have hread := hreads j (Nat.lt_of_succ_lt_succ hj)
        rw [List.length_append, List.length_singleton, Nat.add_assoc, Nat.add_comm 1] at hread
        exact hread hhop

/-- Settles O40: one hop, read off its cadence. -/
theorem hopOfPushes : Obligations.HopOfPushes := by
  intro s vs h hc hr hlen
  obtain ⟨t, rs, hrun, ht, hrs, -, hreads⟩ := (Cadence.start h hr).pushAll hc vs
  have hpos := hopSize_pos (h.legalOsamp hc)
  have hmod : vs.length % hopSize s = 0 := by rw [hlen, Nat.mod_self]
  have hne : vs ≠ [] := List.ne_nil_of_length_pos (hlen ▸ hpos)
  refine ⟨t, rs, hrun, ?_, ?_, ht.setup.cfgd.trans hc, ht.setup.log2n, ht.setup.osamp, ht.setup.srate,
    ht.setup.ratio, hrs.trans hlen, fun j hj => ?_⟩
  · have hrover := ht.rover
    rwa [List.nil_append, hmod] at hrover
  · have hcyc := ht.cyc hne
    rwa [List.nil_append, hmod, decide_eq_true rfl] at hcyc
  · have hread := hreads j (hlen ▸ hj)
    rw [List.length_nil, Nat.zero_add] at hread
    exact hread hj

/-- Settles O41: the cadence from the start of the stream. -/
theorem streamCadence : Obligations.StreamCadence := by
  intro s vs h hc hr
  obtain ⟨t, rs, hrun, ht, hrs, hcodes, -⟩ := (Cadence.start h hr).pushAll hc vs
  exact ⟨t, rs, hrun, hrs, ht.rover, ht.cyc, hcodes, ht.infifo⟩

end Sys2Proof.Machine
end

section
/-! PROOFS. The command ANALYZE, element by element (42_analyzer.md R161 to R165). -/

namespace Sys2Proof.Machine

section Bins
variable (nm : Numerics) (s : State)

/-! ### The windowed frame -/

/-- One round of step 1 of `Analyze`, on the workspace (42_analyzer.md R162). -/
def windowElem (k : Nat) (m : Memory) : Memory :=
  (m.write (2 * k) (numMul nm (s.infifo.read k) (s.win.read k))).write (2 * k + 1) numZero

theorem windowElem_read (k : Nat) (m : Memory) (i : Nat) : (windowElem nm s k m).read i =
    if i / 2 = k then
      if i % 2 = 0 then numMul nm (s.infifo.read k) (s.win.read k) else numZero
    else m.read i := by
  unfold windowElem
  rw [Memory.read_write, Memory.read_write]
  grind

theorem windowFrame_ws : (windowFrame nm s).ws = loop (windowElem nm s) 0 (frameSize s) s.ws := by
  rw [windowFrame_eq]
  rfl

/-- What the workspace reads once the frame is windowed into it (42_analyzer.md R162). -/
theorem windowFrame_ws_read (i : Nat) : (windowFrame nm s).ws.read i =
    if i / 2 < frameSize s then
      if i % 2 = 0 then numMul nm (s.infifo.read (i / 2)) (s.win.read (i / 2)) else numZero
    else s.ws.read i := by
  have hread := loop_read_owner (S := memStore) (f := windowElem nm s) (· / 2) (frameSize s) s.ws
    (fun k u i _ hi => (windowElem_read nm s k u i).trans (if_neg hi))
    (fun k u v _ _ i hi => by simp only [memStore, windowElem_read, hi, if_true]) i
  rw [windowFrame_ws]
  refine hread.trans ?_
  simp only [memStore, windowElem_read, if_true]

/-! ### The bins -/

/-- The three memories that step 4 of `Analyze` writes, as one store of triples. -/
def binStore : Store (Memory × Memory × Memory) (Num × Num × Num) where
  read x i := (x.1.read i, x.2.1.read i, x.2.2.read i)
  write x i v := (x.1.write i v.1, x.2.1.write i v.2.1, x.2.2.write i v.2.2)

theorem binStore_lawful : binStore.Lawful := fun x i j v => by
  simp only [binStore, Memory.read_write]
  split <;> rfl

theorem of_binStore_read_eq {x : Memory × Memory × Memory} {k : Nat} {v : Num × Num × Num}
    (h : binStore.read x k = v) : x.1.read k = v.1 ∧ x.2.1.read k = v.2.1 ∧ x.2.2.read k = v.2.2 := by
  subst h
  exact ⟨rfl, rfl, rfl⟩

/-- Phase, magnitude and true frequency of bin `k`, `last` its phase in the previous cycle
(42_analyzer.md R165). -/
def binElems (k : Nat) (last : Num) : Num × Num × Num :=
  let re := s.ws.read (2 * k)
  let im := s.ws.read (2 * k + 1)
  (numAtan2 nm im re, binMagnitude nm re im, binFrequency nm s k (numAtan2 nm im re) last)

/-- One round of step 4 of `Analyze` is one write of a triple. -/
theorem analyzeMems_eq (k : Nat) (x : Memory × Memory × Memory) :
    analyzeMems nm s k x = binStore.write x k (binElems nm s k (x.1.read k)) := rfl

theorem binStore_read_analyzeMems (k : Nat) (x : Memory × Memory × Memory) (i : Nat) :
    binStore.read (analyzeMems nm s k x) i =
      if i = k then binElems nm s k (x.1.read k) else binStore.read x i := by
  rw [analyzeMems_eq]
  exact binStore_lawful x k i _

/-- The bins are independent: each is computed from the spectrum and its own phase in the previous cycle
(42_analyzer.md R165). -/
theorem loop_analyzeMems_read (n : Nat) (x : Memory × Memory × Memory) (k : Nat) :
    binStore.read (loop (analyzeMems nm s) 0 n x) k =
      if k < n then binElems nm s k (x.1.read k) else binStore.read x k := by
  have hread := loop_read_owner (S := binStore) (f := analyzeMems nm s) id n x
    (fun j u i _ hi => (binStore_read_analyzeMems nm s j u i).trans (if_neg hi))
    (fun j u v _ huv i hi => by
      obtain rfl : i = j := hi
      have hlast : u.1.read i = v.1.read i := congrArg Prod.fst (huv i rfl)
      rw [binStore_read_analyzeMems, binStore_read_analyzeMems, if_pos rfl, if_pos rfl, hlast]) k
  rwa [id, binStore_read_analyzeMems, if_pos rfl] at hread

/-- The three memories of a state that step 4 of `Analyze` writes. -/
def binMems : Memory × Memory × Memory := (s.lastph, s.anamag, s.anafrq)

theorem analyzeBins_read (k : Nat) : binStore.read (binMems (analyzeBins nm s)) k =
    if k ≤ frameSize s / 2 then binElems nm s k (s.lastph.read k) else binStore.read (binMems s) k := by
  rw [analyzeBins_eq]
  refine (loop_analyzeMems_read nm s (frameSize s / 2 + 1) (binMems s) k).trans ?_
  simp only [Nat.lt_succ_iff]
  rfl

/-! ### The two steps put together -/

/-- The workspace after step 2 of `Analyze`: the forward transform of the windowed frame
(42_analyzer.md R163). -/
def spectrum : Memory :=
  network (numArith nm) memStore s.tw.read s.log2n.toNat s.log2n.toNat .fwd (windowFrame nm s).ws

theorem analyze_eq : analyze nm s = analyzeBins nm { s with ws := spectrum nm s } := by
  unfold analyze spectrum
  rw [windowFrame_eq]
  rfl

theorem analyze_ws : (analyze nm s).ws = spectrum nm s := by
  rw [analyze_eq, analyzeBins_eq]

theorem analyze_read (k : Nat) : binStore.read (binMems (analyze nm s)) k =
    if k ≤ frameSize s / 2 then binElems nm { s with ws := spectrum nm s } k (s.lastph.read k)
    else binStore.read (binMems s) k := by
  rw [analyze_eq]
  exact analyzeBins_read nm { s with ws := spectrum nm s } k

end Bins

/-- Settles O27: `w` is the windowed frame. -/
theorem analyzeResult : Obligations.AnalyzeResult := by
  intro s hc
  refine ⟨okState 0#32 (analyze Config.numerics s), (windowFrame Config.numerics s).ws,
    exec_analyze hc, congrArg (okState 0#32) (analyze_frame _ s), fun k hk => ⟨?_, ?_⟩, fun i hi => ?_,
    analyze_ws _ s, fun k => ?_⟩
  · rw [windowFrame_ws_read, if_pos (by unfold frameSize; omega), if_pos (by omega),
      Nat.mul_div_cancel_left k two_pos]
  · rw [windowFrame_ws_read, if_pos (by unfold frameSize; omega), if_neg (by omega)]
    rfl
  · rw [windowFrame_ws_read, if_neg (by unfold frameSize; omega)]
  · have hws : (okState 0#32 (analyze Config.numerics s)).ws = spectrum Config.numerics s := analyze_ws _ s
    have hread := analyze_read Config.numerics s k
    dsimp only
    rw [hws]
    refine ⟨fun hk => ?_, fun hk => ?_⟩
    · rw [if_pos (show k ≤ frameSize s / 2 from hk)] at hread
      exact of_binStore_read_eq hread
    · rw [if_neg (Nat.not_le.mpr (show frameSize s / 2 < k from hk))] at hread
      exact of_binStore_read_eq hread

end Sys2Proof.Machine
end

section
/-! PROOFS. The phase-difference fold (42_analyzer.md R166). -/

namespace Sys2Proof.Machine

/-! ### Integers as Nums -/

/-- A sum that is an integer of few bits, or the value of some Num up to its sign, is exact. -/
theorem addAs_integer {nm : Numerics} {op : NumOp} {a b c : Num} {v : Int} (ha : isFin a = true)
    (hb : isFin b = true) (hc : isFin c = true) (hsum : numVal a + numVal b = v * 2 ^ 149)
    (hv : v.natAbs ≤ 2 ^ 24 ∨ v.natAbs * 2 ^ 149 = numMag c) :
    isFin (addAs nm op a b) = true ∧ numReal (addAs nm op a b) = v := by
  have hreal : numReal a + numReal b = v := by
    unfold numReal
    rw [← add_div, div_eq_iff (by positivity)]
    exact_mod_cast hsum
  rw [addAs_fin ha hb]
  split
  · next h0 =>
    obtain ⟨hzero, -⟩ := packNum_zero_spec (numSign a && numSign b)
    have hv0 : v = 0 := by omega
    exact ⟨isFin_of_isZero hzero, by rw [numReal_eq_zero.mpr hzero, hv0, Int.cast_zero]⟩
  · have hneg : decide (numVal a + numVal b < 0) = decide (v < 0) := by
      rw [hsum, decide_eq_decide]; omega
    have habs : (numVal a + numVal b).natAbs = v.natAbs * 2 ^ 149 := by
      rw [hsum, Int.natAbs_mul]; rfl
    obtain ⟨hlt, hval⟩ := roundMag_integer hc hv
    rw [hneg, habs]
    refine ⟨isFin_packNum _ hlt, inUnits_injective (decide (v < 0)) ?_⟩
    rw [inUnits_numReal_packNum _ (roundMag_lt _ _), hval, inUnits_intCast, Nat.cast_mul,
      Nat.cast_pow, Nat.cast_ofNat]

/-- From 2^24 on every Num is an even integer. -/
theorem even_or_lt_of_numMag_eq {a : Num} {i : Nat} (ha : isFin a = true)
    (h : i * 2 ^ 149 = numMag a) : i % 2 = 0 ∨ i < 2 ^ 24 := by
  obtain ⟨s, m, hm, -, he⟩ := numMag_eq_scaled ha
  rw [he] at h
  rcases Nat.lt_or_ge 149 s with hs | hs
  · left
    obtain ⟨t, rfl⟩ := Nat.exists_eq_add_of_lt hs
    have hi : i = 2 * (m * 2 ^ t) := by
      refine Nat.eq_of_mul_eq_mul_right (Nat.two_pow_pos 149) (h.trans ?_)
      ring
    omega
  · right
    have hle : i * 2 ^ 149 ≤ m * 2 ^ 149 := by
      rw [h]
      gcongr
      · decide
    omega

/-! ### What the floor gives -/

/-- Only a finite Num has a finite floor. -/
theorem isFin_of_isFin_numFloor {nm : Numerics} {a : Num} (h : isFin (numFloor nm a) = true) :
    isFin a = true := by
  rcases num_cases a with ⟨hn, -⟩ | ⟨-, hi, -⟩ | ⟨-, -, hf⟩
  · have := numFloor_nan (nm := nm) hn
    rw [isNaN_of_isFin h] at this
    cases this
  · rwa [numFloor_inf hi] at h
  · exact hf

/-- A finite floor is the integer it is. -/
theorem numVal_numFloor {nm : Numerics} {a : Num} (h : isFin (numFloor nm a) = true) :
    numVal (numFloor nm a) = numFloorInt (numFloor nm a) * 2 ^ 149 := by
  obtain ⟨-, hreal⟩ := numFloor_exact (nm := nm) (isFin_of_isFin_numFloor h)
  rw [floor_numReal, numReal, div_eq_iff (by positivity)] at hreal
  have hval : numVal (numFloor nm a) = numFloorInt a * 2 ^ 149 := by exact_mod_cast hreal
  have hint : numFloorInt (numFloor nm a) = numFloorInt a := by
    rw [numFloorInt, hval, Int.mul_ediv_cancel _ (by decide)]
  rw [hint, hval]

/-! ### The even multiple -/

/-- An integer, moved away from zero to an even one. -/
def evenAway (q : Int) : Int := if 0 ≤ q then q + q % 2 else q - q % 2

/-- The Num `q2` of the fold (42_analyzer.md R166). -/
def foldMultiple (nm : Numerics) (q : Num) : Num :=
  if numGe q (numOfNat 0) then numAdd nm q (numOfNat (foldParity q))
  else numSub nm q (numOfNat (foldParity q))

theorem fold_eq (nm : Numerics) (t : Num) : fold nm t =
    numSub nm t (numMul nm numPi (foldMultiple nm (numFloor nm (numDiv nm t numPi)))) := rfl

theorem foldParity_eq {q : Num} (h : isFin q = true) : (foldParity q : Int) = numFloorInt q % 2 := by
  unfold foldParity
  simp only [h, Bool.true_and, decide_eq_true_eq]
  split <;> omega

/-- An integer Num leaves room for the step to the even integer. -/
theorem evenAway_fits {q : Num} (h : isFin q = true) (hq : numVal q = numFloorInt q * 2 ^ 149) :
    (evenAway (numFloorInt q)).natAbs ≤ 2 ^ 24 ∨
      (evenAway (numFloorInt q)).natAbs * 2 ^ 149 = numMag q := by
  have hmag : (numFloorInt q).natAbs * 2 ^ 149 = numMag q := by
    rw [← numVal_natAbs, hq, Int.natAbs_mul]; rfl
  have hodd := even_or_lt_of_numMag_eq h hmag
  rw [← hmag]
  unfold evenAway
  generalize numFloorInt q = v at hodd ⊢
  split <;> omega

/-- On an integer Num the step is exact. -/
theorem foldMultiple_spec {nm : Numerics} {q : Num} (h : isFin q = true)
    (hq : numVal q = numFloorInt q * 2 ^ 149) :
    isFin (foldMultiple nm q) = true ∧ numReal (foldMultiple nm q) = evenAway (numFloorInt q) := by
  have hfits := evenAway_fits h hq
  have hpar : foldParity q ≤ 2 ^ 24 := by unfold foldParity; split <;> decide
  have hparVal := numVal_numOfNat hpar
  rw [foldParity_eq h] at hparVal
  have hparFin : isFin (numOfNat (foldParity q)) = true := by unfold foldParity; split <;> decide
  have hge : numGe q (numOfNat 0) = true ↔ 0 ≤ numFloorInt q := by
    rw [numGe_iff (isNaN_of_isFin h) (isNaN_numOfNat 0), numVal_numOfNat (by decide), hq]
    omega
  unfold foldMultiple
  split
  · next hnonneg =>
    refine addAs_integer h hparFin h ?_ hfits
    rw [hparVal, hq, evenAway, if_pos (hge.mp hnonneg)]
    ring
  · next hneg =>
    refine addAs_integer h (by rwa [isFin_numNeg]) h ?_ hfits
    rw [numVal_numNeg, hparVal, hq, evenAway, if_neg (mt hge.mpr hneg)]
    ring

/-- Settles O28. -/
theorem foldSubtractsEvenMultiple : Obligations.FoldSubtractsEvenMultiple := by
  intro nm t hfin
  obtain ⟨hmul, hreal⟩ := foldMultiple_spec (nm := nm) hfin (numVal_numFloor hfin)
  refine ⟨_, _, fold_eq nm t, hmul, hreal, ?_⟩
  unfold evenAway
  dsimp only
  split <;> omega

end Sys2Proof.Machine
end

section
/-! PROOFS. The expected phase advance per hop (42_analyzer.md R164). -/

namespace Sys2Proof.Machine

/-! ### Powers of two -/

/-- A value of at most 24 significant bits below overflow is rounded to itself. -/
theorem packNum_roundMag_scaled (neg : Bool) {m e den : Nat} (hd : 0 < den) (hm : m < 2 ^ 24)
    (he : e = 0 ∨ 2 ^ 23 ≤ m) (hov : e * 2 ^ 23 + m < infMag) :
    isFin (packNum neg (roundMag (m * 2 ^ e * den) den)) = true ∧
      numSign (packNum neg (roundMag (m * 2 ^ e * den) den)) = neg ∧
      numMag (packNum neg (roundMag (m * 2 ^ e * den) den)) = m * 2 ^ e := by
  have hlt : e * 2 ^ 23 + m < 2 ^ 31 := hov.trans (by decide)
  rw [roundMag_exact hd hm he, Nat.min_eq_left hov.le]
  exact ⟨isFin_packNum neg hov, numSign_packNum neg hlt, by rw [numMag_packNum neg hlt, magOf_scale hm he]⟩

theorem isFin_numOfNat {i : Nat} (h : i ≤ 2 ^ 24) : isFin (numOfNat i) = true :=
  isFin_packNum false (roundMag_integer (a := numZero) (by decide) (.inl h)).1

/-- A legal oversampling factor is a power of two that divides the frame. -/
theorem legalOsamp_two_pow {v p : Nat} (h : legalOsamp v p = true) : ∃ q, v = 2 ^ q ∧ q ≤ p := by
  obtain ⟨hv, hle⟩ := legalOsamp_iff.mp h
  obtain ⟨q, rfl⟩ : ∃ q, v = 2 ^ q := by
    simp only [List.mem_cons, List.not_mem_nil, or_false] at hv
    rcases hv with rfl | rfl | rfl | rfl | rfl | rfl
    exacts [⟨0, rfl⟩, ⟨1, rfl⟩, ⟨2, rfl⟩, ⟨3, rfl⟩, ⟨4, rfl⟩, ⟨5, rfl⟩]
  exact ⟨q, rfl, (Nat.pow_le_pow_iff_right (by decide)).mp hle⟩

/-! ### `TWO_PI` scaled by powers of two -/

theorem numMag_numTwoPi : numMag numTwoPi = 0xC90FDB * 2 ^ 128 := by decide

/-- `TWO_PI` times a power of two is exact. -/
theorem twoPi_mul_two_pow (nm : Numerics) {j : Nat} (hj : j ≤ 24) :
    isFin (numMul nm numTwoPi (numOfNat (2 ^ j))) = true ∧
      numSign (numMul nm numTwoPi (numOfNat (2 ^ j))) = false ∧
      numMag (numMul nm numTwoPi (numOfNat (2 ^ j))) = 0xC90FDB * 2 ^ (128 + j) := by
  have hpow : 2 ^ j ≤ 2 ^ 24 := Nat.pow_le_pow_right two_pos hj
  have hprod : numMag numTwoPi * numMag (numOfNat (2 ^ j)) = 0xC90FDB * 2 ^ (128 + j) * 2 ^ 149 := by
    rw [numMag_numTwoPi, numMag_numOfNat hpow, Nat.pow_add]
    ring
  rw [numMul_fin (by decide) (isFin_numOfNat hpow), hprod, numSign_numOfNat]
  exact packNum_roundMag_scaled false (by decide) (by decide) (.inr (by decide)) (by unfold infMag; omega)

/-- Dividing that by a larger power of two is exact, too. -/
theorem twoPi_mul_div_two_pow (nm : Numerics) {j q : Nat} (h : j + q ≤ 24) :
    let r := numDiv nm (numMul nm numTwoPi (numOfNat (2 ^ j))) (numOfNat (2 ^ (j + q)))
    numSign r = false ∧ numMag r = 0xC90FDB * 2 ^ (128 - q) := by
  obtain ⟨hfin, hsign, hmag⟩ := twoPi_mul_two_pow nm (j := j) (by omega)
  have hpow : 2 ^ (j + q) ≤ 2 ^ 24 := Nat.pow_le_pow_right two_pos h
  have hden : numMag (numOfNat (2 ^ (j + q))) = 2 ^ (j + q) * 2 ^ 149 := numMag_numOfNat hpow
  have hpos : 0 < numMag (numOfNat (2 ^ (j + q))) := hden ▸ by positivity
  have hquot : 0xC90FDB * 2 ^ (128 + j) * 2 ^ 149 =
      0xC90FDB * 2 ^ (128 - q) * numMag (numOfNat (2 ^ (j + q))) := by
    rw [hden, show 128 + j = (128 - q) + (j + q) by omega, Nat.pow_add 2 (128 - q)]
    ring
  have hz : isZero (numOfNat (2 ^ (j + q))) = false :=
    Bool.eq_false_iff.mpr (mt numMag_eq_zero.mpr hpos.ne')
  dsimp only
  rw [numDiv_fin hfin (isFin_numOfNat hpow) hz, hsign, numSign_numOfNat, hmag, hquot]
  exact (packNum_roundMag_scaled false hpos (by decide) (.inr (by decide))
    (by unfold infMag; omega)).2

theorem numReal_of_not_sign {a : Num} (h : numSign a = false) : numReal a = (numMag a : ℝ) / 2 ^ 149 := by
  rw [numReal, numVal_of_not_sign h, Int.cast_natCast]

theorem numReal_twoPi_mul_div (nm : Numerics) {j q : Nat} (h : j + q ≤ 24) :
    numReal (numDiv nm (numMul nm numTwoPi (numOfNat (2 ^ j))) (numOfNat (2 ^ (j + q)))) =
      numReal numTwoPi / 2 ^ q := by
  obtain ⟨hsign, hmag⟩ := twoPi_mul_div_two_pow nm h
  have hpow : (2 : ℝ) ^ (128 - q) = 2 ^ 128 / 2 ^ q := by
    rw [pow_sub₀ _ two_ne_zero (by omega), div_eq_mul_inv]
  rw [numReal_of_not_sign hsign, numReal_of_not_sign (a := numTwoPi) rfl, hmag, numMag_numTwoPi]
  push_cast
  rw [hpow]
  ring

/-- Settles O29: the hop is the frame divided by a power of two. -/
theorem hopPhaseIsExact : Obligations.HopPhaseIsExact := by
  intro nm s hinv hc
  obtain ⟨-, hmax, -⟩ := hinv.frame hc
  obtain ⟨q, hq, hqp⟩ := legalOsamp_two_pow (hinv.legalOsamp hc)
  obtain ⟨j, hj⟩ := Nat.exists_eq_add_of_le' hqp
  have hlog : j + q ≤ 13 := hj ▸ hmax
  have hhop : hopSize s = 2 ^ j := by
    rw [hopSize, frameSize, hq, hj, Nat.pow_add, Nat.mul_div_cancel _ (Nat.two_pow_pos q)]
  rw [hopPhase, hhop, frameSize, hj, hq, Nat.cast_pow, Nat.cast_ofNat]
  exact numReal_twoPi_mul_div nm (by omega)

end Sys2Proof.Machine
end

section
/-! PROOFS. Rounding keeps the order (00_scope.md R10). -/

namespace Sys2Proof.Machine

/-- A larger 31-bit pattern has a larger absolute value. -/
theorem magOf_strictMono : StrictMono magOf := by
  refine strictMono_nat_of_lt_succ fun b => ?_
  unfold magOf
  by_cases hcarry : (b + 1) / 2 ^ 23 = b / 2 ^ 23
  · rw [hcarry]
    split
    · omega
    · exact Nat.mul_lt_mul_of_pos_right (by omega) (Nat.two_pow_pos _)
  · have hexp : (b + 1) / 2 ^ 23 = b / 2 ^ 23 + 1 := by omega
    have hfrac : (b + 1) % 2 ^ 23 = 0 := by omega
    rw [hexp, hfrac, if_neg (Nat.succ_ne_zero _), Nat.add_zero, Nat.add_sub_cancel]
    split
    · next h0 => rw [h0]; omega
    · next hpos =>
      obtain ⟨e, he⟩ := Nat.exists_eq_succ_of_ne_zero hpos
      rw [he, Nat.succ_sub_one, Nat.pow_succ (m := e), Nat.mul_comm (2 ^ e), ← Nat.mul_assoc]
      exact Nat.mul_lt_mul_of_pos_right (by omega) (Nat.two_pow_pos _)

/-- A rounding that does not overflow is as near as any other finite pattern. -/
theorem IsRounding.nearest_magOf {P Q : Nat} {X : ℝ} (h : IsRounding P X) (hP : P < infMag)
    (hQ : Q < infMag) : |(magOf P : ℝ) - X| ≤ |(magOf Q : ℝ) - X| :=
  (h.nearest hP (isFin_packNum false hQ) (by
    rw [numMag_packNum false (hQ.trans (by decide)), Nat.abs_cast])).1

/-- A larger number never rounds to a smaller pattern. -/
theorem IsRounding.le_of_lt {P Q : Nat} {X Y : ℝ} (hP : IsRounding P X) (hQ : IsRounding Q Y)
    (h : X < Y) : P ≤ Q := by
  by_contra hlt
  have hQfin : Q < infMag := lt_of_lt_of_le (not_le.mp hlt) hP.le_infMag
  have hPfin : P < infMag := by
    refine lt_of_le_of_ne hP.le_infMag fun hinf => hQfin.ne ?_
    exact hQ.overflow_iff.mpr ((hP.overflow_iff.mp hinf).trans h.le)
  have hmag : (magOf Q : ℝ) < magOf P := by exact_mod_cast magOf_strictMono (not_le.mp hlt)
  have hX := hP.nearest_magOf hPfin hQfin
  have hY := hQ.nearest_magOf hQfin hPfin
  grind

theorem roundMag_mono {num num' den : Nat} (hd : 0 < den) (h : num ≤ num') :
    roundMag num den ≤ roundMag num' den := by
  rcases Nat.eq_or_lt_of_le h with rfl | h
  · exact le_rfl
  · refine (isRounding_roundMag num hd).le_of_lt (isRounding_roundMag num' hd) ?_
    have hdR : (0 : ℝ) < den := by exact_mod_cast hd
    gcongr

end Sys2Proof.Machine
end

section
/-! PROOFS. The destinations of the remapper (43_remapper.md R182, R184). -/

namespace Sys2Proof.Machine

/-! ### One destination -/

theorem numReal_numOfNat {i : Nat} (h : i ≤ 2 ^ 24) : numReal (numOfNat i) = i := by
  rw [numReal, numVal_numOfNat h, Int.cast_mul, Int.cast_natCast, Int.cast_pow, Int.cast_ofNat,
    mul_div_cancel_right₀ _ (by positivity)]

theorem numReal_nonneg {a : Num} (h : numSign a = false) : 0 ≤ numReal a := by
  rw [numReal_of_not_sign h]
  positivity

/-- A finite product goes to its floor, if the guard admits it. -/
theorem destBin_of_isFin {nm : Numerics} {ratio : Num} {half k : Nat} (hhalf : half ≤ 2 ^ 24)
    (hfin : isFin (numMul nm (numOfNat k) ratio) = true) :
    destBin nm ratio half k =
      if ⌊numReal (numMul nm (numOfNat k) ratio)⌋ ≤ half then
        some ⌊numReal (numMul nm (numOfNat k) ratio)⌋.toNat
      else none := by
  obtain ⟨hfloor, hreal⟩ := numFloor_exact (nm := nm) hfin
  have hguard : numLe (destNum nm ratio k) (numOfNat half) = true ↔
      ⌊numReal (numMul nm (numOfNat k) ratio)⌋ ≤ half := by
    rw [destNum, (ieee_fin_compare hfloor (isFin_numOfNat hhalf)).1, hreal, numReal_numOfNat hhalf]
    exact_mod_cast Iff.rfl
  have hint : numFloorInt (destNum nm ratio k) = ⌊numReal (numMul nm (numOfNat k) ratio)⌋ := by
    rw [destNum, ← floor_numReal, hreal, Int.floor_intCast]
  simp only [destBin, hguard, hint]

/-- A product that overflows is discarded. -/
theorem destBin_of_isInf {nm : Numerics} {ratio : Num} {half k : Nat} (hhalf : half ≤ 2 ^ 24)
    (hinf : isInf (numMul nm (numOfNat k) ratio) = true)
    (hsign : numSign (numMul nm (numOfNat k) ratio) = false) :
    destBin nm ratio half k = none := by
  have hguard : ¬ numLe (destNum nm ratio k) (numOfNat half) = true := by
    rw [destNum, numFloor_inf hinf, (ieee_inf_compare hinf (isNaN_numOfNat half)).1, hsign]
    rintro (h | h)
    · cases h
    · rw [← h, isInf_of_isFin (isFin_numOfNat hhalf)] at hinf
      cases hinf
  rw [destBin, if_neg hguard]

/-- Where a source bin goes whose product is a number that is not negative (43_remapper.md R182). -/
theorem destBin_eq_some_iff {nm : Numerics} {ratio : Num} {half k d : Nat} (hhalf : half ≤ 2 ^ 24)
    (hnan : isNaN (numMul nm (numOfNat k) ratio) = false)
    (hsign : numSign (numMul nm (numOfNat k) ratio) = false) :
    destBin nm ratio half k = some d ↔ isFin (numMul nm (numOfNat k) ratio) = true ∧
      (d : Int) = ⌊numReal (numMul nm (numOfNat k) ratio)⌋ ∧ d ≤ half := by
  rcases isFin_or_isInf hnan with hfin | hinf
  · have hnonneg : 0 ≤ ⌊numReal (numMul nm (numOfNat k) ratio)⌋ :=
      Int.floor_nonneg.mpr (numReal_nonneg hsign)
    rw [destBin_of_isFin hhalf hfin]
    simp only [hfin, true_and, Option.ite_none_right_eq_some, Option.some.injEq]
    omega
  · have hfin : isFin (numMul nm (numOfNat k) ratio) = false := by
      rw [Bool.eq_false_iff]
      intro h
      rw [isInf_of_isFin h] at hinf
      cases hinf
    rw [destBin_of_isInf hhalf hinf hsign, hfin]
    simp

/-! ### Destinations of a legal ratio -/

theorem legalPos_iff {v : Word} : legalPos v = true ↔ 1 ≤ v.toNat ∧ v.toNat ≤ 0x7F7FFFFF := by
  rw [legalPos, Bool.and_eq_true, decide_eq_true_iff, decide_eq_true_iff]

theorem isFin_of_legalPos {v : Word} (h : legalPos v = true) : isFin v = true := by
  obtain ⟨-, hle⟩ := legalPos_iff.mp h
  rw [isFin_iff, infMag]
  omega

theorem numSign_of_legalPos {v : Word} (h : legalPos v = true) : numSign v = false := by
  obtain ⟨-, hle⟩ := legalPos_iff.mp h
  rw [numSign_eq, decide_eq_false_iff_not]
  omega

/-- The 31-bit pattern of the product `num(k) ⊗ RATIO`. -/
def productMag (ratio : Num) (k : Nat) : Nat := roundMag (k * 2 ^ 149 * numMag ratio) (2 ^ 149)

theorem productMag_lt (ratio : Num) (k : Nat) : productMag ratio k < 2 ^ 31 := roundMag_lt _ _

theorem productMag_mono (ratio : Num) {k k' : Nat} (h : k ≤ k') :
    productMag ratio k ≤ productMag ratio k' := by
  refine roundMag_mono (by decide) ?_
  gcongr

section Legal
variable {ratio : Num} {k : Nat} (hr : legalPos ratio = true) (hk : k ≤ 2 ^ 24)
include hr hk

theorem numMul_numOfNat_legal (nm : Numerics) :
    numMul nm (numOfNat k) ratio = packNum false (productMag ratio k) := by
  rw [numMul_fin (isFin_numOfNat hk) (isFin_of_legalPos hr), numSign_numOfNat,
    numSign_of_legalPos hr, numMag_numOfNat hk]
  rfl

theorem destBin_legal_iff {nm : Numerics} {half d : Nat} (hhalf : half ≤ 2 ^ 24) :
    destBin nm ratio half k = some d ↔ isFin (numMul nm (numOfNat k) ratio) = true ∧
      (d : Int) = ⌊numReal (numMul nm (numOfNat k) ratio)⌋ ∧ d ≤ half := by
  have hprod := numMul_numOfNat_legal hr hk nm
  refine destBin_eq_some_iff hhalf ?_ ?_
  · rw [hprod, productMag, isNaN_packNum_roundMag]
  · rw [hprod, numSign_packNum _ (productMag_lt ratio k)]

theorem isFin_product_iff (nm : Numerics) :
    isFin (numMul nm (numOfNat k) ratio) = true ↔ productMag ratio k < infMag := by
  have hlt := productMag_lt ratio k
  rw [numMul_numOfNat_legal hr hk, isFin_iff, packNum_toNat _ hlt]
  simp only [Bool.false_eq_true, if_false, Nat.zero_add, Nat.mod_eq_of_lt hlt]

theorem numReal_product (nm : Numerics) :
    numReal (numMul nm (numOfNat k) ratio) = (magOf (productMag ratio k) : ℝ) / 2 ^ 149 := by
  rw [numMul_numOfNat_legal hr hk, numReal_packNum _ (productMag_lt ratio k)]
  rfl

/-- Below a source bin that is kept every source bin is kept, and none of them goes higher
(43_remapper.md R182). -/
theorem destBin_of_le {nm : Numerics} {half j d : Nat} (hhalf : half ≤ 2 ^ 24) (hj : j ≤ k)
    (hd : destBin nm ratio half k = some d) : ∃ d', destBin nm ratio half j = some d' ∧ d' ≤ d := by
  have hj' : j ≤ 2 ^ 24 := hj.trans hk
  obtain ⟨hfin, hfloor, hle⟩ := (destBin_legal_iff hr hk hhalf).mp hd
  have hfin' : isFin (numMul nm (numOfNat j) ratio) = true :=
    (isFin_product_iff hr hj' nm).mpr
      (lt_of_le_of_lt (productMag_mono ratio hj) ((isFin_product_iff hr hk nm).mp hfin))
  have hreal : numReal (numMul nm (numOfNat j) ratio) ≤ numReal (numMul nm (numOfNat k) ratio) := by
    rw [numReal_product hr hj', numReal_product hr hk]
    gcongr
    exact magOf_strictMono.monotone (productMag_mono ratio hj)
  have hnonneg : 0 ≤ numReal (numMul nm (numOfNat j) ratio) := by
    rw [numReal_product hr hj']
    positivity
  obtain ⟨d', hd'⟩ := Int.eq_ofNat_of_zero_le (Int.floor_nonneg.mpr hnonneg)
  have hdd : d' ≤ d := by
    have := Int.floor_le_floor hreal
    omega
  exact ⟨d', (destBin_legal_iff hr hj' hhalf).mpr ⟨hfin', hd'.symm, hdd.trans hle⟩, hdd⟩

end Legal

theorem destBin_zero {ratio : Num} (hr : legalPos ratio = true) (nm : Numerics) {half : Nat}
    (hhalf : half ≤ 2 ^ 24) : destBin nm ratio half 0 = some 0 := by
  have hmag : productMag ratio 0 = 0 := by rw [productMag, Nat.zero_mul, Nat.zero_mul, roundMag_zero]
  refine (destBin_legal_iff hr (Nat.zero_le _) hhalf).mpr ⟨?_, ?_, Nat.zero_le _⟩
  · rw [isFin_product_iff hr (Nat.zero_le _), hmag]
    decide
  · rw [numReal_product hr (Nat.zero_le _), hmag, show magOf 0 = 0 by decide]
    simp

theorem two_pow_half_le {p : Nat} (hp : p ≤ 23) : 2 ^ p / 2 ≤ 2 ^ 24 :=
  (Nat.div_le_self _ _).trans (Nat.pow_le_pow_right two_pos (by omega))

/-- Settles O30. -/
theorem remapDestinations : Obligations.RemapDestinations := by
  intro nm ratio p hr hp
  have hhalf := two_pow_half_le hp
  refine ⟨fun k hk => ⟨numReal_numOfNat (hk.trans hhalf),
      fun d => destBin_legal_iff hr (hk.trans hhalf) hhalf⟩,
    destBin_zero hr nm hhalf, fun k d => destBin_le_half (by omega),
    fun k k' d d' hkk hk' hd hd' => ?_, fun k k' hkk hk' hd => ?_⟩
  · obtain ⟨e, he, hle⟩ := destBin_of_le hr (hk'.trans hhalf) hhalf hkk hd'
    rw [hd] at he
    rwa [Option.some.inj he]
  · by_contra hsome
    obtain ⟨d', hd'⟩ := Option.ne_none_iff_exists'.mp hsome
    obtain ⟨e, he, -⟩ := destBin_of_le hr (hk'.trans hhalf) hhalf hkk hd'
    rw [hd] at he
    cases he

end Sys2Proof.Machine
end

section
/-! PROOFS. The command REMAP, element by element (43_remapper.md R181 to R183). -/

namespace Sys2Proof.Machine

section Bins
variable (nm : Numerics) (s : State)

/-! ### The source bins of a destination -/

/-- The source bins below `n` that go to bin `d`, ascending. -/
def sources (n d : Nat) : List Nat :=
  (List.range n).filter fun k => destBin nm s.ratio (frameSize s / 2) k = some d

/-- The magnitudes of the source bins, added one after another (43_remapper.md R183). -/
def addMagnitudes (start : Num) (ks : List Nat) : Num :=
  ks.foldl (fun sum k => numAdd nm sum (s.anamag.read k)) start

/-- The scaled frequency of the last source bin, `start` if there is none (43_remapper.md R182). -/
def lastFrequency (start : Num) (ks : List Nat) : Num :=
  (ks.getLast?.map fun k => numMul nm (s.anafrq.read k) s.ratio).getD start

theorem sources_succ (n d : Nat) : sources nm s (n + 1) d =
    if destBin nm s.ratio (frameSize s / 2) n = some d then sources nm s n d ++ [n]
    else sources nm s n d := by
  unfold sources
  rw [List.range_succ, List.filter_append]
  split
  · next h => simp [h]
  · next h => simp [h]

theorem addMagnitudes_append (start : Num) (ks : List Nat) (k : Nat) :
    addMagnitudes nm s start (ks ++ [k]) =
      numAdd nm (addMagnitudes nm s start ks) (s.anamag.read k) := by
  rw [addMagnitudes, List.foldl_append]
  rfl

theorem lastFrequency_append (start : Num) (ks : List Nat) (k : Nat) :
    lastFrequency nm s start (ks ++ [k]) = numMul nm (s.anafrq.read k) s.ratio := by
  rw [lastFrequency, List.getLast?_append]
  rfl

/-- No source bin goes beyond the frame. -/
theorem sources_eq_nil {n d : Nat} (hd : frameSize s ≤ d) : sources nm s n d = [] := by
  refine List.filter_eq_nil_iff.mpr fun k _ => ?_
  rw [decide_eq_true_iff]
  intro hk
  have hle : d ≤ frameSize s / 2 := destBin_le_half (by have := s.log2n.isLt; omega) hk
  have hpos := frameSize_pos s
  omega

/-! ### The loop over the source bins -/

/-- One round of `Remap`: the source bin adds its magnitude at its destination and sets the frequency. -/
theorem remapMems_read (k : Nat) (x : Memory × Memory) (d : Nat) :
    (remapMems nm s k x).1.read d =
        (if destBin nm s.ratio (frameSize s / 2) k = some d then
          numAdd nm (x.1.read d) (s.anamag.read k) else x.1.read d) ∧
      (remapMems nm s k x).2.read d =
        (if destBin nm s.ratio (frameSize s / 2) k = some d then
          numMul nm (s.anafrq.read k) s.ratio else x.2.read d) := by
  unfold remapMems
  cases destBin nm s.ratio (frameSize s / 2) k with
  | none => simp
  | some e =>
    simp only [Option.elim_some, Memory.read_write, Option.some.injEq, eq_comm (a := e)]
    refine ⟨?_, trivial⟩
    split
    · next h => rw [h]
    · rfl

theorem loop_remapMems_read (n : Nat) (x : Memory × Memory) (d : Nat) :
    (loop (remapMems nm s) 0 n x).1.read d = addMagnitudes nm s (x.1.read d) (sources nm s n d) ∧
      (loop (remapMems nm s) 0 n x).2.read d = lastFrequency nm s (x.2.read d) (sources nm s n d) := by
  induction n with
  | zero => exact ⟨rfl, rfl⟩
  | succ n ih =>
    obtain ⟨hmag, hfrq⟩ := ih
    obtain ⟨hmag', hfrq'⟩ := remapMems_read nm s n (loop (remapMems nm s) 0 n x) d
    rw [loop_succ_last, Nat.zero_add, hmag', hfrq', sources_succ, hmag, hfrq]
    split
    · exact ⟨(addMagnitudes_append nm s _ _ n).symm, (lastFrequency_append nm s _ _ n).symm⟩
    · exact ⟨rfl, rfl⟩

/-! ### The two memories after `Remap` -/

theorem clearSynthesis_read (i : Nat) :
    (clearSynthesis s).synmag.read i = (if i < frameSize s then numZero else s.synmag.read i) ∧
      (clearSynthesis s).synfrq.read i = (if i < frameSize s then numZero else s.synfrq.read i) := by
  rw [clearSynthesis_eq]
  simp only [read_loop_write, Nat.zero_le, true_and, Nat.zero_add]

theorem remap_read (d : Nat) :
    (remap nm s).synmag.read d = addMagnitudes nm s ((clearSynthesis s).synmag.read d)
        (sources nm s (frameSize s / 2 + 1) d) ∧
      (remap nm s).synfrq.read d = lastFrequency nm s ((clearSynthesis s).synfrq.read d)
        (sources nm s (frameSize s / 2 + 1) d) := by
  rw [remap_eq]
  exact loop_remapMems_read nm s _ _ d

/-- A bin of the frame: the sum and the last frequency from +0.0 (43_remapper.md R182). -/
theorem remap_read_of_lt {d : Nat} (hd : d < frameSize s) :
    (remap nm s).synmag.read d =
        addMagnitudes nm s numZero (sources nm s (frameSize s / 2 + 1) d) ∧
      (remap nm s).synfrq.read d =
        lastFrequency nm s numZero (sources nm s (frameSize s / 2 + 1) d) := by
  obtain ⟨hmag, hfrq⟩ := clearSynthesis_read s d
  rw [if_pos hd] at hmag hfrq
  have hread := remap_read nm s d
  rwa [hmag, hfrq] at hread

/-- Beyond the frame nothing changes. -/
theorem remap_read_of_le {d : Nat} (hd : frameSize s ≤ d) :
    (remap nm s).synmag.read d = s.synmag.read d ∧ (remap nm s).synfrq.read d = s.synfrq.read d := by
  obtain ⟨hmag, hfrq⟩ := clearSynthesis_read s d
  rw [if_neg (Nat.not_lt.mpr hd)] at hmag hfrq
  obtain ⟨hmag', hfrq'⟩ := remap_read nm s d
  rw [sources_eq_nil nm s hd] at hmag' hfrq'
  exact ⟨hmag'.trans hmag, hfrq'.trans hfrq⟩

/-- A second `Remap` reads what the first read: it changes neither the sources nor their values. -/
theorem remap_remap_read (d : Nat) :
    (remap nm (remap nm s)).synmag.read d = (remap nm s).synmag.read d ∧
      (remap nm (remap nm s)).synfrq.read d = (remap nm s).synfrq.read d := by
  have hsame : ∀ v ks, addMagnitudes nm (remap nm s) v ks = addMagnitudes nm s v ks ∧
      lastFrequency nm (remap nm s) v ks = lastFrequency nm s v ks := fun v ks => by
    rw [remap_frame]; exact ⟨rfl, rfl⟩
  have hsources : sources nm (remap nm s) = sources nm s := by rw [remap_frame]; rfl
  have hframe : frameSize (remap nm s) = frameSize s := by rw [remap_frame]; rfl
  rcases Nat.lt_or_ge d (frameSize s) with hd | hd
  · obtain ⟨hmag, hfrq⟩ := remap_read_of_lt nm s hd
    obtain ⟨hmag', hfrq'⟩ := remap_read_of_lt nm (remap nm s) (hframe ▸ hd)
    rw [hframe, hsources, (hsame _ _).1] at hmag'
    rw [hframe, hsources, (hsame _ _).2] at hfrq'
    exact ⟨hmag'.trans hmag.symm, hfrq'.trans hfrq.symm⟩
  · exact remap_read_of_le nm (remap nm s) (hframe ▸ hd)

/-- `Remap` is idempotent on every memory (43_remapper.md R181). -/
theorem remap_remap_mem_read (m : MemId) (i : Nat) :
    ((remap nm (remap nm s)).mem m).read i = ((remap nm s).mem m).read i := by
  obtain ⟨hmag, hfrq⟩ := remap_remap_read nm s i
  cases hm : mayWrite .remap m with
  | false => rw [(remap_writes nm (remap nm s)).mem_eq hm]
  | true =>
    rcases (by simpa [mayWrite] using hm : m = .synmag ∨ m = .synfrq) with rfl | rfl
    · exact hmag
    · exact hfrq

end Bins

/-! ### The command -/

theorem exec_remap {s : State} (h : s.cfgd = true) :
    exec .remap s = .next (okState 0#32 (remap Config.numerics s)) := ifConfigured_of_cfgd h _

/-- Settles O31. -/
theorem remapResult : Obligations.RemapResult := fun s hc =>
  ⟨okState 0#32 (remap Config.numerics s), exec_remap hc, congrArg (okState 0#32) (remap_frame _ s),
    fun _ hd => remap_read_of_lt Config.numerics s hd, fun _ hi => remap_read_of_le Config.numerics s hi⟩

/-- Settles O32. -/
theorem remapIsIdempotent : Obligations.RemapIsIdempotent := by
  intro s t u hc ht hu m i
  obtain rfl := next_inj ((exec_remap hc).symm.trans ht)
  have hc' := (remap_writes Config.numerics s).sameRegisters.cfgd.trans hc
  obtain rfl := next_inj ((exec_remap_okState hc' 0#32).symm.trans hu)
  rw [memRead, memRead, mem_okState, mem_okState]
  exact remap_remap_mem_read Config.numerics s m i

end Sys2Proof.Machine
end

section
/-! PROOFS. REMAP at `RATIO = 1.0` (43_remapper.md R184). -/

namespace Sys2Proof.Machine

/-! ### The neutral elements -/

/-- A product with 1.0 is the other operand. -/
theorem numMul_numOne (nm : Numerics) {a : Num} (ha : isNaN a = false) : numMul nm a numOne = a := by
  have hone : numSign numOne = false := by decide
  rcases isFin_or_isInf ha with hfin | hinf
  · rw [numMul_fin hfin (by decide), hone, Bool.bne_false, show numMag numOne = 2 ^ 149 by decide,
      numMag_eq_magOf, roundMag_magOf (by decide) ((isFin_iff a).mp hfin), packNum_self]
  · rw [numMul_inf ha (by decide) (isZero_of_isInf hinf) (by decide) (.inl hinf), hone, Bool.bne_false,
      ← (isInf_iff a).mp hinf, packNum_self]

/-- A sum with +0.0 is the other operand, unless that is the negative zero. -/
theorem numAdd_numZero_left (nm : Numerics) {a : Num} (ha : isNaN a = false) (hne : a ≠ 0x80000000#32) :
    numAdd nm numZero a = a := by
  have hval : numVal numZero = 0 := by decide
  rcases isFin_or_isInf ha with hfin | hinf
  · rw [numAdd, addAs_fin (by decide) hfin, hval, Int.zero_add, numVal_natAbs]
    split
    · next h0 =>
      have hmag : a.toNat % 2 ^ 31 = 0 := by
        rw [← isZero_iff, ← numMag_eq_zero, ← numVal_natAbs, h0, Int.natAbs_zero]
      have hself := packNum_self a
      rw [hmag] at hself
      cases hs : numSign a with
      | true => exact absurd (by rw [← hself, hs]; decide) hne
      | false => rw [← hself, hs]; decide
    · next h0 =>
      have hsign : decide (numVal a < 0) = numSign a := by
        cases hs : numSign a with
        | true => rw [numVal_of_sign hs] at h0 ⊢; exact decide_eq_true (by omega)
        | false => rw [numVal_of_not_sign hs]; exact decide_eq_false (by omega)
      rw [hsign, packNum_roundMag_self hfin]
  · exact addAs_inf_right (by decide) hinf

/-! ### Every bin is its own source -/

theorem destBin_numOne (nm : Numerics) {half k : Nat} (hhalf : half ≤ 2 ^ 24) (hk : k ≤ half) :
    destBin nm numOne half k = some k := by
  have hprod : numMul nm (numOfNat k) numOne = numOfNat k := numMul_numOne nm (isNaN_numOfNat k)
  rw [destBin_legal_iff (by decide) (hk.trans hhalf) hhalf, hprod, numReal_numOfNat (hk.trans hhalf),
    Int.floor_natCast]
  exact ⟨isFin_numOfNat (hk.trans hhalf), rfl, hk⟩

theorem sources_numOne (nm : Numerics) {s : State} (hratio : s.ratio = numOne)
    (hhalf : frameSize s / 2 ≤ 2 ^ 24) {k : Nat} (hk : k ≤ frameSize s / 2) :
    sources nm s (frameSize s / 2 + 1) k = [k] := by
  have hself : ∀ j ∈ List.range (frameSize s / 2 + 1),
      decide (destBin nm s.ratio (frameSize s / 2) j = some k) = (j == k) := fun j hj => by
    rw [Bool.eq_iff_iff, decide_eq_true_iff, beq_iff_eq, hratio,
      destBin_numOne nm hhalf (Nat.lt_succ_iff.mp (List.mem_range.mp hj)), Option.some.injEq]
  rw [sources, List.filter_congr hself, List.filter_beq,
    List.count_eq_one_of_mem List.nodup_range (List.mem_range.mpr (Nat.lt_succ_iff.mpr hk))]
  rfl

/-- Settles O33. -/
theorem remapIdentityCopies : Obligations.RemapIdentityCopies := by
  intro s t hc hlog hratio ht k hk
  obtain rfl := next_inj ((exec_remap hc).symm.trans ht)
  have hk : k ≤ frameSize s / 2 := hk
  have hpos := frameSize_pos s
  have hlt : k < frameSize s := by omega
  obtain ⟨hmag, hfrq⟩ := remap_read_of_lt Config.numerics s hlt
  rw [sources_numOne Config.numerics hratio (two_pow_half_le hlog) hk] at hmag hfrq
  refine ⟨fun hnan hne => hmag.trans (numAdd_numZero_left _ hnan hne), fun hnan => hfrq.trans ?_⟩
  change numMul Config.numerics (s.anafrq.read k) s.ratio = _
  rw [hratio]
  exact numMul_numOne _ hnan

end Sys2Proof.Machine
end

section
/-! PROOFS. The command OLA, element by element (44_synth_ola.md R195 to R199). -/

namespace Sys2Proof.Machine

/-- A loop whose round `k` replaces element `k` by a value computed from this element alone: the rounds are
independent. -/
theorem loop_update_read {σ α : Type} {S : Store σ α} (hS : S.Lawful) (v : Nat → α → α) (n : Nat) (x : σ)
    (k : Nat) : S.read (loop (fun k x => S.write x k (v k (S.read x k))) 0 n x) k =
      if k < n then v k (S.read x k) else S.read x k := by
  have hread := loop_read_owner (S := S) (f := fun k x => S.write x k (v k (S.read x k))) id n x
    (fun j u i _ hi => hS.read_write_of_ne _ hi)
    (fun j u w _ huw i hi => by
      obtain rfl : i = j := hi
      rw [hS.read_write_self, hS.read_write_self, huw i rfl]) k
  rwa [id, hS.read_write_self] at hread

section Stage
variable (nm : Numerics) (s : State)

/-- Element `k` of the accumulator with the frame added to its lower half (44_synth_ola.md R196). -/
def olaSum (k : Nat) : Num :=
  if k < frameSize s then numAdd nm (s.acc.read k) (olaContribution nm s k) else s.acc.read k

theorem olaAccumulate_read (k : Nat) : (olaAccumulate nm s).acc.read k = olaSum nm s k := by
  rw [olaAccumulate_eq]
  exact loop_update_read memStore_lawful (fun k a => numAdd nm a (olaContribution nm s k)) _ s.acc k

theorem overlapAdd_outfifo : (overlapAdd nm s).outfifo =
    loop (fun k m => Memory.write m k ((olaAccumulate nm s).acc.read k)) 0 (hopSize s) s.outfifo := by
  unfold overlapAdd
  rw [olaShiftInput_eq, olaShiftAcc_eq, olaEmit_eq, olaAccumulate_eq]
  rfl

/-- The first `step` sums are emitted (44_synth_ola.md R197). -/
theorem overlapAdd_outfifo_read (k : Nat) : (overlapAdd nm s).outfifo.read k =
    if k < hopSize s then olaSum nm s k else s.outfifo.read k := by
  rw [overlapAdd_outfifo, read_loop_write (olaAccumulate nm s).acc.read, olaAccumulate_read]
  simp only [Nat.zero_le, true_and, Nat.zero_add]

theorem overlapAdd_acc : (overlapAdd nm s).acc =
    loop (fun i m => Memory.write m i numZero) (2 * frameSize s - hopSize s) (hopSize s)
      (shiftDown (hopSize s) (2 * frameSize s - hopSize s) (olaAccumulate nm s).acc) := by
  unfold overlapAdd
  rw [olaShiftInput_eq, olaShiftAcc_eq, olaEmit_eq, olaAccumulate_eq]
  rfl

/-- The sums move down by `step`, and zeros move in at the top (44_synth_ola.md R198). -/
theorem overlapAdd_acc_read (i : Nat) : (overlapAdd nm s).acc.read i =
    if i < 2 * frameSize s - hopSize s then olaSum nm s (i + hopSize s)
    else if i < 2 * frameSize s then numZero else s.acc.read i := by
  have hhop := hopSize_le s
  rw [overlapAdd_acc, read_loop_write (fun _ => numZero), read_shiftDown, olaAccumulate_read,
    olaAccumulate_read]
  rcases Nat.lt_or_ge i (2 * frameSize s - hopSize s) with hlow | hlow
  · rw [if_neg (by omega), if_pos hlow, if_pos hlow]
  · rw [if_neg (Nat.not_lt.mpr hlow), if_neg (Nat.not_lt.mpr hlow)]
    by_cases htop : i < 2 * frameSize s
    · rw [if_pos (by omega), if_pos htop]
    · rw [if_neg (by omega), if_neg htop, olaSum, if_neg (by omega)]

end Stage

theorem exec_ola {s : State} (h : s.cfgd = true) :
    exec .ola s = .next (okState 0#32 (overlapAdd Config.numerics s)) := ifConfigured_of_cfgd h _

/-- Settles O35. -/
theorem olaResult : Obligations.OlaResult := fun s hc =>
  ⟨okState 0#32 (overlapAdd Config.numerics s), exec_ola hc, congrArg (okState 0#32) (overlapAdd_frame _ s),
    overlapAdd_outfifo_read _ s, overlapAdd_acc_read _ s, fun k =>
      (congrArg (Memory.read · k) (overlapAdd_infifo _ s)).trans (read_shiftDown _ _ _ _)⟩

end Sys2Proof.Machine
end

section
/-! PROOFS. The command SYNTH, element by element (44_synth_ola.md R190 to R193). -/

namespace Sys2Proof.Machine

section Bins
variable (nm : Numerics) (s : State)

/-! ### The bins -/

/-- The two memories that step 1 of `Synth` writes, as one store: the phase of a bin and its pair. -/
def synthStore : Store (Memory × Memory) (Num × Num × Num) where
  read x k := (x.1.read k, x.2.read (2 * k), x.2.read (2 * k + 1))
  write x k v := (x.1.write k v.1, (x.2.write (2 * k) v.2.1).write (2 * k + 1) v.2.2)

theorem synthStore_lawful : synthStore.Lawful := fun x i j v => by
  simp only [synthStore, Memory.read_write]
  by_cases hij : j = i
  · simp [hij]
  · rw [if_neg hij, if_neg (by omega), if_neg (by omega), if_neg (by omega), if_neg (by omega), if_neg hij]

/-- The new phase of bin `k` from the old one, and the pair of the spectrum built from it
(44_synth_ola.md R191). -/
def synthElems (k : Nat) (old : Num) : Num × Num × Num :=
  let phase := numAdd nm old (phaseIncrement nm s k)
  (phase, numMul nm (s.synmag.read k) (numCos nm phase), numMul nm (s.synmag.read k) (numSin nm phase))

/-- The memories SUMPH and WS after step 1 of `Synth`. -/
def synthBins : Memory × Memory := loop (synthMems nm s) 0 (frameSize s / 2 + 1) (s.sumph, s.ws)

/-- The bins are independent, each computed from its own phase (44_synth_ola.md R191). -/
theorem synthBins_read (k : Nat) : synthStore.read (synthBins nm s) k =
    if k ≤ frameSize s / 2 then synthElems nm s k (s.sumph.read k)
    else synthStore.read (s.sumph, s.ws) k := by
  have hread := loop_update_read synthStore_lawful (fun k v => synthElems nm s k v.1)
    (frameSize s / 2 + 1) (s.sumph, s.ws) k
  simp only [Nat.lt_succ_iff] at hread
  exact hread

/-! ### The spectrum and its inverse transform -/

/-- The workspace after step 2 of `Synth`: the pairs of the bins, the mirror region +0.0
(44_synth_ola.md R192). -/
def synthSpectrum : Memory :=
  loop (fun i m => Memory.write m i numZero) (frameSize s + 2) (2 * frameSize s - (frameSize s + 2))
    (synthBins nm s).2

theorem synthesize_eq : synthesize nm s =
    { s with
      sumph := (synthBins nm s).1
      ws := network (numArith nm) memStore s.tw.read s.log2n.toNat s.log2n.toNat .inv
        (synthSpectrum nm s) } := by
  unfold synthesize
  rw [synthBins_eq, zeroMirror_eq]
  rfl

theorem synthesize_sumph_read (k : Nat) : (synthesize nm s).sumph.read k =
    if k ≤ frameSize s / 2 then (synthElems nm s k (s.sumph.read k)).1 else s.sumph.read k := by
  rw [synthesize_eq]
  refine (congrArg Prod.fst (synthBins_read nm s k)).trans ?_
  split <;> rfl

theorem synthSpectrum_read_mirror {i : Nat} (hlo : frameSize s + 2 ≤ i) (hhi : i < 2 * frameSize s) :
    (synthSpectrum nm s).read i = numZero := by
  rw [synthSpectrum, read_loop_write (fun _ => numZero), if_pos (by omega)]

end Bins

theorem two_mul_frameSize_half {s : State} (h : 1 ≤ s.log2n.toNat) :
    2 * (frameSize s / 2) = frameSize s :=
  Nat.mul_div_cancel' (dvd_pow_self 2 (Nat.one_le_iff_ne_zero.mp h))

section Spectrum
variable (nm : Numerics) {s : State} (hlog : 1 ≤ s.log2n.toNat)
include hlog

/-- The pair of a bin. -/
theorem synthSpectrum_read_pair {k : Nat} (hk : k ≤ frameSize s / 2) :
    ((synthSpectrum nm s).read (2 * k), (synthSpectrum nm s).read (2 * k + 1)) =
      (synthElems nm s k (s.sumph.read k)).2 := by
  have heven := two_mul_frameSize_half hlog
  have hread := congrArg Prod.snd (synthBins_read nm s k)
  rw [if_pos hk] at hread
  rw [synthSpectrum, read_loop_write (fun _ => numZero), read_loop_write (fun _ => numZero),
    if_neg (by omega), if_neg (by omega)]
  exact hread

/-- Beyond the workspace of the frame nothing is written. -/
theorem synthSpectrum_read_beyond {i : Nat} (hi : 2 * frameSize s ≤ i) :
    (synthSpectrum nm s).read i = s.ws.read i := by
  have heven := two_mul_frameSize_half hlog
  have hpos := frameSize_pos s
  have hread := congrArg Prod.snd (synthBins_read nm s (i / 2))
  rw [if_neg (by omega)] at hread
  obtain ⟨hre, him⟩ := Prod.mk.inj hread
  rw [synthSpectrum, read_loop_write (fun _ => numZero), if_neg (by omega)]
  rcases Nat.mod_two_eq_zero_or_one i with h | h
  · rwa [show 2 * (i / 2) = i by omega] at hre
  · rwa [show 2 * (i / 2) + 1 = i by omega] at him

end Spectrum

theorem exec_synth {s : State} (h : s.cfgd = true) :
    exec .synth s = .next (okState 0#32 (synthesize Config.numerics s)) := ifConfigured_of_cfgd h _

/-- Settles O34: `w` is the spectrum with its mirror region zeroed. -/
theorem synthResult : Obligations.SynthResult := by
  intro s hc hlog
  refine ⟨okState 0#32 (synthesize Config.numerics s), synthSpectrum Config.numerics s, exec_synth hc,
    congrArg (okState 0#32) (synthesize_frame _ s), fun k => ⟨fun hk => ?_, fun hk => ?_⟩,
    fun i => synthSpectrum_read_mirror _ s, fun i => synthSpectrum_read_beyond _ hlog,
    congrArg State.ws (synthesize_eq _ s)⟩
  · obtain ⟨hre, him⟩ := Prod.mk.inj (synthSpectrum_read_pair Config.numerics hlog hk)
    exact ⟨(synthesize_sumph_read _ s k).trans (if_pos hk), hre, him⟩
  · exact (synthesize_sumph_read _ s k).trans (if_neg (Nat.not_le.mpr hk))

end Sys2Proof.Machine
end

section
/-! PROOFS. Zeros in the arithmetic and in the butterfly network (00_scope.md R10; 40_transform.md R120). -/

namespace Sys2Proof.Machine

/-! ### The operations on zeros -/

section Operations
variable {nm : Numerics} {op : NumOp} {a b : Num}

/-- A sum of zeros is a zero, the negative one only if both are. -/
theorem addAs_of_isZero (ha : isZero a = true) (hb : isZero b = true) :
    addAs nm op a b = packNum (numSign a && numSign b) 0 := by
  refine addAs_eq_zero (isFin_of_isZero ha) (isFin_of_isZero hb) ?_
  rw [numReal_eq_zero.mpr ha, numReal_eq_zero.mpr hb, add_zero]

theorem isZero_addAs (ha : isZero a = true) (hb : isZero b = true) : isZero (addAs nm op a b) = true := by
  rw [addAs_of_isZero ha hb]
  exact isZero_packNum_zero _

theorem addAs_numZero (hb : isZero b = true) : addAs nm op numZero b = numZero :=
  addAs_of_isZero (by decide) hb

theorem isZero_numNeg (ha : isZero a = true) : isZero (numNeg a) = true := by
  rwa [isZero_iff, numNeg_toNat_mod, ← isZero_iff]

/-- A product of finite Nums, one of them a zero, is a zero with the sign of the product. -/
theorem numMul_of_isZero (ha : isFin a = true) (hb : isFin b = true)
    (h : isZero a = true ∨ isZero b = true) :
    numMul nm a b = packNum (numSign a != numSign b) 0 :=
  numMul_eq_zero ha hb (mul_eq_zero.mpr (h.imp numReal_eq_zero.mpr numReal_eq_zero.mpr))

theorem isZero_numMul (ha : isFin a = true) (hb : isFin b = true)
    (h : isZero a = true ∨ isZero b = true) : isZero (numMul nm a b) = true := by
  rw [numMul_of_isZero ha hb h]
  exact isZero_packNum_zero _

/-- A product whose exact value is bounded by a finite Num does not overflow. -/
theorem isFin_numMul_of_le {c : Num} (ha : isFin a = true) (hb : isFin b = true) (hc : isFin c = true)
    (h : |numReal a * numReal b| ≤ numReal c) : isFin (numMul nm a b) = true := by
  by_cases h0 : numReal a * numReal b = 0
  · rw [numMul_eq_zero ha hb h0]
    exact isFin_of_isZero (isZero_packNum_zero _)
  · exact (roundsTo_bounded (roundsTo_numMul ha hb h0) hc h).1

/-- +0.0 times a finite Num that is not negative is +0.0. -/
theorem numMul_numZero_left (hb : isFin b = true) (hs : numSign b = false) :
    numMul nm numZero b = numZero := by
  rw [numMul_of_isZero (by decide) hb (.inl (by decide)), hs]
  decide

theorem isZero_numDiv (ha : isZero a = true) (hb : isFin b = true) (hbz : isZero b = false) :
    isZero (numDiv nm a b) = true := by
  rw [numDiv_eq_zero (isFin_of_isZero ha) hb (mt numReal_eq_zero.mp (by simp [hbz]))
    (numReal_eq_zero.mpr ha)]
  exact isZero_packNum_zero _

/-- The magnitude of a bin with an empty pair (42_analyzer.md R165). -/
theorem binMagnitude_numZero : binMagnitude nm numZero numZero = numZero := by
  have hsq : numMul nm numZero numZero = numZero := numMul_numZero_left (by decide) (by decide)
  have hsum : numAdd nm numZero numZero = numZero := addAs_numZero (by decide)
  rw [binMagnitude, hsq, hsum, numSqrt_of_isZero (by decide),
    numMul_of_isZero (by decide) (by decide) (.inr (by decide))]
  decide

end Operations

/-! ### The network on zeros -/

/-- Sums and differences of an element of the class `Z` and any zero lie in the class, and its elements are
zeros: so it is with +0.0 alone, and with both zeros. -/
structure ZeroClass (nm : Numerics) (Z : Num → Prop) : Prop where
  isZero : ∀ {a}, Z a → isZero a = true
  addAs : ∀ {op a b}, Z a → Machine.isZero b = true → Z (addAs nm op a b)

theorem zeroClass_numZero (nm : Numerics) : ZeroClass nm (· = numZero) where
  isZero := by rintro _ rfl; decide
  addAs := by rintro op _ b rfl hb; exact addAs_numZero hb

theorem zeroClass_isZero (nm : Numerics) : ZeroClass nm (isZero · = true) where
  isZero := id
  addAs := isZero_addAs

/-- The elements below `n` belong to `Z`. -/
def AllBelow (Z : Num → Prop) (n : Nat) (m : Memory) : Prop := ∀ i, i < n → Z (m.read i)

theorem AllBelow.write {Z : Num → Prop} {n : Nat} {m : Memory} (h : AllBelow Z n m) (i : Nat) {v : Num}
    (hv : Z v) : AllBelow Z n (m.write i v) := by
  intro j hj
  rw [Memory.read_write]
  split
  · exact hv
  · exact h j hj

section Network
variable {nm : Numerics} {Z : Num → Prop} {n p : Nat} {m : Memory}

theorem AllBelow.swapElems (h : AllBelow Z n m) {a b : Nat} (ha : a < n) (hb : b < n) :
    AllBelow Z n (swapElems memStore a b m) := (h.write _ (h b hb)).write _ (h a ha)

theorem AllBelow.bitReversePairs (h : AllBelow Z (2 * 2 ^ p) m) :
    AllBelow Z (2 * 2 ^ p) (bitReversePairs memStore p m) := by
  refine loop_keeps _ _ _ _ h fun i u _ hi hu => ?_
  have hj := bitrev_lt p i
  dsimp only
  split
  · exact (hu.swapElems (by omega) (by omega)).swapElems (by omega) (by omega)
  · exact hu

/-- A butterfly with a finite twiddle: the products are zeros. -/
theorem AllBelow.butterfly (hZ : ZeroClass nm Z) (h : AllBelow Z n m) {wr wi : Num}
    (hwr : isFin wr = true) (hwi : isFin wi = true) {a d : Nat} (ha : 2 * a + 1 < n) (hd : 2 * d + 1 < n) :
    AllBelow Z n (butterfly (numArith nm) memStore wr wi a d m) := by
  have hprod : ∀ {i w}, i < n → isFin w = true → isZero (numMul nm (m.read i) w) = true :=
    fun {i w} hi hw =>
      have hz := hZ.isZero (h i hi)
      isZero_numMul (isFin_of_isZero hz) hw (.inl hz)
  have htr := isZero_addAs (nm := nm) (op := .sub) (hprod (by omega : 2 * d < n) hwr)
    (isZero_numNeg (hprod hd hwi))
  have hti := isZero_addAs (nm := nm) (op := .add) (hprod (by omega : 2 * d < n) hwi) (hprod hd hwr)
  have har := h (2 * a) (by omega)
  have hai := h (2 * a + 1) ha
  exact (((h.write (2 * d) (hZ.addAs har (isZero_numNeg htr))).write (2 * d + 1)
    (hZ.addAs hai (isZero_numNeg hti))).write (2 * a) (hZ.addAs har htr)).write (2 * a + 1)
    (hZ.addAs hai hti)

theorem isFin_twiddleIm (dir : Dir) {x : Num} (h : isFin x = true) :
    isFin (twiddleIm (numArith nm) dir x) = true := by
  cases dir with
  | fwd => exact (isFin_numNeg x).trans h
  | inv => exact h

/-- The transform of zeros is zeros, if the twiddles are finite. -/
theorem AllBelow.network (hZ : ZeroClass nm Z) {tw : Nat → Num} {log2n : Nat}
    (htw : ∀ i, i < 2 ^ log2n → isFin (tw i) = true) (hp : p ≤ log2n) (dir : Dir)
    (h : AllBelow Z (2 * 2 ^ p) m) :
    AllBelow Z (2 * 2 ^ p) (network (numArith nm) memStore tw log2n p dir m) := by
  refine loop_keeps _ 1 p _ h.bitReversePairs fun t u ht htp hu => ?_
  refine loop_keeps _ 0 (2 ^ t / 2) u hu fun j u _ hj hu => ?_
  refine loop_keeps _ 0 (2 ^ p / 2 ^ t) u hu fun c u _ hc hu => ?_
  rw [Nat.zero_add] at hj hc
  have hpair := stage_pairs_lt ht (by omega) hj hc
  have hq := twiddle_index_lt (log2n := log2n) ht (by omega) (by rwa [← two_pow_half ht])
  rw [← Nat.pow_div (by omega) two_pos] at hq
  exact hu.butterfly hZ (htw _ (by omega)) (isFin_twiddleIm dir (htw _ (by omega))) (by omega) (by omega)

end Network

end Sys2Proof.Machine
end

section
/-! PROOFS. Silence: a cycle on zeros (44_synth_ola.md R202; 42_analyzer.md R168). -/

namespace Sys2Proof.Machine

/-! ### The ROMs and the divisor of a configured engine -/

section Setup
variable {s : State} (h : Inv s) (hc : s.cfgd = true)
include h hc

/-- A frame has two samples or more, and LOG2N stays far below 23. -/
theorem Inv.log2n_bounds : 1 ≤ s.log2n.toNat ∧ s.log2n.toNat ≤ 13 := by
  obtain ⟨hlo, hhi, -⟩ := h.frame hc
  exact ⟨hlo, hhi⟩

theorem Inv.isFin_tw {i : Nat} (hi : i < frameSize s) : isFin (s.tw.read i) = true := by
  obtain ⟨hlo, hhi⟩ := h.log2n_bounds hc
  obtain ⟨-, htw⟩ := romElementsAreAccurate s.log2n.toNat hlo (by omega)
  have heven := two_mul_frameSize_half hlo
  obtain ⟨hre, him, -⟩ := htw (i / 2) (show i / 2 < frameSize s / 2 by omega)
  rw [(h.roms hc).2, twRom, read_tabulate, if_pos hi]
  rcases Nat.mod_two_eq_zero_or_one i with hmod | hmod
  · rwa [show 2 * (i / 2) = i by omega] at hre
  · rwa [show 2 * (i / 2) + 1 = i by omega] at him

/-- The window lies between +0.0 and 1.0; it has no negative zero. -/
theorem Inv.win_range {k : Nat} (hk : k < frameSize s) : isFin (s.win.read k) = true ∧
    numSign (s.win.read k) = false ∧ numReal (s.win.read k) ≤ 1 := by
  obtain ⟨hcos, -⟩ := isCosine_fxCosTurn (frameSize_pos s) hk.le
  obtain ⟨hpos, -⟩ := fxWindow_bounds hcos
  obtain ⟨hfin, -, hone⟩ := fxRound_fxWindow_range hcos
  rw [(h.roms hc).1, winRom, read_tabulate, if_pos hk, winConst_eq]
  refine ⟨hfin, ?_, hone⟩
  rw [fxRound_eq, numSign_packNum _ (roundMag_lt _ _), decide_eq_false (not_lt.mpr hpos)]

/-- Twice the window does not overflow. -/
theorem Inv.isFin_two_mul_win (nm : Numerics) {k : Nat} (hk : k < frameSize s) :
    isFin (numMul nm (numOfNat 2) (s.win.read k)) = true := by
  obtain ⟨hfin, hsign, hone⟩ := h.win_range hc hk
  have htwo : numReal (numOfNat 2) = 2 := by exact_mod_cast numReal_numOfNat (i := 2) (by decide)
  refine isFin_numMul_of_le (c := numOfNat 2) (by decide) hfin (by decide) ?_
  rw [htwo, abs_of_nonneg (mul_nonneg two_pos.le (numReal_nonneg hsign))]
  linarith

/-- The divisor of the overlap-add stage is finite and not zero (44_synth_ola.md R196). -/
theorem Inv.olaDivisor : isFin (numOfNat (frameSize s / 2 * s.osamp.toNat)) = true ∧
    isZero (numOfNat (frameSize s / 2 * s.osamp.toNat)) = false := by
  obtain ⟨hlo, hhi⟩ := h.log2n_bounds hc
  have hsize : frameSize s ≤ 2 ^ 13 := Nat.pow_le_pow_right two_pos hhi
  have heven := two_mul_frameSize_half hlo
  have hpos := frameSize_pos s
  have hosamp : 0 < s.osamp.toNat := by
    obtain ⟨q, hq, -⟩ := legalOsamp_two_pow (h.legalOsamp hc)
    exact hq ▸ Nat.two_pow_pos q
  have hden : frameSize s / 2 * s.osamp.toNat ≤ 2 ^ 12 * 2 ^ 6 :=
    Nat.mul_le_mul (by omega) s.osamp.isLt.le
  refine ⟨isFin_numOfNat (by omega), isZero_eq_false ?_⟩
  rw [numReal_numOfNat (by omega), Nat.cast_ne_zero]
  exact (Nat.mul_pos (by omega) hosamp).ne'

end Setup

/-! ### Stage after stage -/

/-- A configured engine that meets the invariant, with its frame size and its hop. -/
structure Running (n hop : Nat) (s : State) : Prop where
  inv : Inv s
  cfgd : s.cfgd = true
  size : frameSize s = n
  hop : hopSize s = hop

section Stages
variable (nm : Numerics) {n hop : Nat} {s u : State}

/-- The stages of a cycle keep the engine running as it was. -/
theorem Running.stage (h : Running n hop s) {i : Instr} (hi : i ∈ [Instr.analyze, .remap, .synth, .ola])
    (hw : Writes (frameSize s) (mayWrite i) s u) : Running n hop u := by
  have hram := hw.mono (mayWrite_cycle_of_stage hi)
  have hset := hram.sameSetup mayWrite_cycle_rom
  obtain ⟨hsize, hhop, -⟩ := derived_congr hset.log2n hset.osamp
  exact ⟨h.inv.writes h.cfgd hram mayWrite_cycle_rom, hset.cfgd.trans h.cfgd, hsize.trans h.size,
    hhop.trans h.hop⟩

theorem Running.analyze (h : Running n hop s) : Running n hop (analyze nm s) :=
  h.stage (by decide) (analyze_writes nm s)

theorem Running.remap (h : Running n hop s) : Running n hop (remap nm s) :=
  h.stage (by decide) (remap_writes nm s)

theorem Running.synthesize (h : Running n hop s) : Running n hop (synthesize nm s) :=
  h.stage (by decide) (synthesize_writes nm s)

/-! ### The stages on silence -/

/-- An input buffer of +0.0 has a spectrum of +0.0: no element of the frame is a negative zero
(42_analyzer.md R162, R163). -/
theorem Running.spectrum_silent (h : Running n hop s) (hin : AllBelow (· = numZero) n s.infifo) :
    AllBelow (· = numZero) (2 * n) (spectrum nm s) := by
  obtain ⟨hinv, hc, rfl, -⟩ := h
  have hframe : AllBelow (· = numZero) (2 * frameSize s) (windowFrame nm s).ws := by
    intro i hi
    have hsample : i / 2 < frameSize s := by omega
    obtain ⟨hfin, hsign, -⟩ := hinv.win_range hc hsample
    rw [windowFrame_ws_read, if_pos hsample, hin _ hsample, numMul_numZero_left hfin hsign, ite_self]
  exact AllBelow.network (zeroClass_numZero nm) (fun i hi => hinv.isFin_tw hc hi) le_rfl .fwd hframe

/-- So every bin has phase and magnitude +0.0 (42_analyzer.md R168). -/
theorem Running.analyze_silent (h : Running n hop s) (hin : AllBelow (· = numZero) n s.infifo) {k : Nat}
    (hk : k ≤ n / 2) :
    (Machine.analyze nm s).lastph.read k = numZero ∧ (Machine.analyze nm s).anamag.read k = numZero := by
  have hspec := h.spectrum_silent nm hin
  obtain ⟨-, -, rfl, -⟩ := h
  have hpos := frameSize_pos s
  have hbin := analyze_read nm s k
  rw [if_pos hk, binElems] at hbin
  dsimp only at hbin
  rw [hspec (2 * k) (by omega), hspec (2 * k + 1) (by omega)] at hbin
  obtain ⟨hphase, hmag, -⟩ := of_binStore_read_eq hbin
  exact ⟨hphase.trans (numAtan2_zero nm (a := numZero) (by decide) (by decide)),
    hmag.trans binMagnitude_numZero⟩

theorem addMagnitudes_silent {ks : List Nat} (hks : ∀ k ∈ ks, s.anamag.read k = numZero) :
    addMagnitudes nm s numZero ks = numZero := by
  induction ks with
  | nil => rfl
  | cons k ks ih =>
    obtain ⟨hk, hrest⟩ := List.forall_mem_cons.mp hks
    rw [addMagnitudes, List.foldl_cons, hk, numAdd, addAs_numZero (by decide)]
    exact ih hrest

/-- Magnitudes of +0.0 leave SYNMAG at +0.0, wherever they go (43_remapper.md R182). -/
theorem Running.remap_silent (h : Running n hop s) (hana : ∀ k, k ≤ n / 2 → s.anamag.read k = numZero) :
    AllBelow (· = numZero) n (Machine.remap nm s).synmag := by
  obtain ⟨-, -, rfl, -⟩ := h
  intro d hd
  refine (remap_read_of_lt nm s hd).1.trans (addMagnitudes_silent nm fun k hk => hana k ?_)
  exact Nat.lt_succ_iff.mp (List.mem_range.mp (List.mem_of_mem_filter hk))

/-- Magnitudes of +0.0 with finite phases give a synthesis spectrum of zeros, of either sign
(44_synth_ola.md R202). -/
theorem Running.synthSpectrum_silent (h : Running n hop s) (hmag : AllBelow (· = numZero) n s.synmag)
    (hphase : ∀ k, k ≤ n / 2 → isFin ((Machine.synthesize nm s).sumph.read k) = true) :
    AllBelow (isZero · = true) (2 * n) (synthSpectrum nm s) := by
  obtain ⟨hinv, hc, rfl, -⟩ := h
  obtain ⟨hlog, -⟩ := hinv.log2n_bounds hc
  have heven := two_mul_frameSize_half hlog
  have hpos := frameSize_pos s
  intro i hi
  rcases Nat.lt_or_ge i (frameSize s + 2) with hbin | hmirror
  · have hk : i / 2 ≤ frameSize s / 2 := by omega
    have hfin := hphase _ hk
    rw [synthesize_sumph_read, if_pos hk] at hfin
    obtain ⟨hre, him⟩ := Prod.mk.inj (synthSpectrum_read_pair nm hlog hk)
    rw [hmag _ (by omega)] at hre him
    rcases Nat.mod_two_eq_zero_or_one i with hmod | hmod
    · rw [show i = 2 * (i / 2) by omega, hre]
      exact isZero_numMul (by decide) (numCos_range nm hfin).1 (.inl (by decide))
    · rw [show i = 2 * (i / 2) + 1 by omega, him]
      exact isZero_numMul (by decide) (numSin_range nm hfin).1 (.inl (by decide))
  · rw [synthSpectrum_read_mirror nm s hmirror hi]
    decide

theorem Running.synthesize_silent (h : Running n hop s) (hmag : AllBelow (· = numZero) n s.synmag)
    (hphase : ∀ k, k ≤ n / 2 → isFin ((Machine.synthesize nm s).sumph.read k) = true) :
    AllBelow (isZero · = true) (2 * n) (Machine.synthesize nm s).ws := by
  have hspec := h.synthSpectrum_silent nm hmag hphase
  obtain ⟨hinv, hc, rfl, -⟩ := h
  rw [synthesize_eq]
  exact AllBelow.network (zeroClass_isZero nm) (fun i hi => hinv.isFin_tw hc hi) le_rfl .inv hspec

/-- A frame of zeros adds zeros to the accumulator (44_synth_ola.md R196). -/
theorem Running.olaSum_silent (h : Running n hop s) (hws : AllBelow (isZero · = true) (2 * n) s.ws)
    (hacc : AllBelow (isZero · = true) (2 * n) s.acc) {k : Nat} (hk : k < 2 * n) :
    isZero (olaSum nm s k) = true := by
  obtain ⟨hinv, hc, rfl, -⟩ := h
  obtain ⟨hden, hne⟩ := hinv.olaDivisor hc
  unfold olaSum
  split
  · next hlow =>
    have hsample := hws (2 * k) (by omega)
    have hwindowed := isZero_numMul (nm := nm) (hinv.isFin_two_mul_win hc nm hlow) (isFin_of_isZero hsample)
      (.inr hsample)
    exact isZero_addAs (hacc k hk) (isZero_numDiv hwindowed hden hne)
  · exact hacc k hk

/-- The sums of zeros are emitted and kept (44_synth_ola.md R197, R198). -/
theorem Running.overlapAdd_silent (h : Running n hop s) (hws : AllBelow (isZero · = true) (2 * n) s.ws)
    (hacc : AllBelow (isZero · = true) (2 * n) s.acc) :
    AllBelow (isZero · = true) hop (overlapAdd nm s).outfifo ∧
      AllBelow (isZero · = true) (2 * n) (overlapAdd nm s).acc := by
  have hsum : ∀ k, k < 2 * n → isZero (olaSum nm s k) = true := fun k => h.olaSum_silent nm hws hacc
  obtain ⟨-, -, rfl, rfl⟩ := h
  have hhop := hopSize_le s
  refine ⟨fun k hk => ?_, fun i hi => ?_⟩
  · rw [overlapAdd_outfifo_read, if_pos hk]
    exact hsum k (by omega)
  · rw [overlapAdd_acc_read, if_pos hi]
    split
    · exact hsum _ (by omega)
    · decide

/-! ### The cycle -/

/-- After a cycle, a memory that only `Analyze` writes holds what this stage left there. -/
theorem cycle_mem_of_analyze {m : MemId} (hremap : mayWrite .remap m = false)
    (hsynth : mayWrite .synth m = false) (hola : mayWrite .ola m = false) :
    (cycle nm s).mem m = (Machine.analyze nm s).mem m :=
  ((overlapAdd_writes nm _).mem_eq hola).trans <| ((synthesize_writes nm _).mem_eq hsynth).trans <|
    (remap_writes nm _).mem_eq hremap

/-- The overlap-add stage leaves the phases alone. -/
theorem cycle_sumph : (cycle nm s).sumph =
    (Machine.synthesize nm (Machine.remap nm (Machine.analyze nm s))).sumph :=
  (overlapAdd_writes nm _).mem_eq (m := .sumph) rfl

/-- The stages before the overlap-add stage leave the accumulator alone. -/
theorem acc_before_overlapAdd :
    (Machine.synthesize nm (Machine.remap nm (Machine.analyze nm s))).acc = s.acc :=
  ((synthesize_writes nm _).mem_eq (m := .acc) rfl).trans <|
    ((remap_writes nm _).mem_eq (m := .acc) rfl).trans <| (analyze_writes nm s).mem_eq (m := .acc) rfl

/-- In a silent cycle every bin has magnitude and phase +0.0 (42_analyzer.md R168). -/
theorem Running.cycle_silent_bins (h : Running n hop s) (hin : AllBelow (· = numZero) n s.infifo) {k : Nat}
    (hk : k ≤ n / 2) : (cycle nm s).anamag.read k = numZero ∧ (cycle nm s).lastph.read k = numZero := by
  have hanamag : (cycle nm s).anamag = (Machine.analyze nm s).anamag :=
    cycle_mem_of_analyze nm (m := .anamag) rfl rfl rfl
  have hlastph : (cycle nm s).lastph = (Machine.analyze nm s).lastph :=
    cycle_mem_of_analyze nm (m := .lastph) rfl rfl rfl
  rw [hanamag, hlastph]
  exact (h.analyze_silent nm hin hk).symm

/-- A silent cycle whose new phases are finite emits zeros and keeps zeros (44_synth_ola.md R202). -/
theorem Running.cycle_silent_output (h : Running n hop s) (hin : AllBelow (· = numZero) n s.infifo)
    (hacc : AllBelow (isZero · = true) (2 * n) s.acc)
    (hphase : ∀ k, k ≤ n / 2 → isFin ((cycle nm s).sumph.read k) = true) :
    AllBelow (isZero · = true) hop (cycle nm s).outfifo ∧
      AllBelow (isZero · = true) (2 * n) (cycle nm s).acc := by
  have hana := h.analyze nm
  have hremap := hana.remap nm
  have hsynth := hremap.synthesize nm
  rw [cycle_sumph] at hphase
  rw [← acc_before_overlapAdd nm] at hacc
  have hmag := hana.remap_silent nm fun k hk => (h.analyze_silent nm hin hk).2
  exact hsynth.overlapAdd_silent nm (hremap.synthesize_silent nm hmag hphase) hacc

end Stages

/-- Settles O42, for every choice of NUMERICS. -/
theorem silentCycle : Obligations.SilentCycle := by
  intro s t h hc hin hacc ht hphase
  obtain rfl := next_inj ((exec_cycle hc).symm.trans ht)
  have hrun : Running (frameSize s) (hopSize s) s := ⟨h, hc, rfl, rfl⟩
  obtain ⟨hout, hkept⟩ := hrun.cycle_silent_output Config.numerics hin hacc hphase
  exact ⟨hout, hkept, fun k hk => hrun.cycle_silent_bins Config.numerics hin hk⟩

end Sys2Proof.Machine
end

section
/-! PROOFS. The legality predicates, and the commands on registers and flags: NOP, RESET, CLRERR, RDREG,
WRREG (45_system.md R210 to R212, R214, R215, R218). -/

namespace Sys2Proof.Machine

/-! ### The legality predicates -/

/-- A finite Num is positive when its sign bit is clear and it is no zero. -/
theorem numReal_pos_iff {a : Num} : 0 < numReal a ↔ numSign a = false ∧ isZero a = false := by
  constructor
  · intro h
    exact ⟨by rw [numSign_eq_decide h.ne', decide_eq_false h.not_gt], isZero_eq_false h.ne'⟩
  · rintro ⟨hs, hz⟩
    refine (numReal_nonneg hs).lt_of_ne' fun h0 => ?_
    rw [numReal_eq_zero, hz] at h0
    cases h0

/-- The integer range of `legalPos` is the finite Nums with a clear sign bit but for +0.0. -/
theorem legalPos_iff_finite_pos {v : Word} : legalPos v = true ↔ isFin v = true ∧ 0 < numReal v := by
  rw [numReal_pos_iff, ← Bool.not_eq_true (isZero v), legalPos_iff, isFin_iff, numSign_eq,
    decide_eq_false_iff_not, isZero_iff, infMag]
  omega

theorem mem_osampValues {n : Nat} :
    n ∈ [1, 2, 4, 8, 16, 32] ↔ n = 1 ∨ n = 2 ∨ n = 4 ∨ n = 8 ∨ n = 16 ∨ n = 32 := by
  simp only [List.mem_cons, List.not_mem_nil, or_false]

/-- Settles O11. -/
theorem legalityPredicates : Obligations.LegalityPredicates := fun _ =>
  ⟨legalPos_iff_finite_pos, legalPos_iff, fun _ => by rw [legalOsamp_iff, mem_osampValues]⟩

/-! ### Commands without operands -/

/-- Settles O9: NOP answers in the state it meets, CLRERR in that state with the six flags cleared. -/
theorem nopAndClrerr : Obligations.NopAndClrerr := fun s =>
  ⟨respond_eq 0#32 s, respond_eq 0#32 (clearSticky s)⟩

/-- Settles O10: RESET keeps of a state the host's list only, and a second RESET finds the same list. -/
theorem resetCommand : Obligations.ResetCommand := by
  refine ⟨exec_reset, fun s t h => ?_⟩
  obtain rfl := next_inj ((exec_reset s).symm.trans h)
  exact exec_reset _

/-! ### RDREG -/

theorem exec_rdreg {reg : BitVec 24} (h : reg.toNat ≤ 7) (s : State) :
    exec (.rdreg reg) s = .next (okState (regValue s reg.toNat) s) := by
  show execRdreg reg s = _
  rw [execRdreg, if_neg (Nat.not_lt.mpr h), respond_eq_okState]

theorem regValue_log2n (s : State) : regValue s 1 = BitVec.ofNat 32 s.log2n.toNat :=
  (BitVec.ofNat_toNat 32 s.log2n).symm

theorem regValue_osamp (s : State) : regValue s 2 = BitVec.ofNat 32 s.osamp.toNat :=
  (BitVec.ofNat_toNat 32 s.osamp).symm

/-- Settles O12: the two registers narrower than the data word are zero-extended, the others are the
values that `regValue` lists. -/
theorem rdregValues : Obligations.RdregValues := by
  intro s
  refine ⟨exec_rdreg_status s, ?log2n, ?osamp, exec_rdreg (reg := 3#24) (by decide) s,
    exec_rdreg (reg := 4#24) (by decide) s, exec_rdreg (reg := 5#24) (by decide) s,
    exec_rdreg (reg := 6#24) (by decide) s, exec_rdreg (reg := 7#24) (by decide) s,
    fun _ h => exec_rdreg_range h s⟩
  case log2n => rw [← regValue_log2n]; exact exec_rdreg (by decide) s
  case osamp => rw [← regValue_osamp]; exact exec_rdreg (by decide) s

/-! ### WRREG -/

theorem exec_wrreg_range {reg : BitVec 24} (h : 7 < reg.toNat) (v : Word) (s : State) :
    exec (.wrreg reg v) s = .next (errorState .range s) := by
  show execWrreg reg v s = _
  unfold execWrreg
  split
  case h_9 => exact raise_eq_errorState .range s
  all_goals omega

/-- STATUS, LOG2N, ROVER, STEP and LATENCY cannot be written. -/
theorem exec_wrreg_readOnly {reg : BitVec 24} (h : reg.toNat ∈ [0, 1, 5, 6, 7]) (v : Word) (s : State) :
    exec (.wrreg reg v) s = .next (errorState .ro s) := by
  show execWrreg reg v s = _
  simp only [List.mem_cons, List.not_mem_nil, or_false] at h
  unfold execWrreg
  rcases h with h | h | h | h | h <;> rw [h] <;> exact raise_eq_errorState .ro s

theorem exec_wrreg_ratio {v : Word} (h : legalPos v = true) (s : State) :
    exec (.wrreg 4#24 v) s = .next (okState 0#32 { s with ratio := v }) := by
  show writeRatio v s = _
  rw [writeRatio, if_pos h, respond_eq_okState]

theorem exec_wrreg_osamp_param {v : Word} {s : State} (h : ¬ legalOsamp v.toNat (osampExponent s) = true) :
    exec (.wrreg 2#24 v) s = .next (errorState .param s) := by
  show writeOsamp v s = _
  rw [writeOsamp, if_neg h, raise_eq_errorState]

theorem exec_wrreg_srate_param {v : Word} (h : ¬ legalPos v = true) (s : State) :
    exec (.wrreg 3#24 v) s = .next (errorState .param s) := by
  show writeSrate v s = _
  rw [writeSrate, if_neg h, raise_eq_errorState]

theorem exec_wrreg_ratio_param {v : Word} (h : ¬ legalPos v = true) (s : State) :
    exec (.wrreg 4#24 v) s = .next (errorState .param s) := by
  show writeRatio v s = _
  rw [writeRatio, if_neg h, raise_eq_errorState]

/-- The six bits that OSAMP stores, as a number. -/
theorem osamp_bits_eq_ofNat (v : Word) : v.extractLsb' 0 6 = BitVec.ofNat 6 v.toNat := rfl

/-- Settles O14: for a writable register the value decides, by the predicate of R218. -/
theorem wrregResults : Obligations.WrregResults := by
  intro s v
  refine ⟨fun _ h => exec_wrreg_range h v s, fun _ h => exec_wrreg_readOnly h v s, fun h => ?osamp,
    fun h => exec_wrreg_osamp_param (mt legalOsamp_iff.mp h), fun h => ?legal, fun h => ?refused⟩
  case osamp =>
    rw [← osamp_bits_eq_ofNat]
    exact exec_wrreg_osamp (legalOsamp_iff.mpr h)
  case legal =>
    have hv := legalPos_iff.mpr h
    exact ⟨exec_wrreg_srate hv s, exec_wrreg_ratio hv s⟩
  case refused =>
    have hv := mt legalPos_iff.mp h
    exact ⟨exec_wrreg_srate_param hv s, exec_wrreg_ratio_param hv s⟩

end Sys2Proof.Machine
end

section
/-! PROOFS. CONFIG, and what WRMEM stores (45_system.md R213, R216, R217; 10_state.md R41; 20_memory.md
R65, R66, R72). -/

namespace Sys2Proof.Machine

/-! ### CONFIG -/

/-- CONFIG leaves every RAM empty: each element reads +0.0. -/
theorem mem_configure_ram {m : MemId} (h : isRom m = false) (p : BitVec 5) (s : State) :
    (configure p s).mem m = [] := by
  cases m with
  | win | tw => cases h
  | ws | infifo | outfifo | acc | lastph | sumph | anamag | anafrq | synmag | synfrq => rfl

theorem memRead_configure_win (p : BitVec 5) (s : State) {k : Nat} (h : k < 2 ^ p.toNat) :
    memRead (configure p s) .win k = winConst (2 ^ p.toNat) k :=
  (read_tabulate _ _ k).trans (if_pos h)

theorem memRead_configure_tw (p : BitVec 5) (s : State) {k : Nat} (h : k < 2 ^ p.toNat) :
    memRead (configure p s) .tw k = twConst (2 ^ p.toNat) k :=
  (read_tabulate _ _ k).trans (if_pos h)

@[simp] theorem memRead_okState (v : Word) (s : State) (m : MemId) (i : Nat) :
    memRead (okState v s) m i = memRead s m i := by
  rw [memRead, mem_okState, memRead]

/-- Settles O15. -/
theorem configAccepts : Obligations.ConfigAccepts := by
  intro s p hp1 hp13 hmem hle hs1 hs2
  have hlegal : configLegal Config.log2nMax p.toNat s = true :=
    configLegal_iff.mpr ⟨legalOsamp_iff.mpr ⟨hmem, hle⟩, legalPos_iff.mpr ⟨hs1, hs2⟩, hp1, hp13⟩
  refine ⟨okState 0#32 (configure p s), exec_config hlegal, rfl, rfl, fun m => depth_of_cfgd rfl m,
    fun m hm i => ?_, fun k hk => ?_⟩
  · rw [memRead_okState, memRead, mem_configure_ram hm, Memory.read_nil]
  · simp only [memRead_okState]
    exact ⟨memRead_configure_win p s hk, memRead_configure_tw p s hk⟩

theorem configCommand_cfg {pmax : Nat} {p : BitVec 5} {s : State}
    (h : ¬ configLegal pmax p.toNat s = true) : configCommand pmax p s = .next (errorState .cfg s) := by
  rw [configCommand, if_neg h, raise_eq_errorState]

/-- Settles O16: each of the four reasons breaks one condition of `configLegal`. -/
theorem configRefuses : Obligations.ConfigRefuses := by
  refine ⟨fun s p pmax h => configCommand_cfg fun hlegal => ?_, fun s p => rfl⟩
  obtain ⟨hosamp, hsrate, hp1, hpmax⟩ := configLegal_iff.mp hlegal
  rcases h with h | h | h | h
  · exact absurd hp1 (Nat.not_le.mpr h)
  · exact absurd hpmax (Nat.not_le.mpr h)
  · exact h (legalOsamp_iff.mp hosamp)
  · exact h (legalPos_iff.mp hsrate)

/-! ### The access port -/

section Access
variable {s : State} {sel : BitVec 4} {idx : BitVec 24} {m : MemId}

theorem exec_rdmem (hsel : memOfSel sel = some m) (hc : s.cfgd = true) (hidx : idx.toNat < depth s m) :
    exec (.rdmem sel idx) s = .next (okState (memRead s m idx.toNat) s) := by
  show execRdmem sel idx s = _
  simp only [execRdmem, hsel]
  rw [ifConfigured_of_cfgd hc, if_neg (Nat.not_le.mpr hidx), respond_eq_okState]

theorem exec_wrmem (hsel : memOfSel sel = some m) (hc : s.cfgd = true) (hidx : idx.toNat < depth s m)
    (hram : isRom m = false) (v : Word) :
    exec (.wrmem sel idx v) s = .next (okState 0#32 (memWrite s m idx.toNat v)) := by
  show execWrmem sel idx v s = _
  simp only [execWrmem, hsel, hram]
  rw [ifConfigured_of_cfgd hc, if_neg (Nat.not_le.mpr hidx), if_neg (by decide), respond_eq_okState]

end Access

theorem isRom_eq_false_iff {m : MemId} : isRom m = false ↔ m ≠ .win ∧ m ≠ .tw := by
  cases m <;> decide

@[simp] theorem memWrite_cfgd (s : State) (m : MemId) (i : Nat) (v : Num) :
    (memWrite s m i v).cfgd = s.cfgd := setMem_cfgd s m _

@[simp] theorem depth_memWrite (s : State) (m m' : MemId) (i : Nat) (v : Num) :
    depth (memWrite s m i v) m' = depth s m' := depth_setMem s m m' _

/-- Settles O19: the write answers with no register changed, and the element is still below its depth when
RDMEM reads it back. -/
theorem wrmemStores : Obligations.WrmemStores := by
  intro s sel idx v m hsel hc hidx hwin htw
  have hread : ∀ m' i, memRead (okState 0#32 (memWrite s m idx.toNat v)) m' i =
      if m' = m ∧ i = idx.toNat then v else memRead s m' i := fun m' i => by
    rw [memRead_okState, memRead_memWrite]
  refine ⟨_, exec_wrmem hsel hc hidx (isRom_eq_false_iff.mpr ⟨hwin, htw⟩) v, rfl,
    registersOf_setMem s m _, hread, ?_⟩
  have hback := exec_rdmem (s := okState 0#32 (memWrite s m idx.toNat v)) hsel
    ((memWrite_cfgd s m _ v).trans hc) ((depth_memWrite s m m _ v).symm ▸ hidx)
  rw [hread, if_pos ⟨rfl, rfl⟩] at hback
  exact hback

end Sys2Proof.Machine
end

section
/-! PROOFS. Errors: what they leave, which commands end with which, in which order the access port tests for
them (60_exceptions.md R242, R244, R246); the step without a request (R258; 70_reset_and_hazards.md R270,
R277); several engines (R256). -/

namespace Sys2Proof.Machine

/-! ### Errors are precise -/

/-- Settles O48: a completion answers OK, so another code is the end of an error. -/
theorem errorsArePrecise : Obligations.ErrorsArePrecise := by
  intro i s t r hexec hresp hcode
  rcases exec_ends hexec with herr | ⟨v, u, -, rfl⟩
  · exact herr
  · cases hresp
    exact absurd rfl hcode

/-! ### The failure order of the access port -/

section Access
variable {s : State} {sel : BitVec 4} {idx : BitVec 24} {m : MemId}

theorem exec_rdmem_reserved (hsel : memOfSel sel = none) (idx : BitVec 24) (s : State) :
    exec (.rdmem sel idx) s = .next (errorState .illegal s) := by
  show execRdmem sel idx s = _
  rw [execRdmem, hsel]
  exact raise_eq_errorState .illegal s

theorem exec_wrmem_reserved (hsel : memOfSel sel = none) (idx : BitVec 24) (v : Word) (s : State) :
    exec (.wrmem sel idx v) s = .next (errorState .illegal s) := by
  show execWrmem sel idx v s = _
  rw [execWrmem, hsel]
  exact raise_eq_errorState .illegal s

theorem exec_rdmem_range (hsel : memOfSel sel = some m) (hc : s.cfgd = true)
    (hidx : depth s m ≤ idx.toNat) : exec (.rdmem sel idx) s = .next (errorState .range s) := by
  show execRdmem sel idx s = _
  simp only [execRdmem, hsel]
  rw [ifConfigured_of_cfgd hc, if_pos hidx, raise_eq_errorState]

theorem exec_wrmem_range (hsel : memOfSel sel = some m) (hc : s.cfgd = true) (hidx : depth s m ≤ idx.toNat)
    (v : Word) : exec (.wrmem sel idx v) s = .next (errorState .range s) := by
  show execWrmem sel idx v s = _
  simp only [execWrmem, hsel]
  rw [ifConfigured_of_cfgd hc, if_pos hidx, raise_eq_errorState]

theorem exec_wrmem_readOnly (hsel : memOfSel sel = some m) (hc : s.cfgd = true)
    (hidx : idx.toNat < depth s m) (hrom : isRom m = true) (v : Word) :
    exec (.wrmem sel idx v) s = .next (errorState .ro s) := by
  show execWrmem sel idx v s = _
  simp only [execWrmem, hsel]
  rw [ifConfigured_of_cfgd hc, if_neg (Nat.not_le.mpr hidx), if_pos hrom, raise_eq_errorState]

end Access

theorem isRom_iff {m : MemId} : isRom m = true ↔ m = .win ∨ m = .tw := by
  cases m <;> decide

/-- Settles O18: one lemma for each test that can fail, and `exec_rdmem` and `exec_wrmem` for the access. -/
theorem accessPortOrder : Obligations.AccessPortOrder := by
  intro s sel idx v
  refine ⟨fun hsel => ⟨exec_rdmem_reserved hsel idx s, exec_wrmem_reserved hsel idx v s⟩,
    fun m hsel => ⟨fun hc => ?unconf, fun hc hidx => ?range, fun hc hidx => ?access⟩⟩
  case unconf =>
    have hid : decide (sel.toNat ≤ 11) = true := by rw [← memOfSel_isSome, hsel]; rfl
    exact ⟨execRdmem_unconf hc hid idx, execWrmem_unconf hc hid idx v⟩
  case range => exact ⟨exec_rdmem_range hsel hc hidx, exec_wrmem_range hsel hc hidx v⟩
  case access =>
    exact ⟨exec_rdmem hsel hc hidx, fun hrom => exec_wrmem_readOnly hsel hc hidx (isRom_iff.mpr hrom) v,
      fun hwin htw => exec_wrmem hsel hc hidx (isRom_eq_false_iff.mpr ⟨hwin, htw⟩) v⟩

/-! ### The errors of a command -/

/-- A result is OK with some state, or the whole effect on `s` of an error from the list. -/
def FailsOnlyWith (errs : List Err) (s : State) (r : Result) : Prop :=
  (∃ v u, r = respond v u) ∨ ∃ e ∈ errs, r = raise e s

section Fails
variable {errs : List Err} {s : State} {r r' : Result}

theorem failsOnlyWith_respond (v : Word) (u : State) : FailsOnlyWith errs s (respond v u) :=
  .inl ⟨v, u, rfl⟩

theorem failsOnlyWith_raise {e : Err} (h : e ∈ errs) : FailsOnlyWith errs s (raise e s) :=
  .inr ⟨e, h, rfl⟩

theorem failsOnlyWith_ite {c : Prop} [Decidable c] (h : FailsOnlyWith errs s r)
    (h' : FailsOnlyWith errs s r') : FailsOnlyWith errs s (if c then r else r') := by
  split
  · exact h
  · exact h'

theorem failsOnlyWith_ifConfigured (hmem : .unconf ∈ errs) (h : FailsOnlyWith errs s r) :
    FailsOnlyWith errs s (ifConfigured s r) :=
  failsOnlyWith_ite h (failsOnlyWith_raise hmem)

/-- A command that needs memories and can fail in no other way. -/
theorem failsOnlyWith_stage (v : Word) (u : State) :
    FailsOnlyWith [.unconf] s (ifConfigured s (respond v u)) :=
  failsOnlyWith_ifConfigured (by decide) (failsOnlyWith_respond v u)

end Fails

theorem failsOnlyWith_execWrreg (reg : BitVec 24) (v : Word) (s : State) :
    FailsOnlyWith [.range, .ro, .param] s (execWrreg reg v s) := by
  have hvalue : ∀ {c : Prop} [Decidable c] (u : State),
      FailsOnlyWith [.range, .ro, .param] s (if c then respond 0#32 u else raise .param s) := fun u =>
    failsOnlyWith_ite (failsOnlyWith_respond _ u) (failsOnlyWith_raise (by decide))
  unfold execWrreg
  split
  case h_3 => exact hvalue _
  case h_4 => exact hvalue _
  case h_5 => exact hvalue _
  all_goals exact failsOnlyWith_raise (by decide)

theorem failsOnlyWith_execRdmem {sel : BitVec 4} (hsel : decide (sel.toNat ≤ 11) = true) (idx : BitVec 24)
    (s : State) : FailsOnlyWith [.unconf, .range] s (execRdmem sel idx s) := by
  obtain ⟨m, hm⟩ := exists_memOfSel hsel
  unfold execRdmem
  rw [hm]
  exact failsOnlyWith_ifConfigured (by decide)
    (failsOnlyWith_ite (failsOnlyWith_raise (by decide)) (failsOnlyWith_respond _ _))

theorem failsOnlyWith_execWrmem {sel : BitVec 4} (hsel : decide (sel.toNat ≤ 11) = true) (idx : BitVec 24)
    (v : Word) (s : State) : FailsOnlyWith [.unconf, .range, .ro] s (execWrmem sel idx v s) := by
  obtain ⟨m, hm⟩ := exists_memOfSel hsel
  unfold execWrmem
  rw [hm]
  exact failsOnlyWith_ifConfigured (by decide)
    (failsOnlyWith_ite (failsOnlyWith_raise (by decide))
      (failsOnlyWith_ite (failsOnlyWith_raise (by decide)) (failsOnlyWith_respond _ _)))

theorem failsOnlyWith_execFft (p : BitVec 5) (dir : Dir) (s : State) :
    FailsOnlyWith [.unconf, .range] s (execFft p dir s) :=
  failsOnlyWith_ifConfigured (by decide)
    (failsOnlyWith_ite (failsOnlyWith_raise (by decide)) (failsOnlyWith_respond _ _))

/-- A well-formed command fails only with the errors of its row (60_exceptions.md R242). -/
theorem failsOnlyWith_exec {i : Instr} (hwf : i.wf = true) (s : State) :
    FailsOnlyWith (possibleErrors i) s (exec i s) := by
  cases i with
  | nop | reset | clrerr => exact failsOnlyWith_respond _ _
  | config p =>
    exact failsOnlyWith_ite (failsOnlyWith_respond _ _) (failsOnlyWith_raise (List.mem_singleton_self _))
  | rdreg reg =>
    exact failsOnlyWith_ite (failsOnlyWith_raise (List.mem_singleton_self _)) (failsOnlyWith_respond _ _)
  | wrreg reg v => exact failsOnlyWith_execWrreg reg v s
  | rdmem sel idx => exact failsOnlyWith_execRdmem hwf idx s
  | wrmem sel idx v => exact failsOnlyWith_execWrmem hwf idx v s
  | fft p dir => exact failsOnlyWith_execFft p dir s
  | push | analyze | remap | synth | ola | cycle => exact failsOnlyWith_stage _ _

/-- Some well-formed command with the mnemonic of `i` ends in some state with the error `e`. -/
def Occurs (i : Instr) (e : Err) : Prop :=
  ∃ (j : Instr) (s : State), j.wf = true ∧ j.mnemonic = i.mnemonic ∧ exec j s = .next (errorState e s)

/-- An engine configured from reset with the frame size 4. -/
def frameOfFour : State := configure 2#5 { State.reset with osamp := 2#6, srate := 0x40800000#32 }

/-- Every error of a row occurs: E_UNCONF after reset, the others on a configured engine. -/
theorem occurs_of_mem_possibleErrors {i : Instr} {e : Err} (h : e ∈ possibleErrors i) : Occurs i e := by
  cases i with
  | nop | reset | clrerr => cases h
  | config p =>
    obtain rfl := List.mem_singleton.mp h
    have hlegal : ¬ configLegal Config.log2nMax (0#5).toNat frameOfFour = true := by decide
    exact ⟨.config 0#5, frameOfFour, rfl, rfl, configCommand_cfg hlegal⟩
  | rdreg reg =>
    obtain rfl := List.mem_singleton.mp h
    exact ⟨.rdreg 8#24, frameOfFour, rfl, rfl, exec_rdreg_range (by decide) frameOfFour⟩
  | wrreg reg v =>
    simp only [possibleErrors, List.mem_cons, List.not_mem_nil, or_false] at h
    rcases h with rfl | rfl | rfl
    · exact ⟨.wrreg 8#24 0#32, frameOfFour, rfl, rfl, exec_wrreg_range (by decide) _ frameOfFour⟩
    · exact ⟨.wrreg 0#24 0#32, frameOfFour, rfl, rfl, exec_wrreg_readOnly (by decide) _ frameOfFour⟩
    · exact ⟨.wrreg 4#24 0#32, frameOfFour, rfl, rfl, exec_wrreg_ratio_param (by decide) frameOfFour⟩
  | rdmem sel idx =>
    simp only [possibleErrors, List.mem_cons, List.not_mem_nil, or_false] at h
    rcases h with rfl | rfl
    · exact ⟨.rdmem 0#4 0#24, State.reset, by decide, rfl, exec_unconf rfl (by decide) (by decide)⟩
    · exact ⟨.rdmem 4#4 3#24, frameOfFour, by decide, rfl,
        exec_rdmem_range (m := .lastph) rfl rfl (by decide)⟩
  | wrmem sel idx v =>
    simp only [possibleErrors, List.mem_cons, List.not_mem_nil, or_false] at h
    rcases h with rfl | rfl | rfl
    · exact ⟨.wrmem 0#4 0#24 0#32, State.reset, by decide, rfl, exec_unconf rfl (by decide) (by decide)⟩
    · exact ⟨.wrmem 4#4 3#24 0#32, frameOfFour, by decide, rfl,
        exec_wrmem_range (m := .lastph) rfl rfl (by decide) _⟩
    · exact ⟨.wrmem 10#4 0#24 0#32, frameOfFour, by decide, rfl,
        exec_wrmem_readOnly (m := .win) rfl rfl (by decide) rfl _⟩
  | fft p dir =>
    simp only [possibleErrors, List.mem_cons, List.not_mem_nil, or_false] at h
    rcases h with rfl | rfl
    · exact ⟨.fft p dir, State.reset, rfl, rfl, exec_fft_unconfigured p dir rfl⟩
    · exact ⟨.fft 3#5 dir, frameOfFour, rfl, rfl, exec_fft_range dir rfl (by decide)⟩
  | push | analyze | remap | synth | ola | cycle =>
    obtain rfl := List.mem_singleton.mp h
    exact ⟨_, State.reset, rfl, rfl, exec_unconf rfl rfl (by simp [Instr.mnemonic])⟩

/-- Settles O49: no other error than those of the row is raised, and each of the row is. -/
theorem possibleErrorCodes : Obligations.PossibleErrorCodes := by
  refine ⟨fun i s t r hwf hexec hresp => ?_, fun _ _ => occurs_of_mem_possibleErrors⟩
  rcases failsOnlyWith_exec hwf s with ⟨v, u, hok⟩ | ⟨e, he, herr⟩
  · obtain rfl := respond_next (hok.symm.trans hexec)
    cases hresp
    exact .inl rfl
  · rw [hexec, raise_eq_errorState] at herr
    exact .inr ⟨e, he, next_inj herr⟩

/-! ### A step without a request -/

/-- Settles O7. -/
theorem stepOnOtherHostEvents : Obligations.StepOnOtherHostEvents := by
  refine fun s rest => ⟨fun h => ?idle, fun h => ?hardReset, fun h => ?violation⟩
  case idle => rw [step, takeEvent_none.mpr h]
  case hardReset => rw [step, takeEvent_cons h]; rfl
  case violation => rw [step, takeEvent_cons h]

/-! ### Several engines -/

/-- The step of a system whose engine `k` takes a step. -/
theorem stepEngine_next {sys : EngineSystem} {k : Nat} {s t : State} (hk : sys[k]? = some s)
    (hstep : step s = .next t) : stepEngine k sys = .next (sys.set k t) := by
  unfold stepEngine
  simp only [hk, hstep]

/-- Settles O54: the system's step replaces one entry of the list. -/
theorem enginesShareNothing : Obligations.EnginesShareNothing := by
  intro sys k s t hk hstep
  obtain ⟨hlt, -⟩ := List.getElem?_eq_some_iff.mp hk
  exact ⟨sys.set k t, stepEngine_next hk hstep, List.getElem?_set_self hlt,
    fun j hj => List.getElem?_set_ne hj.symm⟩

end Sys2Proof.Machine
end

section
/-! PROOFS. Runs of OLA clear the upper half of the accumulator (70_reset_and_hazards.md R285;
44_synth_ola.md R198). -/

namespace Sys2Proof.Machine

/-- The top `c` of the `2n` elements of an accumulator are +0.0. -/
def TopZero (n c : Nat) (m : Memory) : Prop :=
  ∀ k : Nat, 2 * n - c ≤ k → k < 2 * n → m.read k = 0#32

/-- One OLA moves the zeros down by a hop and fills up above them: while they lie in the upper half, no
contribution of the frame is added to them. -/
theorem TopZero.overlapAdd (nm : Numerics) {s : State} {c : Nat} (h : TopZero (frameSize s) c s.acc)
    (hc : c ≤ frameSize s) :
    TopZero (frameSize s) (c + hopSize s) (overlapAdd nm s).acc := by
  intro k hk hk2
  rw [overlapAdd_acc_read]
  by_cases hmoved : k < 2 * frameSize s - hopSize s
  · rw [if_pos hmoved, olaSum, if_neg (by omega)]
    exact h _ (by omega) (by omega)
  · rw [if_neg hmoved, if_pos hk2]
    rfl

theorem runCommands_ola_cons {s : State} (hc : s.cfgd = true) (rest : List Instr) :
    (runCommands (.ola :: rest) s).1 =
      (runCommands rest (okState 0#32 (overlapAdd Config.numerics s))).1 := by
  rw [runCommands_cons_of_ok (exec_ola hc) rfl]

/-- A run of OLAs keeps the configuration, and adds a hop of zeros for each of its commands. -/
theorem TopZero.runOlas (j : Nat) {s : State} {c : Nat} (hcfgd : s.cfgd = true)
    (h : TopZero (frameSize s) c s.acc) (hfits : c + j * hopSize s ≤ frameSize s) :
    TopZero (frameSize s) (c + j * hopSize s) (runCommands (List.replicate j .ola) s).1.acc := by
  induction j generalizing s c with
  | zero => rwa [Nat.zero_mul, Nat.add_zero]
  | succ j ih =>
    have hregs := (overlapAdd_writes Config.numerics s).sameRegisters
    obtain ⟨hsize, hhop, -⟩ := derived_congr (t := okState 0#32 (Machine.overlapAdd Config.numerics s))
      hregs.log2n hregs.osamp
    have hcount : c + (j + 1) * hopSize s = c + hopSize s + j * hopSize s := by
      rw [Nat.succ_mul]
      omega
    have hrest := ih (s := okState 0#32 (Machine.overlapAdd Config.numerics s)) (c := c + hopSize s)
      (hregs.cfgd.trans hcfgd)
    rw [hsize, hhop, ← hcount] at hrest
    rw [List.replicate_succ, runCommands_ola_cons hcfgd]
    exact hrest (h.overlapAdd _ (by omega)) hfits

/-- A legal factor cuts the frame into whole hops. -/
theorem osamp_mul_hopSize {s : State} (h : legalOsamp s.osamp.toNat s.log2n.toNat = true) :
    s.osamp.toNat * hopSize s = frameSize s := by
  obtain ⟨q, hq, hle⟩ := legalOsamp_two_pow h
  exact Nat.mul_div_cancel' (hq ▸ Nat.pow_dvd_pow 2 hle)

/-- Settles O37: the hops of `osamp` commands make up the whole upper half. -/
theorem upperAccumulatorIsRestored : Obligations.UpperAccumulatorIsRestored := by
  intro s hinv hc k hk hk2
  have hhops := osamp_mul_hopSize (hinv.legalOsamp hc)
  have hnone : TopZero (frameSize s) 0 s.acc := fun i hi hi2 => absurd hi2 (Nat.not_lt.mpr hi)
  have hrun := hnone.runOlas s.osamp.toNat hc (by omega)
  rw [Nat.zero_add, hhops] at hrun
  exact hrun k (by change frameSize s ≤ k at hk; omega) hk2

end Sys2Proof.Machine
end
